-- ==== Sys2Proof/Word.lean ====
section
/-! DEFINITION. The widths the block works in (R9, R12): every quantity is unsigned and bit 0 is the
least significant bit. -/

namespace Sys2Proof

/-- A symbol, a byte value 0 to 255, and the unit of both streams (R9 SYM_W, R60). -/
abbrev Byte := BitVec 8

/-- A command word, a host register, one occurrence count (R9 CMD_W and CNT_W). -/
abbrev Word := BitVec 32

/-- A node index or a heap slot's content (R9 IDX_W). -/
abbrev Idx := BitVec 9

/-- A tree node's frequency, the priority queue's key (R9 FREQ_W, R150). -/
abbrev Freq := BitVec 40

end Sys2Proof
end

