-- ==== Sys2Proof/Syntax.lean ====
section
/-! DEFINITION. The command set: one constructor for each row of the opcode map (R94), with the
operand fields of R93. -/

namespace Sys2Proof

/-- A command, the block's analogue of an instruction (R16). -/
inductive Instr where
  /-- NOP (R111). -/
  | nop
  /-- RESET (R112). -/
  | reset
  /-- FT_CLEAR (R121). -/
  | ftClear
  /-- FT_COUNT sym (R122). -/
  | ftCount (sym : Byte)
  /-- FT_LOAD sym; its 32-bit operand is the register ARG (R124). -/
  | ftLoad (sym : Byte)
  /-- FT_READ sym (R125). -/
  | ftRead (sym : Byte)
  /-- FT_SCAN (R126). -/
  | ftScan
  /-- BUILD (R141). -/
  | build
  /-- RD_NODE sel, idx (R152); `sel` 6 to 15 is illegal (R91). -/
  | rdNode (sel : BitVec 4) (idx : Idx)
  /-- RD_CODELEN sym (R175). -/
  | rdCodeLen (sym : Byte)
  /-- RD_CODEBITS sym, chunk (R176). -/
  | rdCodeBits (sym : Byte) (chunk : BitVec 3)
  /-- RD_HEAP idx (R153). -/
  | rdHeap (idx : Idx)
  /-- WR_INIT (R186). -/
  | wrInit
  /-- PUT_BIT bit (R188). -/
  | putBit (bit : Bool)
  /-- PUT_SYM sym (R211). -/
  | putSym (sym : Byte)
  /-- FLUSH (R189). -/
  | flush
  /-- ENC_RUN (R213). -/
  | encRun
  /-- RD_INIT (R191). -/
  | rdInit
  /-- GET_BIT (R193). -/
  | getBit
  /-- DEC_SYM (R217). -/
  | decSym
  /-- DEC_RUN (R218). -/
  | decRun
  deriving DecidableEq, Repr

end Sys2Proof
end

