-- ==== Sys2Proof/WellFormed.lean ====
section
/-! DEFINITION. Which terms of `Instr` are commands. Every field but one may hold any value of its
width; `sel` of RD_NODE may not pass 5 (R91 step 4, R93). -/

namespace Sys2Proof

/-- `i` is a legal command: R91 step (4) for RD_NODE, nothing for the others. -/
def Instr.wf : Instr → Bool
  | .rdNode sel _ => sel ≤ 5#4
  | .nop | .reset | .ftClear | .ftCount _ | .ftLoad _ | .ftRead _ | .ftScan | .build
  | .rdCodeLen _ | .rdCodeBits _ _ | .rdHeap _ | .wrInit | .putBit _ | .putSym _ | .flush
  | .encRun | .rdInit | .getBit | .decSym | .decRun => true

end Sys2Proof
end

