-- ==== Sys2Proof/Decode.lean ====
section
/-! DEFINITION. The command words (R90 to R95): formats and their must-be-zero bits, the decoder,
which names what it rejects, and the encoder, written from the statement table of R98. -/

namespace Sys2Proof

/-- The six formats of R92. -/
inductive Format where
  | n | s | b | x | c | h
  deriving DecidableEq, Repr

/-- The mask of a format's fixed bits, the opcode's and the must-be-zero ones (R92). -/
def Format.mask : Format → Word
  | .n => 0xFFFFFFFF#32
  | .s => 0xFFFFFF00#32
  | .b => 0xFFFFFFFE#32
  | .x => 0xFFF0FE00#32
  | .c => 0xFFF8FF00#32
  | .h => 0xFFFFFE00#32

/-- Why a word is no command: the three grounds of R91, in the order it tests them. -/
inductive Reject where
  /-- Step (2): the opcode is none of the 21. -/
  | unknownOpcode
  /-- Step (3): a must-be-zero bit of the format is 1. -/
  | mustBeZero
  /-- Step (4): `sel` of RD_NODE is 6 to 15. -/
  | reservedSel
  deriving DecidableEq, Repr

/-- `op = w[31:24]` (R91 step 1). -/
def opField (w : Word) : BitVec 8 := w.extractLsb' 24 8

/-- `sym = w[7:0]` (R92 formats S and C). -/
def symField (w : Word) : Byte := w.extractLsb' 0 8

/-- `bit = w[0]` (R92 format B). -/
def bitField (w : Word) : Bool := w.getLsbD 0

/-- `idx = w[8:0]` (R92 formats X and H). -/
def idxField (w : Word) : Idx := w.extractLsb' 0 9

/-- `sel = w[19:16]` (R92 format X). -/
def selField (w : Word) : BitVec 4 := w.extractLsb' 16 4

/-- `chunk = w[18:16]` (R92 format C). -/
def chunkField (w : Word) : BitVec 3 := w.extractLsb' 16 3

/-- The opcode map (R94): the format of an opcode and the command it stands for, with the operand
fields of `w` (R93); none for the 235 reserved opcodes. -/
def rowOf (op : BitVec 8) (w : Word) : Option (Format × Instr) :=
  if op = 0x00#8 then some (.n, .nop)
  else if op = 0x01#8 then some (.n, .reset)
  else if op = 0x10#8 then some (.n, .ftClear)
  else if op = 0x11#8 then some (.s, .ftCount (symField w))
  else if op = 0x12#8 then some (.s, .ftLoad (symField w))
  else if op = 0x13#8 then some (.s, .ftRead (symField w))
  else if op = 0x14#8 then some (.n, .ftScan)
  else if op = 0x20#8 then some (.n, .build)
  else if op = 0x21#8 then some (.x, .rdNode (selField w) (idxField w))
  else if op = 0x22#8 then some (.s, .rdCodeLen (symField w))
  else if op = 0x23#8 then some (.c, .rdCodeBits (symField w) (chunkField w))
  else if op = 0x24#8 then some (.h, .rdHeap (idxField w))
  else if op = 0x30#8 then some (.n, .wrInit)
  else if op = 0x31#8 then some (.b, .putBit (bitField w))
  else if op = 0x32#8 then some (.s, .putSym (symField w))
  else if op = 0x33#8 then some (.n, .flush)
  else if op = 0x34#8 then some (.n, .encRun)
  else if op = 0x40#8 then some (.n, .rdInit)
  else if op = 0x41#8 then some (.n, .getBit)
  else if op = 0x42#8 then some (.n, .decSym)
  else if op = 0x43#8 then some (.n, .decRun)
  else none

/-- Decode of a command word, in the order of R91. It looks at the word alone. -/
def decode (w : Word) : Except Reject Instr :=
  match rowOf (opField w) w with
  | none => .error .unknownOpcode
  | some (f, i) =>
    if w &&& f.mask ≠ (opField w).setWidth 32 <<< 24 then .error .mustBeZero
    else if i.wf then .ok i
    else .error .reservedSel

/-- The opcode of a command (R94). -/
def Instr.opcode : Instr → BitVec 8
  | .nop => 0x00
  | .reset => 0x01
  | .ftClear => 0x10
  | .ftCount _ => 0x11
  | .ftLoad _ => 0x12
  | .ftRead _ => 0x13
  | .ftScan => 0x14
  | .build => 0x20
  | .rdNode _ _ => 0x21
  | .rdCodeLen _ => 0x22
  | .rdCodeBits _ _ => 0x23
  | .rdHeap _ => 0x24
  | .wrInit => 0x30
  | .putBit _ => 0x31
  | .putSym _ => 0x32
  | .flush => 0x33
  | .encRun => 0x34
  | .rdInit => 0x40
  | .getBit => 0x41
  | .decSym => 0x42
  | .decRun => 0x43

/-- The operand bits of a command's word, as the statement table of R98 places them. -/
def Instr.operandBits : Instr → Word
  | .ftCount sym | .ftLoad sym | .ftRead sym | .rdCodeLen sym | .putSym sym => sym.setWidth 32
  | .putBit bit => (BitVec.ofBool bit).setWidth 32
  | .rdNode sel idx => sel.setWidth 32 <<< 16 ||| idx.setWidth 32
  | .rdCodeBits sym chunk => chunk.setWidth 32 <<< 16 ||| sym.setWidth 32
  | .rdHeap idx => idx.setWidth 32
  | .nop | .reset | .ftClear | .ftScan | .build | .wrInit | .flush | .encRun | .rdInit | .getBit
  | .decSym | .decRun => 0

/-- The word of a command: `opcode << 24` OR its operand bits (R98). -/
def encode (i : Instr) : Word := i.opcode.setWidth 32 <<< 24 ||| i.operandBits

/-- The command whose word has the bits `w`, bit 0 the word's least significant, of which the table
gives `nbits`. Every command is one 32-bit word (R90), so anything longer is no command. -/
def decodeTableWord (nbits w : Nat) : Option Instr :=
  if w % 2 ^ nbits < 2 ^ 32 then
    match decode (BitVec.ofNat 32 (w % 2 ^ nbits)) with
    | .ok i => some i
    | .error _ => none
  else none

end Sys2Proof
end

