-- ==== Sys2Proof/Config.lean ====
section
/-! DEFINITION. What is fixed for one machine and is not state: the parameters of R9, the two open
parameters of R10, and the one value the spec leaves without a meaning. -/

namespace Sys2Proof.Config

/-- Number of symbol values, the size of FREQ and CODE (R9 NSYM). -/
abbrev nsym : Nat := 256

/-- Capacity of the node arena (R9 NODE_MAX, R11). -/
abbrev nodeMax : Nat := 511

/-- Capacity of the heap (R9 HEAP_CAP). -/
abbrev heapCap : Nat := 256

/-- Largest possible code length in bits (R9 CODE_MAX). -/
abbrev codeMax : Nat := 255

/-- The open parameters of R10. They reach the host's container functions as an argument; no
register and no command of the block reads them. -/
structure Params where
  /-- MAGIC_EN: does a container begin with the signature? -/
  magicEn : Bool
  /-- MAGIC_VALUE: the four bytes of the signature. -/
  magicValue : Vector Byte 4
  deriving DecidableEq, Repr

/-- The key of a node index at or beyond NODE_N, which is not state (R41, W9): a free value with no
body. BUILD starts from an empty arena, so no comparison of the priority queue ever asks for it.
DESIGN CHOICE, safe (log entry 6). -/
opaque absentKey : Idx → Freq

end Sys2Proof.Config
end

