-- ==== Sys2Proof/Machine/State.lean ====
section
/-! DEFINITION. The machine's state (R20, R46): the block, the two streams of its environment, and
the host's own command sequence; the grounds on which a step can stop; the state after reset. -/

namespace Sys2Proof.Machine

/-- PHASE (R25): is the frequency table open, or has a tree been built? -/
inductive Phase where
  /-- PHASE = 0: the frequency table is open and no tree exists. -/
  | freq
  /-- PHASE = 1: BUILD has completed; FREQ, NODE, ROOT and CODE are frozen. -/
  | tree
  deriving DecidableEq, Repr

/-- The values of ERR (R28, R271). The block never writes the codes 2, 3 and 11 to 15 (W4, W5), so
they have no constructor. -/
inductive Err where
  /-- 0: no error since reset. -/
  | ok
  /-- 1, ERR_EMPTY, raised by BUILD. -/
  | empty
  /-- 4, ERR_TRUNC, raised by DEC_SYM and DEC_RUN. -/
  | trunc
  /-- 5, ERR_ILLEGAL, raised by any CMD write. -/
  | illegal
  /-- 6, ERR_PHASE, raised by the commands that one phase only admits. -/
  | phase
  /-- 7, ERR_NOCODE, raised by PUT_SYM and ENC_RUN. -/
  | noCode
  /-- 8, ERR_COUNT_OVF, raised by FT_COUNT and FT_SCAN. -/
  | countOvf
  /-- 9, ERR_BAD_CODE, raised by DEC_SYM and DEC_RUN. -/
  | badCode
  /-- 10, ERR_RANGE, raised by RD_NODE and RD_HEAP. -/
  | range
  deriving DecidableEq, Repr

/-- One entry of the node arena (R41): a leaf has no children and an internal node no symbol. -/
inductive Node where
  | leaf (sym : Byte) (freq : Freq)
  | internal (left right : Idx) (freq : Freq)
  deriving DecidableEq, Repr

/-- What the host can do to the block (R7, R63, R70, R300): the moves of its own sequence. -/
inductive HostMove where
  /-- A bus read of `size` bytes at byte offset `off` from the base (log entry 11). -/
  | read (size off : Nat)
  /-- A bus write of `size` bytes at byte offset `off`; `v` is the data of a 32-bit access. -/
  | write (size off : Nat) (v : Word)
  /-- ATTACH: a new source sequence (R70). -/
  | attach (bytes : List Byte)
  /-- The hardware reset input (R300). -/
  | hardReset
  deriving DecidableEq, Repr

/-- The block's answer to the host's last bus access (R63 to R65). -/
inductive BusResponse where
  /-- No bus access has been made yet. -/
  | idle
  /-- A write was accepted. -/
  | written
  /-- A read was accepted and returned this value. -/
  | data (v : Word)
  /-- The access was not an aligned 32-bit one. -/
  | busError
  deriving DecidableEq, Repr

/-- The whole state. `arg` to `srcCount` are the block's (R20); `src` and `snk` are the
environment's (R46); `host` and `resp` are the model's own fields for the host (log entries 1
and 2). NUNIQ, TOTAL, DEGEN, STATUS and BITSTATE are functions of it (Flags.lean); NODE_N and
HEAP_N are the lengths of `nodes` and `heap` (log entry 9). -/
structure State where
  /-- ARG (R21). -/
  arg : Word
  /-- RES (R22). -/
  res : Word
  /-- PHASE (R25). -/
  phase : Phase
  /-- ERR (R28). -/
  err : Err
  /-- FREQ[0..255] (R40). -/
  freq : Vector Word 256
  /-- NODE[0..NODE_N−1] (R41); its length is NODE_N (R34). -/
  nodes : List Node
  /-- ROOT (R33). -/
  root : Idx
  /-- HEAP[0..HEAP_N−1] (R42); its length is HEAP_N (R35). -/
  heap : List Idx
  /-- CODE[0..255] (R43), first bit first. -/
  code : Vector (List Bool) 256
  /-- WACC (R44). -/
  wacc : Byte
  /-- WCNT, 0 to 7 (R44). -/
  wcnt : BitVec 3
  /-- RBUF (R45). -/
  rbuf : Byte
  /-- RCNT, 0 to 8 (R45). -/
  rcnt : Fin 9
  /-- REOS (R45). -/
  reos : Bool
  /-- REMAIN (R36). -/
  remain : Word
  /-- SNK_COUNT (R37). -/
  snkCount : Word
  /-- SRC_COUNT (R38). -/
  srcCount : Word
  /-- SRC, the bytes the source will still deliver (R46). -/
  src : List Byte
  /-- SNK, the bytes the sink has received (R46). -/
  snk : List Byte
  /-- The moves the host has still to make, the next one first (R24: the sequence is the host's). -/
  host : List HostMove
  /-- The answer to the host's last bus access. -/
  resp : BusResponse
  deriving DecidableEq, Repr

/-- Why a step stops without a next state. None of these arises in a state that a run reaches: the
block's own errors (R271) are next states with ERR written, never one of these. -/
inductive Fault where
  /-- Raised by DEC_SYM, DEC_RUN and BUILD when a procedure asks for NODE[i] with i ≥ NODE_N or
  HEAP[p] with p ≥ HEAP_N, which is not state (R41, R42, W9). Safe: it stops (log entry 5). -/
  | absentEntry
  /-- Raised by BUILD when it starts with NODE_N ≠ 0 or HEAP_N ≠ 0, against the fact its rule
  asserts (R141, R48 (b)). Safe: it stops (log entry 5). -/
  | arenaNotEmpty
  deriving DecidableEq, Repr

/-- Why an instruction has no meaning. -/
inductive Refusal where
  /-- Raised by `exec` alone, for an instruction that has no meaning yet. Safe: it stops. -/
  | notModelled (mnemonic : String)
  deriving DecidableEq, Repr

/-- What a command or a host move answers. -/
abbrev Answer := Host.Outcome State Fault Refusal

/-- The state right after reset (R47, R300), with the environment's sequences empty (R301) and a host
that has no move to make (log entry 1). -/
def State.reset : State where
  arg := 0
  res := 0
  phase := .freq
  err := .ok
  freq := Vector.replicate 256 0
  nodes := []
  root := 0
  heap := []
  code := Vector.replicate 256 []
  wacc := 0
  wcnt := 0
  rbuf := 0
  rcnt := 0
  reos := false
  remain := 0
  snkCount := 0
  srcCount := 0
  src := []
  snk := []
  host := []
  resp := .idle

end Sys2Proof.Machine
end

