-- ==== Sys2Proof/Machine/Ops.lean ====
section
/-! DEFINITION. The shared operations every command is written over: table access by symbol, the
stream primitives (R68, R69), taking an error (R272) and leaving the faulted state (R277), and the
frame every command runs in (R275). -/

namespace Sys2Proof.Machine

/-! ### Tables and bits -/

/-- `TABLE[sym]` of a table of 256 entries; a symbol is always in range (R61). -/
def tableAt {α : Type} (t : Vector α 256) (sym : Byte) : α := t[sym.toNat]'sym.isLt

/-- `TABLE[sym] <- v`. -/
def tablePut {α : Type} (t : Vector α 256) (sym : Byte) (v : α) : Vector α 256 :=
  t.set sym.toNat v sym.isLt

/-- `v[i] <- b`; the other bits keep their values (R187, R176). -/
def assignBit {w : Nat} (v : BitVec w) (i : Nat) (b : Bool) : BitVec w :=
  if b then v ||| BitVec.twoPow w i else v &&& ~~~BitVec.twoPow w i

/-! ### Streams -/

/-- `SrcPull()` (R68): the next byte, or `none` for `eos`. -/
def srcPull (s : State) : Option Byte × State :=
  match s.src with
  | [] => (none, s)
  | b :: rest => (some b, { s with src := rest, srcCount := s.srcCount + 1 })

/-- `SnkAppend(b)` (R69). -/
def snkAppend (b : Byte) (s : State) : State :=
  { s with snk := s.snk ++ [b], snkCount := s.snkCount + 1 }

/-! ### Errors -/

/-- `raise ERR_X`, the block's whole "trap entry" (R272): the code goes to ERR and nothing else
changes, RES included; the effects made before the raise point stay. -/
def raise (e : Err) (s : State) : State := { s with err := e }

/-- The block's whole "trap return" and its reset (R277, R112, R300): every piece of block state
takes its reset value (R47). The environment's sequences stay (R301), and so do the host's fields. -/
def resetBlock (s : State) : State :=
  { State.reset with src := s.src, snk := s.snk, host := s.host, resp := s.resp }

/-! ### Procedures and commands -/

/-- How a procedure of the pseudocode ends (R13): it returns a value, it raises an error, or it asks
for an entry that is not state. -/
inductive Res (α : Type) where
  | ret (v : α) (s : State)
  | raised (e : Err) (s : State)
  | stuck (f : Fault)
  deriving Repr

/-- Go on with the value and the state a procedure returned; "a `raise` inside a procedure ends the
command that called it" (R13). -/
def Res.bind {α β : Type} (r : Res α) (k : α → State → Res β) : Res β :=
  match r with
  | .ret v s => k v s
  | .raised e s => .raised e s
  | .stuck f => .stuck f

/-- The end of a command (R275 step 5, R22): RES is written once, by a command that completes. -/
def finish : Res Word → Answer
  | .ret v s => .next { s with res := v }
  | .raised e s => .next (raise e s)
  | .stuck f => .fault f

/-- The phases a command is admitted in (R97). -/
inductive Admission where
  | any
  | freqOnly
  | treeOnly
  deriving DecidableEq, Repr

/-- Is a command of this admission admitted in this phase (R97)? -/
def Admission.admits : Admission → Phase → Bool
  | .any, _ => true
  | .freqOnly, p => p = .freq
  | .treeOnly, p => p = .tree

/-- The common checks of R275 around a legal command's pseudocode: a faulted block does nothing
(R273), a phase that does not admit the command raises ERR_PHASE (R274). -/
def command (adm : Admission) (body : State → Res Word) (s : State) : Answer :=
  if s.err ≠ .ok then .next s
  else if adm.admits s.phase then finish (body s)
  else .next (raise .phase s)

/-- A CMD write of an illegal word (R95, R275 steps 1 and 2). -/
def illegalWord (s : State) : Answer :=
  if s.err ≠ .ok then .next s else .next (raise .illegal s)

end Sys2Proof.Machine
end

