-- ==== Sys2Proof/Machine/BitStream.lean ====
section
/-! DEFINITION. The bit stream: writer and reader, most significant bit first (R185 to R195). -/

namespace Sys2Proof.Machine

/-- `put_bit(b)` (R187). -/
def putBit (b : Bool) (s : State) : State :=
  if s.wcnt = 7#3 then
    { snkAppend (assignBit s.wacc (7 - s.wcnt.toNat) b) s with wacc := 0, wcnt := 0 }
  else
    { s with wacc := assignBit s.wacc (7 - s.wcnt.toNat) b, wcnt := s.wcnt + 1 }

/-- The bits of a sequence, first bit first, into the writer (R212). -/
def putBits (bits : List Bool) (s : State) : State := bits.foldl (fun s b => putBit b s) s

/-- What FLUSH does to the writer and the sink (R189). -/
def flushWriter (s : State) : State :=
  if s.wcnt = 0#3 then s else { snkAppend s.wacc s with wacc := 0, wcnt := 0 }

/-- The end of `get_bit()` (R192) with RCNT > 0: bit RCNT − 1 of RBUF. -/
def deliverBit (s : State) : Option Bool × State :=
  (some (s.rbuf.getLsbD (s.rcnt.val - 1)),
    { s with rcnt := ⟨s.rcnt.val - 1, Nat.lt_of_le_of_lt (Nat.sub_le _ _) s.rcnt.isLt⟩ })

/-- `get_bit()` (R192); `none` is `eos`. -/
def getBit (s : State) : Option Bool × State :=
  if s.rcnt = 0 then
    if s.reos then (none, s)
    else
      match srcPull s with
      | (none, s) => (none, { s with reos := true })
      | (some v, s) => deliverBit { s with rbuf := v, rcnt := 8 }
  else deliverBit s

/-- WR_INIT (R186). -/
def execWrInit (s : State) : Answer := command .any (fun s => .ret 0 { s with wacc := 0, wcnt := 0 }) s

/-- PUT_BIT bit (R188). -/
def execPutBit (bit : Bool) (s : State) : Answer := command .any (fun s => .ret 0 (putBit bit s)) s

/-- FLUSH (R189). -/
def execFlush (s : State) : Answer := command .any (fun s => .ret 0 (flushWriter s)) s

/-- RD_INIT (R191). -/
def execRdInit (s : State) : Answer :=
  command .any (fun s => .ret 0 { s with rbuf := 0, rcnt := 0, reos := false }) s

/-- The result of GET_BIT (R193): bit 31 is the end-of-stream signal. -/
def bitResult : Option Bool → Word
  | none => 0x80000000#32
  | some b => (BitVec.ofBool b).setWidth 32

/-- GET_BIT (R193). -/
def execGetBit (s : State) : Answer :=
  command .any (fun s => .ret (bitResult (getBit s).1) (getBit s).2) s

end Sys2Proof.Machine
end

