-- ==== Sys2Proof/Machine/Operands.lean ====
section
/-! DEFINITION. The operand forms that select part of a table entry: the node field of RD_NODE
(R93, R152) and the group of code bits of RD_CODEBITS (R176). -/

namespace Sys2Proof.Machine

/-- The node fields that `sel` names (R93). -/
inductive NodeField where
  | kind | sym | left | right | freqLo | freqHi
  deriving DecidableEq, Repr

/-- The field a value of `sel` selects; none for the reserved values 6 to 15 (R93). -/
def nodeField? (sel : BitVec 4) : Option NodeField :=
  if sel = 0#4 then some .kind
  else if sel = 1#4 then some .sym
  else if sel = 2#4 then some .left
  else if sel = 3#4 then some .right
  else if sel = 4#4 then some .freqLo
  else if sel = 5#4 then some .freqHi
  else none

/-- "This node has no such field" (R152). -/
def noField : Word := 0xFFFFFFFF#32

/-- The frequency of a node, its key in the queue (R41, R145). -/
def Node.freq : Node → Freq
  | .leaf _ f => f
  | .internal _ _ f => f

/-- Is the node a leaf (`kind` = 0, R41)? -/
def Node.isLeaf : Node → Bool
  | .leaf _ _ => true
  | .internal _ _ _ => false

/-- The value RD_NODE returns for a field of a node (the case table of R152). -/
def readField (f : NodeField) (n : Node) : Word :=
  match f, n with
  | .kind, .leaf _ _ => 0
  | .kind, .internal _ _ _ => 1
  | .sym, .leaf y _ => y.setWidth 32
  | .sym, .internal _ _ _ => noField
  | .left, .internal l _ _ => l.setWidth 32
  | .left, .leaf _ _ => noField
  | .right, .internal _ r _ => r.setWidth 32
  | .right, .leaf _ _ => noField
  | .freqLo, n => n.freq.extractLsb' 0 32
  | .freqHi, n => (n.freq.extractLsb' 32 8).setWidth 32

/-- The 32 code bits of a chunk, the first in the most significant position, zero beyond the code's
end (R176). -/
def codeChunk (code : List Bool) (chunk : BitVec 3) : Word :=
  (List.range 32).foldl
    (fun v j => assignBit v (31 - j) (code.getD (32 * chunk.toNat + j) false)) 0

end Sys2Proof.Machine
end

