-- ==== Sys2Proof/Machine/CodeTable.lean ====
section
/-! DEFINITION. The code table: `gen_codes`, which BUILD runs, and the two commands that show it
(R170 to R176). -/

namespace Sys2Proof.Machine

/-- `walk(i, path)` (R171): left first, bit 0; right then, bit 1. The first argument bounds the
depth; NODE_N is enough for a tree whose children have smaller indices than their parent. -/
def walk (nodes : List Node) :
    Nat → Idx → List Bool → Vector (List Bool) 256 → Vector (List Bool) 256
  | 0, _, _, code => code
  | n + 1, i, path, code =>
    match nodes[i.toNat]? with
    | none => code
    | some (.leaf y _) => tablePut code y path
    | some (.internal l r _) =>
      walk nodes n r (path ++ [true]) (walk nodes n l (path ++ [false]) code)

/-- `gen_codes()` (R171); the single leaf's code is the one bit 0 (R172). -/
def genCodes (nodes : List Node) (root : Idx) : Vector (List Bool) 256 :=
  match nodes[root.toNat]? with
  | some (.leaf y _) => tablePut (Vector.replicate 256 []) y [false]
  | _ => walk nodes nodes.length root [] (Vector.replicate 256 [])

/-- RD_CODELEN sym (R175). -/
def execRdCodeLen (sym : Byte) (s : State) : Answer :=
  command .any (fun s => .ret (BitVec.ofNat 32 (tableAt s.code sym).length) s) s

/-- RD_CODEBITS sym, chunk (R176). -/
def execRdCodeBits (sym : Byte) (chunk : BitVec 3) (s : State) : Answer :=
  command .any (fun s => .ret (codeChunk (tableAt s.code sym) chunk) s) s

end Sys2Proof.Machine
end

