-- ==== Sys2Proof/Machine/CodeWriterReader.lean ====
section
/-! DEFINITION. The variable-length code writer and reader (R210 to R220). -/

namespace Sys2Proof.Machine

/-- `put_sym(s)` (R212): the check comes before the first bit. -/
def putSym (sym : Byte) (s : State) : Res Unit :=
  if tableAt s.code sym = [] then .raised .noCode s
  else .ret () (putBits (tableAt s.code sym) s)

/-- The loop of ENC_RUN (R213) over the bytes `bs` the source still holds; see `scanLoop`. -/
def encLoop : (bs : List Byte) → State → Res Word
  | [], s => .ret 0 s
  | b :: rest, s =>
    (putSym b { s with src := rest, srcCount := s.srcCount + 1 }).bind fun _ s => encLoop rest s

/-- An upper bound on the bits `get_bit` can still deliver: those of RBUF and those of the source. -/
def bitsLeft (s : State) : Nat := s.rcnt.val + 8 * s.src.length

/-- The walk of `dec_sym()` (R216) at node `c`: left on a 0 bit, right on a 1 bit, until a leaf. The
first argument bounds the bits; `bitsLeft` is enough, and with no bit left `get_bit` answers `eos`. -/
def decWalk : Nat → Idx → State → Res Byte
  | n, c, s =>
    match s.nodes[c.toNat]? with
    | none => .stuck .absentEntry
    | some (.leaf y _) => .ret y s
    | some (.internal l r _) =>
      match getBit s with
      | (none, s) => .raised .trunc s
      | (some b, s) =>
        match n with
        | 0 => .raised .trunc s
        | n + 1 => decWalk n (if b then r else l) s

/-- `dec_sym()` (R216). On either error the bits consumed stay consumed, and REOS and the pulls with
them, as R216 says; R272's parenthesis says that a step-level command has changed nothing before its
raise point (DEDUCED, log entry 19). -/
def decSym (s : State) : Res Byte :=
  match s.nodes[s.root.toNat]? with
  | none => .stuck .absentEntry
  | some (.leaf y _) =>
    match getBit s with
    | (none, s) => .raised .trunc s
    | (some true, s) => .raised .badCode s
    | (some false, s) => .ret y s
  | some (.internal _ _ _) => decWalk (bitsLeft s) s.root s

/-- The loop of DEC_RUN (R218). The first argument is REMAIN. -/
def decLoop : Nat → State → Res Word
  | 0, s => .ret 0 s
  | n + 1, s =>
    (decSym s).bind fun y s => decLoop n { snkAppend y s with remain := s.remain - 1 }

/-- PUT_SYM sym (R211). -/
def execPutSym (sym : Byte) (s : State) : Answer :=
  command .treeOnly (fun s => (putSym sym s).bind fun _ s => .ret 0 s) s

/-- ENC_RUN (R213). -/
def execEncRun (s : State) : Answer := command .treeOnly (fun s => encLoop s.src s) s

/-- DEC_SYM (R217). -/
def execDecSym (s : State) : Answer :=
  command .treeOnly (fun s => (decSym s).bind fun y s => .ret (y.setWidth 32) s) s

/-- DEC_RUN (R218). -/
def execDecRun (s : State) : Answer := command .treeOnly (fun s => decLoop s.remain.toNat s) s

end Sys2Proof.Machine
end

