-- ==== Sys2Proof/Machine/Control.lean ====
section
/-! DEFINITION. NOP and RESET (R111, R112). -/

namespace Sys2Proof.Machine

/-- NOP (R111): RES <- 0; nothing at all when faulted. -/
def execNop (s : State) : Answer := command .any (fun s => .ret 0 s) s

/-- RESET (R112): admitted in every phase and when faulted. -/
def execReset (s : State) : Answer := .next (resetBlock s)

end Sys2Proof.Machine
end

