-- ==== Sys2Proof/Machine/FrequencyTable.lean ====
section
/-! DEFINITION. The frequency table commands (R120 to R128). -/

namespace Sys2Proof.Machine

/-- One occurrence of `sym` (R122, R123): a count never wraps. -/
def countOne (sym : Byte) (s : State) : Res Unit :=
  if tableAt s.freq sym = 0xFFFFFFFF#32 then .raised .countOvf s
  else .ret () { s with freq := tablePut s.freq sym (tableAt s.freq sym + 1) }

/-- The loop of FT_SCAN (R126) over the bytes `bs` the source still holds. A pull takes the first of
them; with none left it answers `eos` and changes nothing (R68). -/
def scanLoop : (bs : List Byte) → State → Res Word
  | [], s => .ret 0 s
  | b :: rest, s =>
    (countOne b { s with src := rest, srcCount := s.srcCount + 1 }).bind fun _ s => scanLoop rest s

/-- What FT_CLEAR does to the tables and the phase (R121). -/
def clearTables (s : State) : State :=
  { s with
    freq := Vector.replicate 256 0
    code := Vector.replicate 256 []
    nodes := []
    root := 0
    heap := []
    phase := .freq }

/-- FT_CLEAR (R121). -/
def execFtClear (s : State) : Answer := command .any (fun s => .ret 0 (clearTables s)) s

/-- FT_COUNT sym (R122). -/
def execFtCount (sym : Byte) (s : State) : Answer :=
  command .freqOnly (fun s => (countOne sym s).bind fun _ s => .ret 0 s) s

/-- FT_LOAD sym (R124). -/
def execFtLoad (sym : Byte) (s : State) : Answer :=
  command .freqOnly (fun s => .ret 0 { s with freq := tablePut s.freq sym s.arg }) s

/-- FT_READ sym (R125). -/
def execFtRead (sym : Byte) (s : State) : Answer :=
  command .any (fun s => .ret (tableAt s.freq sym) s) s

/-- FT_SCAN (R126). -/
def execFtScan (s : State) : Answer := command .freqOnly (fun s => scanLoop s.src s) s

end Sys2Proof.Machine
end

