-- ==== Sys2Proof/Machine/Flags.lean ====
section
/-! DEFINITION. The registers that are functions of the state: NUNIQ, TOTAL, DEGEN, STATUS, NODE_N,
HEAP_N and BITSTATE (R27, R29, R31, R32, R34, R35, R39). -/

namespace Sys2Proof.Machine

/-- The value of ERR (R271). -/
def Err.code : Err → BitVec 4
  | .ok => 0
  | .empty => 1
  | .trunc => 4
  | .illegal => 5
  | .phase => 6
  | .noCode => 7
  | .countOvf => 8
  | .badCode => 9
  | .range => 10

/-- The value of PHASE (R25). -/
def Phase.bit : Phase → BitVec 1
  | .freq => 0
  | .tree => 1

/-- s = 0, 1, …, 255, the order in which the table is always taken (R127). -/
def allSyms : List Byte := (List.range 256).map (BitVec.ofNat 8)

/-- The unique symbols of a table in ascending order (R16, R127). -/
def uniqueSyms (freq : Vector Word 256) : List Byte :=
  allSyms.filter fun y => tableAt freq y ≠ 0

/-- NUNIQ (R31). -/
def State.nuniq (s : State) : Nat := (uniqueSyms s.freq).length

/-- TOTAL, the sum of all 256 counts, in 40 bits (R32). -/
def State.total (s : State) : Freq :=
  (allSyms.map fun y => (tableAt s.freq y).setWidth 40).sum

/-- NODE[ROOT], when ROOT < NODE_N. -/
def State.rootNode? (s : State) : Option Node := s.nodes[s.root.toNat]?

/-- DEGEN (R29): PHASE = TREE and NODE[ROOT] is a leaf. -/
def State.degen (s : State) : Bool :=
  s.phase = .tree && s.rootNode?.any Node.isLeaf

/-- The register NUNIQ, bits 8:0 (R26, R31). -/
def nuniqReg (s : State) : Word := (BitVec.ofNat 9 s.nuniq).setWidth 32

/-- The register NODE_N, bits 8:0 (R26, R34). -/
def nodeNReg (s : State) : Word := (BitVec.ofNat 9 s.nodes.length).setWidth 32

/-- The register HEAP_N, bits 8:0 (R26, R35). -/
def heapNReg (s : State) : Word := (BitVec.ofNat 9 s.heap.length).setWidth 32

/-- The register TOTAL_LO (R32). -/
def totalLoReg (s : State) : Word := s.total.extractLsb' 0 32

/-- The register TOTAL_HI (R32). -/
def totalHiReg (s : State) : Word := (s.total.extractLsb' 32 8).setWidth 32

/-- The register STATUS: ERR in bits 3:0, PHASE in bit 4, DEGEN in bit 5, REOS in bit 6 (R27). -/
def statusReg (s : State) : Word :=
  (BitVec.ofBool s.reos ++ BitVec.ofBool s.degen ++ s.phase.bit ++ s.err.code).setWidth 32

/-- The register BITSTATE: WACC in 7:0, WCNT in 10:8, RBUF in 23:16, RCNT in 27:24 (R39). -/
def bitstateReg (s : State) : Word :=
  (BitVec.ofNat 4 s.rcnt ++ s.rbuf ++ 0#5 ++ s.wcnt ++ s.wacc).setWidth 32

end Sys2Proof.Machine
end

