-- ==== Sys2Proof/Machine/Heap.lean ====
section
/-! DEFINITION. The priority queue (R145 to R149): an array binary min-heap with strict comparisons,
over any key. The list `h` is HEAP[0..HEAP_N−1]. -/

namespace Sys2Proof.Machine

/-- `p < HEAP_N`, `q < HEAP_N` and `key(HEAP[p]) < key(HEAP[q])` (R145, R148). -/
def slotLt (key : Idx → Freq) (h : List Idx) (p q : Nat) : Bool :=
  match h[p]?, h[q]? with
  | some a, some b => decide (key a < key b)
  | _, _ => false

/-- Swap HEAP[p] and HEAP[q]. -/
def swapSlots (h : List Idx) (p q : Nat) : List Idx :=
  match h[p]?, h[q]? with
  | some a, some b => (h.set p b).set q a
  | _, _ => h

/-- The sift-up loop of R146 from slot `p`. The first argument bounds the passes; `p` itself is
enough, since each pass at least lowers it by one. -/
def siftUp (key : Idx → Freq) : Nat → Nat → List Idx → List Idx
  | 0, _, h => h
  | n + 1, p, h =>
    if p = 0 then h
    else if slotLt key h p ((p - 1) / 2) then siftUp key n ((p - 1) / 2) (swapSlots h p ((p - 1) / 2))
    else h

/-- `heap_insert(i)` (R146). -/
def heapInsert (key : Idx → Freq) (h : List Idx) (i : Idx) : List Idx :=
  siftUp key h.length h.length (h ++ [i])

/-- The slot that a pass of `sift_down(p)` chooses (R148): the left child when it is smaller than
slot p, then the right child when it is smaller than that choice. -/
def siftChoice (key : Idx → Freq) (h : List Idx) (p : Nat) : Nat :=
  let s := if slotLt key h (2 * p + 1) p then 2 * p + 1 else p
  if slotLt key h (2 * p + 2) s then 2 * p + 2 else s

/-- `sift_down(p)` (R148). The first argument bounds the passes; HEAP_N is enough, since each pass at
least doubles `p`. -/
def siftDown (key : Idx → Freq) : Nat → Nat → List Idx → List Idx
  | 0, _, h => h
  | n + 1, p, h =>
    if siftChoice key h p = p then h
    else siftDown key n (siftChoice key h p) (swapSlots h p (siftChoice key h p))

/-- `heap_extract_min()` (R147): the node of slot 0 and the heap it leaves; none when HEAP_N = 0. -/
def heapExtractMin (key : Idx → Freq) : List Idx → Option (Idx × List Idx)
  | [] => none
  | m :: rest =>
    match rest.getLast? with
    | none => some (m, [])
    | some z => some (m, siftDown key rest.length 0 (z :: rest.dropLast))

end Sys2Proof.Machine
end

