-- ==== Sys2Proof/Machine/TreeBuilder.lean ====
section
/-! DEFINITION. The tree builder: seeding, the merge loop, BUILD, and the two commands that show the
arena and the heap (R140 to R156). -/

namespace Sys2Proof.Machine

/-- What BUILD works on: the arena and the queue. -/
structure Builder where
  nodes : List Node
  heap : List Idx
  deriving DecidableEq, Repr

/-- `key(i)` = NODE[i].freq (R13, R145). -/
def keyOf (nodes : List Node) (i : Idx) : Freq :=
  match nodes[i.toNat]? with
  | some n => n.freq
  | none => Config.absentKey i

/-- Allocate a node at index NODE_N and insert it in the queue (R141). -/
def Builder.add (b : Builder) (n : Node) : Builder where
  nodes := b.nodes ++ [n]
  heap := heapInsert (keyOf (b.nodes ++ [n])) b.heap (BitVec.ofNat 9 b.nodes.length)

/-- One pass of the seeding loop (R141, R142). -/
def seedOne (freq : Vector Word 256) (b : Builder) (y : Byte) : Builder :=
  if tableAt freq y ≠ 0 then b.add (.leaf y ((tableAt freq y).setWidth 40)) else b

/-- The seeding loop, s = 0, 1, …, 255 (R142). -/
def seed (freq : Vector Word 256) : Builder := allSyms.foldl (seedOne freq) ⟨[], []⟩

/-- One pass of the merge loop (R144): the node extracted first is `left`. -/
def mergeOne (b : Builder) : Builder :=
  match heapExtractMin (keyOf b.nodes) b.heap with
  | none => b
  | some (l, h₁) =>
    match heapExtractMin (keyOf b.nodes) h₁ with
    | none => b
    | some (r, h₂) =>
      Builder.add ⟨b.nodes, h₂⟩ (.internal l r (keyOf b.nodes l + keyOf b.nodes r))

/-- The merge loop (R144), `while HEAP_N > 1`. The first argument bounds the passes; HEAP_N is
enough, since each pass lowers HEAP_N by one (R141). -/
def mergeLoop : Nat → Builder → Builder
  | 0, b => b
  | n + 1, b => if 1 < b.heap.length then mergeLoop n (mergeOne b) else b

/-- The arena and the queue that BUILD leaves, a function of FREQ alone (R151). -/
def buildTree (freq : Vector Word 256) : Builder := mergeLoop (seed freq).heap.length (seed freq)

/-- The pseudocode of BUILD (R141). -/
def buildBody (s : State) : Res Word :=
  if s.nuniq = 0 then .raised .empty s
  else if s.nodes ≠ [] ∨ s.heap ≠ [] then .stuck .arenaNotEmpty
  else
    let b := buildTree s.freq
    match b.heap.head? with
    | none => .stuck .absentEntry
    | some root =>
      .ret (root.setWidth 32)
        { s with
          nodes := b.nodes
          heap := b.heap
          root := root
          code := genCodes b.nodes root
          phase := .tree }

/-- BUILD (R141). -/
def execBuild (s : State) : Answer := command .freqOnly buildBody s

/-- The pseudocode of RD_NODE (R152) once `sel` names a field. -/
def rdNodeBody (f : NodeField) (idx : Idx) (s : State) : Res Word :=
  match s.nodes[idx.toNat]? with
  | none => .raised .range s
  | some n => .ret (readField f n) s

/-- RD_NODE sel, idx (R152). A reserved `sel` makes the word illegal (R91 step 4; log entry 13). -/
def execRdNode (sel : BitVec 4) (idx : Idx) (s : State) : Answer :=
  match nodeField? sel with
  | none => illegalWord s
  | some f => command .any (rdNodeBody f idx) s

/-- RD_HEAP idx (R153). -/
def execRdHeap (idx : Idx) (s : State) : Answer :=
  command .any
    (fun s =>
      match s.heap[idx.toNat]? with
      | none => .raised .range s
      | some i => .ret (i.setWidth 32) s) s

end Sys2Proof.Machine
end

