-- ==== Sys2Proof/Machine/Dispatch.lean ====
section
/-! DEFINITION. The meaning of a command written to CMD: one arm per constructor (R94). -/

namespace Sys2Proof.Machine

def exec (i : Instr) (s : State) : Host.Outcome State Fault Refusal :=
  match i with
  | .nop => Sys2Proof.Machine.execNop s
  | .reset => Sys2Proof.Machine.execReset s
  | .ftClear => Sys2Proof.Machine.execFtClear s
  | .ftCount sym => Sys2Proof.Machine.execFtCount sym s
  | .ftLoad sym => Sys2Proof.Machine.execFtLoad sym s
  | .ftRead sym => Sys2Proof.Machine.execFtRead sym s
  | .ftScan => Sys2Proof.Machine.execFtScan s
  | .build => Sys2Proof.Machine.execBuild s
  | .rdNode sel idx => Sys2Proof.Machine.execRdNode sel idx s
  | .rdCodeLen sym => Sys2Proof.Machine.execRdCodeLen sym s
  | .rdCodeBits sym chunk => Sys2Proof.Machine.execRdCodeBits sym chunk s
  | .rdHeap idx => Sys2Proof.Machine.execRdHeap idx s
  | .wrInit => Sys2Proof.Machine.execWrInit s
  | .putBit bit => Sys2Proof.Machine.execPutBit bit s
  | .putSym sym => Sys2Proof.Machine.execPutSym sym s
  | .flush => Sys2Proof.Machine.execFlush s
  | .encRun => Sys2Proof.Machine.execEncRun s
  | .rdInit => Sys2Proof.Machine.execRdInit s
  | .getBit => Sys2Proof.Machine.execGetBit s
  | .decSym => Sys2Proof.Machine.execDecSym s
  | .decRun => Sys2Proof.Machine.execDecRun s

end Sys2Proof.Machine
end

