-- ==== Sys2Proof/Machine/Bus.lean ====
section
/-! DEFINITION. The host's access to the block: the register map (R26), bus reads and writes
(R62 to R65), the CMD write (R23, R275), and the moves of a host (R70, R300). -/

namespace Sys2Proof.Machine

/-- The fourteen registers (R26). -/
inductive Reg where
  | cmd | arg | res | status | nuniq | totalLo | totalHi | root | nodeN | heapN | remain
  | snkCount | srcCount | bitstate
  deriving DecidableEq, Repr

/-- A register's byte offset (R26). -/
def Reg.offset : Reg → Nat
  | .cmd => 0x00
  | .arg => 0x04
  | .res => 0x08
  | .status => 0x0C
  | .nuniq => 0x10
  | .totalLo => 0x14
  | .totalHi => 0x18
  | .root => 0x1C
  | .nodeN => 0x20
  | .heapN => 0x24
  | .remain => 0x28
  | .snkCount => 0x2C
  | .srcCount => 0x30
  | .bitstate => 0x34

/-- The register map, in offset order. -/
def allRegs : List Reg :=
  [.cmd, .arg, .res, .status, .nuniq, .totalLo, .totalHi, .root, .nodeN, .heapN, .remain,
    .snkCount, .srcCount, .bitstate]

/-- The register at an offset; none where the space is unmapped (R64). -/
def regAt? (off : Nat) : Option Reg := allRegs.find? fun r => r.offset = off

/-- What a bus read of a register returns (R26); CMD is write-only and reads 0 (R23, R64). -/
def readReg (s : State) : Reg → Word
  | .cmd => 0
  | .arg => s.arg
  | .res => s.res
  | .status => statusReg s
  | .nuniq => nuniqReg s
  | .totalLo => totalLoReg s
  | .totalHi => totalHiReg s
  | .root => s.root.setWidth 32
  | .nodeN => nodeNReg s
  | .heapN => heapNReg s
  | .remain => s.remain
  | .snkCount => s.snkCount
  | .srcCount => s.srcCount
  | .bitstate => bitstateReg s

/-- A write of word `w` to CMD (R23, R275): the command runs to completion. -/
def writeCmd (w : Word) (s : State) : Answer :=
  match decode w with
  | .ok i => exec i s
  | .error _ => illegalWord s

/-- A 32-bit write at an offset (R26, R64): CMD, ARG and REMAIN take it; a write to any other
register or to an unmapped offset is ignored. ARG and REMAIN take it also when faulted (R273). -/
def writeAt (off : Nat) (v : Word) (s : State) : Answer :=
  match regAt? off with
  | some .cmd => writeCmd v s
  | some .arg => .next { s with arg := v }
  | some .remain => .next { s with remain := v }
  | _ => .next s

/-- A 32-bit read at an offset: 0 where the space is unmapped (R64). -/
def readAt (off : Nat) (s : State) : Word :=
  match regAt? off with
  | some r => readReg s r
  | none => 0

/-- The only accesses the block accepts: 32 bits at a multiple of 4 (R63). -/
def accepted (size off : Nat) : Bool := size = 4 && off % 4 = 0

/-- One move of the host, an indivisible event (R65). The hardware reset leaves SRC and SNK as they are
(R47; DEDUCED, log entry 8). -/
def hostMove (m : HostMove) (s : State) : Answer :=
  match m with
  | .read size off =>
    if accepted size off then .next { s with resp := .data (readAt off s) }
    else .next { s with resp := .busError }
  | .write size off v =>
    if accepted size off then writeAt off v { s with resp := .written }
    else .next { s with resp := .busError }
  | .attach bytes => .next { s with src := bytes }
  | .hardReset => .next (resetBlock s)

end Sys2Proof.Machine
end

