-- ==== Sys2Proof/Machine/Container.lean ====
section
/-! DEFINITION. The container (R230 to R232, R241, R242): its layout, and the host's reading of it.
Every multi-byte field is little-endian (R67). -/

namespace Sys2Proof.Machine

/-- A 4-byte field, least significant byte first (R67). -/
def le32 (v : Word) : List Byte :=
  [v.extractLsb' 0 8, v.extractLsb' 8 8, v.extractLsb' 16 8, v.extractLsb' 24 8]

/-- A 2-byte field, least significant byte first (R67). -/
def le16 (v : BitVec 16) : List Byte := [v.extractLsb' 0 8, v.extractLsb' 8 8]

/-- The signature, when there is one (R232). -/
def magicBytes (p : Config.Params) : List Byte := if p.magicEn then p.magicValue.toList else []

/-- One entry of the frequency table: the byte value, then its count (R231). -/
def pairBytes (q : Byte × Word) : List Byte := q.1 :: le32 q.2

/-- The header (R231, R236): signature, total symbol count, unique entry count, frequency table. -/
def headerBytes (p : Config.Params) (total : Word) (n : BitVec 16) (pairs : List (Byte × Word)) :
    List Byte :=
  magicBytes p ++ le32 total ++ le16 n ++ pairs.flatMap pairBytes

/-- The header's length for `n` unique entries (R231). -/
def headerLength (p : Config.Params) (n : Nat) : Nat := (if p.magicEn then 4 else 0) + 6 + 5 * n

/-- Why the host reports FormatError (R241, R242). -/
inductive FormatCause where
  /-- The container ends inside a header field. -/
  | truncated
  /-- The signature is not MAGIC_VALUE. -/
  | magicMismatch
  /-- The unique entry count is 0. -/
  | noEntries
  deriving DecidableEq, Repr

/-- A parsed container. -/
structure Container where
  total : Word
  pairs : List (Byte × Word)
  payload : List Byte
  deriving DecidableEq, Repr

/-- Read a 4-byte field. -/
def takeLe32 : List Byte → Option (Word × List Byte)
  | a :: b :: c :: d :: rest => some (d ++ c ++ b ++ a, rest)
  | _ => none

/-- Read a 2-byte field. -/
def takeLe16 : List Byte → Option (BitVec 16 × List Byte)
  | a :: b :: rest => some (b ++ a, rest)
  | _ => none

/-- Read `n` entries of the frequency table. -/
def takePairs : Nat → List Byte → Option (List (Byte × Word) × List Byte)
  | 0, bs => some ([], bs)
  | _ + 1, [] => none
  | n + 1, y :: bs =>
    match takeLe32 bs with
    | none => none
    | some (c, bs) =>
      match takePairs n bs with
      | none => none
      | some (ps, bs) => some ((y, c) :: ps, bs)

/-- The check of the signature (R241). -/
def takeMagic (p : Config.Params) (c : List Byte) : Except FormatCause (List Byte) :=
  if p.magicEn then
    if c.length < 4 then .error .truncated
    else if c.take 4 = p.magicValue.toList then .ok (c.drop 4)
    else .error .magicMismatch
  else .ok c

/-- The checks of the header (R242); whatever follows it is the payload. -/
def takeHeader (c : List Byte) : Except FormatCause Container :=
  match takeLe32 c with
  | none => .error .truncated
  | some (total, c) =>
    match takeLe16 c with
    | none => .error .truncated
    | some (n, c) =>
      match takePairs n.toNat c with
      | none => .error .truncated
      | some (pairs, payload) =>
        if n = 0 then .error .noEntries else .ok ⟨total, pairs, payload⟩

/-- The host's reading of a container (R240 to R242). -/
def parseContainer (p : Config.Params) (c : List Byte) : Except FormatCause Container :=
  match takeMagic p c with
  | .error e => .error e
  | .ok c => takeHeader c

end Sys2Proof.Machine
end

