-- ==== Sys2Proof/Machine/Script.lean ====
section
/-! DEFINITION. The host's scripts (R98, R99): statements, what each expands to, and the reading of a
line of script text. -/

namespace Sys2Proof.Machine

/-- The host issues a command: one write of its word to CMD (R98). -/
def issue (i : Instr) : HostMove := .write 4 Reg.cmd.offset (encode i)

/-- The host's moves one after the other. -/
def runMoves : List HostMove → State → Answer
  | [], s => .next s
  | m :: ms, s =>
    match hostMove m s with
    | .next s => runMoves ms s
    | .fault f => .fault f
    | .refused r => .refused r

/-- A statement of a script: a command (R98) or a pseudo-statement (R99). -/
inductive Stmt where
  /-- A command. -/
  | cmd (i : Instr)
  /-- `SETARG v`. -/
  | setArg (v : Word)
  /-- `SETREMAIN v`. -/
  | setRemain (v : Word)
  /-- `READ reg`, or `READ reg = v`, which also states the value. -/
  | read (r : Reg) (stated : Option Word)
  /-- `ATTACH b0 b1 …`. -/
  | attach (bytes : List Byte)
  /-- `LOADF sym, count`. -/
  | loadF (sym : Byte) (count : Word)
  /-- `PUT_BITS "b0b1…"`. -/
  | putBits (bits : List Bool)
  /-- `SINK = b0 b1 …`, which states the bytes the sink has received since the script began. -/
  | sink (bytes : List Byte)
  deriving DecidableEq, Repr

/-- What a statement expands to (R98, R99). -/
def Stmt.moves : Stmt → List HostMove
  | .cmd i => [issue i]
  | .setArg v => [.write 4 Reg.arg.offset v]
  | .setRemain v => [.write 4 Reg.remain.offset v]
  | .read r _ => [.read 4 r.offset]
  | .attach bytes => [.attach bytes]
  | .loadF sym count => [.write 4 Reg.arg.offset count, issue (.ftLoad sym)]
  | .putBits bits => bits.map fun b => issue (.putBit b)
  | .sink _ => []

/-- Does what a statement states hold in the state after it, when the sink had received `n` bytes
before the script began (R99)? -/
def Stmt.holds (n : Nat) (s : State) : Stmt → Bool
  | .read _ (some v) => s.resp = .data v
  | .sink bytes => s.snk.drop n = bytes
  | _ => true

/-- The moves of a whole script. -/
def scriptMoves (p : List Stmt) : List HostMove := p.flatMap Stmt.moves

/-! ### Script text (R98, R99)

How blanks and letters are read beyond R98 is a DESIGN CHOICE (log entry 17). -/

/-- Cut a line into its words: blanks and commas separate, `;` starts a comment, `=` and a character
in single quotes stand alone. The second argument is the word being read. -/
def words : List Char → List Char → List (List Char)
  | [], acc => if acc = [] then [] else [acc]
  | '\'' :: c :: '\'' :: rest, acc =>
    (if acc = [] then [] else [acc]) ++ ['\'', c, '\''] :: words rest []
  | c :: rest, acc =>
    let done := if acc = [] then [] else [acc]
    if c = ';' then done
    else if c = ' ' ∨ c = ',' then done ++ words rest []
    else if c = '=' then done ++ ['='] :: words rest []
    else words rest (acc ++ [c])

/-- A digit in base 16. -/
def digit? (c : Char) : Option Nat :=
  let n := c.toNat
  if 48 ≤ n ∧ n ≤ 57 then some (n - 48)
  else if 65 ≤ n ∧ n ≤ 70 then some (n - 55)
  else if 97 ≤ n ∧ n ≤ 102 then some (n - 87)
  else none

/-- A non-empty string of digits in a base. -/
def digits? (base : Nat) (cs : List Char) : Option Nat :=
  if cs = [] then none
  else cs.foldl (fun a c => a.bind fun v => (digit? c).bind fun d =>
    if d < base then some (v * base + d) else none) (some 0)

/-- A number, decimal or `0x` hexadecimal, or a character in single quotes standing for its ASCII
code (R98, G1). R98 gives the quoted form for a symbol operand; that it is read wherever a number may
stand is a DESIGN CHOICE (log entry 17). -/
def number? : List Char → Option Nat
  | ['\'', c, '\''] => some c.toNat
  | '0' :: 'x' :: cs => digits? 16 cs
  | cs => digits? 10 cs

/-- A number that fits `w` bits. -/
def bits? (w : Nat) (cs : List Char) : Option (BitVec w) :=
  (number? cs).bind fun n => if n < 2 ^ w then some (BitVec.ofNat w n) else none

/-- A byte of a sequence, a hex pair (R12). -/
def bytePair? (cs : List Char) : Option Byte :=
  if cs.length = 2 then (digits? 16 cs).map (BitVec.ofNat 8) else none

/-- The node field names that may stand for `sel` (R98). -/
def sel? (cs : List Char) : Option (BitVec 4) :=
  if cs = "KIND".toList then some 0
  else if cs = "SYM".toList then some 1
  else if cs = "LEFT".toList then some 2
  else if cs = "RIGHT".toList then some 3
  else if cs = "FREQ_LO".toList then some 4
  else if cs = "FREQ_HI".toList then some 5
  else bits? 4 cs

/-- A register by its name (R26). -/
def reg? (cs : List Char) : Option Reg :=
  let names : List (String × Reg) :=
    [("CMD", .cmd), ("ARG", .arg), ("RES", .res), ("STATUS", .status), ("NUNIQ", .nuniq),
      ("TOTAL_LO", .totalLo), ("TOTAL_HI", .totalHi), ("ROOT", .root), ("NODE_N", .nodeN),
      ("HEAP_N", .heapN), ("REMAIN", .remain), ("SNK_COUNT", .snkCount), ("SRC_COUNT", .srcCount),
      ("BITSTATE", .bitstate)]
  (names.find? fun p => p.1.toList = cs).map Prod.snd

/-- The bits of `PUT_BITS "b0b1…"`, quotes included. -/
def bitString? : List Char → Option (List Bool)
  | '"' :: cs =>
    if cs.getLast? = some '"' then
      cs.dropLast.mapM fun c => if c = '0' then some false else if c = '1' then some true else none
    else none
  | _ => none

/-- The commands without operands, by mnemonic (R98, first row). -/
def plainCommands : List (String × Instr) :=
  [("NOP", .nop), ("RESET", .reset), ("FT_CLEAR", .ftClear), ("FT_SCAN", .ftScan),
    ("BUILD", .build), ("WR_INIT", .wrInit), ("FLUSH", .flush), ("ENC_RUN", .encRun),
    ("RD_INIT", .rdInit), ("GET_BIT", .getBit), ("DEC_SYM", .decSym), ("DEC_RUN", .decRun)]

/-- The commands with one symbol operand, by mnemonic (R98, second row). -/
def symCommands : List (String × (Byte → Instr)) :=
  [("FT_COUNT", .ftCount), ("FT_LOAD", .ftLoad), ("FT_READ", .ftRead), ("RD_CODELEN", .rdCodeLen),
    ("PUT_SYM", .putSym)]

/-- The statement of a line's words (R98, R99); none when the line is no statement. -/
def stmt? : List (List Char) → Option Stmt
  | [] => none
  | m :: ops =>
    match plainCommands.find? (fun p => p.1.toList = m), symCommands.find? (fun p => p.1.toList = m), ops with
    | some p, _, [] => some (.cmd p.2)
    | _, some p, [y] => (bits? 8 y).map fun y => .cmd (p.2 y)
    | _, _, ops =>
      if m = "ATTACH".toList then (ops.mapM bytePair?).map .attach
      else if m = "SINK".toList ∧ ops.head? = some ['='] then (ops.tail.mapM bytePair?).map .sink
      else match ops with
      | [a] =>
        if m = "PUT_BIT".toList then (bits? 1 a).map fun b => .cmd (.putBit (b.getLsbD 0))
        else if m = "RD_HEAP".toList then (bits? 9 a).map fun i => .cmd (.rdHeap i)
        else if m = "SETARG".toList then (bits? 32 a).map .setArg
        else if m = "SETREMAIN".toList then (bits? 32 a).map .setRemain
        else if m = "READ".toList then (reg? a).map fun r => .read r none
        else if m = "PUT_BITS".toList then (bitString? a).map .putBits
        else none
      | [a, b] =>
        if m = "RD_NODE".toList then (sel? a).bind fun f => (bits? 9 b).map fun i => .cmd (.rdNode f i)
        else if m = "RD_CODEBITS".toList then
          (bits? 8 a).bind fun y => (bits? 3 b).map fun c => .cmd (.rdCodeBits y c)
        else if m = "LOADF".toList then (bits? 8 a).bind fun y => (bits? 32 b).map fun c => .loadF y c
        else none
      | [a, e, v] =>
        if m = "READ".toList ∧ e = ['='] then
          (reg? a).bind fun r => (bits? 32 v).map fun v => .read r (some v)
        else none
      | _ => none

/-- The statement of one line of script text. -/
def stmtOfLine? (line : String) : Option Stmt := stmt? (words line.toList [])

end Sys2Proof.Machine
end

