-- ==== Sys2Proof/Machine/HostCodec.lean ====
section
/-! DEFINITION. The host's compress and decompress sequences over the block (R235 to R245), as
programs that use nothing but the moves of a host. -/

namespace Sys2Proof.Machine

/-- What the host reports to its caller (R244). -/
inductive HostError where
  /-- EmptyInputError (R238). -/
  | emptyInput
  /-- IOError, which only the host can meet (R244, R279). -/
  | io
  /-- FormatError (R241, R242). -/
  | format (cause : FormatCause)
  /-- TruncatedPayloadError with the count mismatch (R219, R240). -/
  | truncated (missing : Word)
  /-- An input that TOTAL_HI ≠ 0 shows to have 2^32 bytes or more, which no container describes
  (R239). -/
  | tooLong
  /-- Any other fault of the block: the host has broken the contract (R244). -/
  | internal (code : BitVec 4)
  deriving DecidableEq, Repr

/-- How a host program ends: with a value, with a report, or with a machine that gave no next
state. -/
inductive HostResult (α : Type) where
  | done (v : α) (s : State)
  | failed (e : HostError) (s : State)
  | stopped
  deriving Repr

/-- Go on with the value of a host program. -/
def HostResult.bind {α β : Type} (r : HostResult α) (k : α → State → HostResult β) : HostResult β :=
  match r with
  | .done v s => k v s
  | .failed e s => .failed e s
  | .stopped => .stopped

/-- Make moves. -/
def hostDo (ms : List HostMove) (s : State) : HostResult Unit :=
  match runMoves ms s with
  | .next s => .done () s
  | .fault _ => .stopped
  | .refused _ => .stopped

/-- Read a register. -/
def hostRead (r : Reg) (s : State) : HostResult Word :=
  (hostDo [.read 4 r.offset] s).bind fun _ s =>
    match s.resp with
    | .data v => .done v s
    | _ => .stopped

/-- Issue RESET and report (R238, R244). -/
def giveUp {α : Type} (e : HostError) (s : State) : HostResult α :=
  (hostDo [issue .reset] s).bind fun _ s => .failed e s

/-- What a host does that meets an I/O failure (R244). The ports of the model never fail, so no sequence
below calls it (log entry 15). -/
def reportIo {α : Type} (s : State) : HostResult α := giveUp .io s

/-- The error code in a value of STATUS (R27). -/
def errField (status : Word) : BitVec 4 := status.extractLsb' 0 4

/-- The report for an error code, TruncatedPayloadError apart (R238, R244): codes 5 to 10 are an
internal error. EmptyInputError is reported for ERR_EMPTY in decompress too (DEDUCED, log entry 14). -/
def reportOf (code : BitVec 4) : HostError :=
  if code = Err.empty.code then .emptyInput
  else .internal code

/-- Go on when STATUS shows no error (R311). Where the sequences read STATUS is a DESIGN CHOICE (log
entry 16). -/
def unlessFaulted {α : Type} (k : State → HostResult α) (s : State) : HostResult α :=
  (hostRead .status s).bind fun st s => if errField st = 0 then k s else giveUp (reportOf (errField st)) s

/-- For each symbol in order, FT_READ it and keep the pair when RES ≠ 0 (R236). -/
def readPairs : List Byte → State → HostResult (List (Byte × Word))
  | [], s => .done [] s
  | y :: ys, s =>
    (hostDo [issue (.ftRead y)] s).bind fun _ s =>
      (hostRead .res s).bind fun c s =>
        (readPairs ys s).bind fun ps s => .done (if c ≠ 0 then (y, c) :: ps else ps) s

/-- The compress sequence (R235) with the moves that count the input and those that encode it. -/
def compressBy (p : Config.Params) (count emit : List HostMove) (s₀ : State) :
    HostResult (List Byte) :=
  (hostDo (issue .reset :: count ++ [issue .build]) s₀).bind fun _ s =>
    unlessFaulted (fun s =>
      (hostRead .totalHi s).bind fun hi s =>
        if hi ≠ 0 then giveUp .tooLong s
        else
          (hostRead .totalLo s).bind fun total s =>
            (hostRead .nuniq s).bind fun n s =>
              (readPairs allSyms s).bind fun pairs s =>
                (hostDo (emit ++ [issue .flush]) s).bind fun _ s =>
                  unlessFaulted (fun s =>
                    .done (headerBytes p total (n.setWidth 16) pairs ++ s.snk.drop s₀.snk.length) s) s) s

/-- compress (R235): one pass to count, one pass to encode. -/
def compress (p : Config.Params) (input : List Byte) (s : State) : HostResult (List Byte) :=
  compressBy p [.attach input, issue .ftScan] [.attach input, issue .encRun] s

/-- The step-level alternative of R235: FT_COUNT and PUT_SYM once per byte. -/
def compressSteps (p : Config.Params) (input : List Byte) (s : State) : HostResult (List Byte) :=
  compressBy p (input.map fun y => issue (.ftCount y)) (input.map fun y => issue (.putSym y)) s

/-- The moves of decompress for a parsed container (R240). -/
def decompressMoves (c : Container) : List HostMove :=
  issue .reset :: c.pairs.flatMap (fun q => (Stmt.loadF q.1 q.2).moves) ++
    [issue .build, .write 4 Reg.remain.offset c.total, .attach c.payload, issue .rdInit,
      issue .decRun]

/-- decompress (R240). A FormatError is reported before any command is issued (R242). -/
def decompress (p : Config.Params) (input : List Byte) (s₀ : State) : HostResult (List Byte) :=
  match parseContainer p input with
  | .error cause => .failed (.format cause) s₀
  | .ok c =>
    (hostDo (decompressMoves c) s₀).bind fun _ s =>
      (hostRead .status s).bind fun st s =>
        if errField st = 0 then .done (s.snk.drop s₀.snk.length) s
        else if errField st = Err.trunc.code then
          (hostRead .remain s).bind fun m s => .failed (.truncated m) s
        else giveUp (reportOf (errField st)) s

end Sys2Proof.Machine
end

