-- ==== Sys2Proof/Safety.lean ====
section
/-! DEFINITION. The terms claims use: the invariants of every reachable state (R44, R48), what makes a
run safe, and the vocabulary of the laws about codes and bit streams (R171, R190, R194). -/

namespace Sys2Proof.Machine

/-! ### Runs of commands -/

/-- Commands issued one after the other. -/
def execAll : List Instr → State → Answer
  | [], s => .next s
  | i :: is, s =>
    match exec i s with
    | .next s => execAll is s
    | .fault f => .fault f
    | .refused r => .refused r

/-- The block runs a command of this admission: not faulted, and in a phase that admits it (R275). -/
def State.Ready (adm : Admission) (s : State) : Prop := s.err = .ok ∧ adm.admits s.phase = true

/-! ### Bits of the streams -/

/-- The bits of a byte, most significant first (R66). -/
def byteBits (v : Byte) : List Bool := (List.range 8).map fun k => v.getLsbD (7 - k)

/-- The bits of RBUF not yet delivered, the next one first (R45). -/
def bufferedBits (s : State) : List Bool :=
  (List.range s.rcnt.val).map fun k => s.rbuf.getLsbD (s.rcnt.val - 1 - k)

/-- The bits the reader delivers before it answers `eos` for ever (R192, R194): those buffered, then,
unless REOS is latched, those of the source's bytes. -/
def readerBits (s : State) : List Bool :=
  bufferedBits s ++ if s.reos then [] else s.src.flatMap byteBits

/-- The state after `n` calls of `get_bit`. -/
def skipBits : Nat → State → State
  | 0, s => s
  | n + 1, s => skipBits n (getBit s).2

/-! ### The tree -/

/-- The children of a node, left first. -/
def Node.children : Node → List Idx
  | .leaf _ _ => []
  | .internal l r _ => [l, r]

/-- Where a path of branch bits leads from node `i`: left on 0, right on 1 (R43, R171). -/
def followPath (nodes : List Node) : Idx → List Bool → Option Idx
  | i, [] => some i
  | i, b :: bs =>
    match nodes[i.toNat]? with
    | some (.internal l r _) => followPath nodes (if b then r else l) bs
    | _ => none

/-- The leaves BUILD seeds, one for each unique symbol in ascending order (R142). -/
def seedLeaves (freq : Vector Word 256) : List Node :=
  (uniqueSyms freq).map fun y => .leaf y ((tableAt freq y).setWidth 40)

/-! ### Invariants -/

/-- The writer invariant (R44): the low 8 − WCNT bits of WACC are 0. -/
def State.WriterInv (s : State) : Prop :=
  ∀ k, k + s.wcnt.toNat < 8 → s.wacc.getLsbD k = false

/-- Phase FREQ: no tree and no codes (R48 (b)). -/
def State.FreqInv (s : State) : Prop :=
  s.phase = .freq → s.nodes = [] ∧ s.heap = [] ∧ s.root = 0 ∧ ∀ y, tableAt s.code y = []

/-- Phase TREE: the tree's shape (R48 (c), R41, R154) and its codes (R170 to R172). -/
structure State.IsTree (s : State) : Prop where
  /-- NUNIQ ≥ 1. -/
  nonempty : 1 ≤ s.nuniq
  /-- NODE_N = 2 × NUNIQ − 1. -/
  size : s.nodes.length = 2 * s.nuniq - 1
  /-- HEAP_N = 1 and HEAP[0] = ROOT. -/
  heap : s.heap = [s.root]
  /-- ROOT = NODE_N − 1. -/
  root : s.root.toNat = s.nodes.length - 1
  /-- Nodes 0 to NUNIQ − 1 are the leaves of the unique symbols in ascending order. -/
  leaves : s.nodes.take s.nuniq = seedLeaves s.freq
  /-- The other nodes are internal, with children of smaller indices and the exact sum of their
  frequencies. -/
  internal : ∀ i, s.nuniq ≤ i → i < s.nodes.length →
    ∃ l r f, s.nodes[i]? = some (.internal l r f) ∧ l.toNat < i ∧ r.toNat < i ∧
      f.toNat = (keyOf s.nodes l).toNat + (keyOf s.nodes r).toNat
  /-- Every node but ROOT is the child of exactly one internal node, and ROOT of none. -/
  parents : ((s.nodes.flatMap Node.children).map BitVec.toNat).Perm
    (List.range (s.nodes.length - 1))
  /-- A symbol has a code exactly when its count is not zero. -/
  coded : ∀ y, tableAt s.code y ≠ [] ↔ tableAt s.freq y ≠ 0
  /-- With one unique symbol its code is the one bit 0 (R172). -/
  degenerate : s.nuniq = 1 → ∀ y, tableAt s.code y ≠ [] → tableAt s.code y = [false]
  /-- With two or more, a code is the path from ROOT to its symbol's leaf (R171). -/
  paths : 2 ≤ s.nuniq → ∀ y, tableAt s.code y ≠ [] →
    ∃ i f, followPath s.nodes s.root (tableAt s.code y) = some i ∧
      s.nodes[i.toNat]? = some (.leaf y f)

/-- The tree invariant: in phase TREE the state holds a tree and its codes. -/
def State.TreeInv (s : State) : Prop := s.phase = .tree → s.IsTree

/-- The invariants of every reachable state (R48 (a) to (c)). -/
structure State.Inv (s : State) : Prop where
  writer : s.WriterInv
  freq : s.FreqInv
  tree : s.TreeInv

/-- A safe step: the machine goes on. -/
def State.GoesOn (s : State) : Prop := ∃ t, step s = .next t

end Sys2Proof.Machine
end

