-- ==== Sys2Proof/Certificates/Slice0/Obligations.lean ====
section
/-! DEFINITION. The statements for the provers, from the spec's numbered rules. The first section holds
the tables of the spec they quote. -/

open Sys2Proof Sys2Proof.Machine

/-! ### Terms -/

/-- The opcode map with the masks of R92: (opcode, mask) of each of the 21 commands (R94). -/
def Sys2Proof.Claims.opcodeMap : List (Word × Word) :=
  [(0x00, 0xFFFFFFFF), (0x01, 0xFFFFFFFF), (0x10, 0xFFFFFFFF), (0x11, 0xFFFFFF00),
    (0x12, 0xFFFFFF00), (0x13, 0xFFFFFF00), (0x14, 0xFFFFFFFF), (0x20, 0xFFFFFFFF),
    (0x21, 0xFFF0FE00), (0x22, 0xFFFFFF00), (0x23, 0xFFF8FF00), (0x24, 0xFFFFFE00),
    (0x30, 0xFFFFFFFF), (0x31, 0xFFFFFFFE), (0x32, 0xFFFFFF00), (0x33, 0xFFFFFFFF),
    (0x34, 0xFFFFFFFF), (0x40, 0xFFFFFFFF), (0x41, 0xFFFFFFFF), (0x42, 0xFFFFFFFF),
    (0x43, 0xFFFFFFFF)]

/-- R92 and R91 step (4): the word matches a command, and `sel` of RD_NODE does not pass 5. -/
def Sys2Proof.Claims.LegalWord (w : Word) : Prop :=
  (∃ r ∈ Claims.opcodeMap, w &&& r.2 = r.1 <<< 24) ∧
    (w.extractLsb' 24 8 = 0x21#8 → w.extractLsb' 16 4 ≤ 5#4)

/-- What every command rule says first (R110, R275): its word, its refusal when the block is faulted,
and ERR_PHASE where its phase does not admit it. -/
def Sys2Proof.Claims.CommonChecks (i : Instr) (w : Word) (adm : Admission) : Prop :=
  decode w = .ok i ∧ encode i = w ∧
    ∀ s : State,
      (s.err ≠ .ok → exec i s = .next s) ∧
      (s.err = .ok → adm.admits s.phase = false → exec i s = .next { s with err := .phase })

/-- The heap property (R156): no slot's key is below its parent's. -/
def Sys2Proof.Claims.HeapOrder (key : Idx → Freq) (h : List Idx) : Prop :=
  ∀ p a b, 0 < p → h[(p - 1) / 2]? = some a → h[p]? = some b → key a ≤ key b

/-- The table of R47, the rows of the block and the derived one. -/
def Sys2Proof.Claims.ResetValues (s : State) : Prop :=
  s.arg = 0 ∧ s.res = 0 ∧ s.err = .ok ∧ s.phase = .freq ∧ (∀ y, tableAt s.freq y = 0) ∧
  s.nodes = [] ∧ s.root = 0 ∧ s.heap = [] ∧ (∀ y, tableAt s.code y = []) ∧ s.wacc = 0 ∧
  s.wcnt = 0 ∧ s.rbuf = 0 ∧ s.rcnt = 0 ∧ s.reos = false ∧ s.remain = 0 ∧ s.snkCount = 0 ∧
  s.srcCount = 0 ∧ s.nuniq = 0 ∧ s.total = 0 ∧ s.degen = false

/-- R141: NODE[NODE_N] <- the node, NODE_N grows by one, `heap_insert` of its index. -/
def Sys2Proof.Claims.addNode (b : Builder) (n : Node) : Builder where
  nodes := b.nodes ++ [n]
  heap := heapInsert (keyOf (b.nodes ++ [n])) b.heap (BitVec.ofNat 9 b.nodes.length)

/-- The state after a host's RESET: the reset values (R47) beside the streams and the host's fields. -/
def Sys2Proof.Claims.afterReset (s : State) : State :=
  { State.reset with src := s.src, snk := s.snk, host := s.host, resp := .written }

/-- The encoded length in bits of an input under a code table (R214, R233). -/
def Sys2Proof.Claims.payloadBits (code : Vector (List Bool) 256) (input : List Byte) : Nat :=
  (input.map fun y => (tableAt code y).length).sum

/-! ### Command words -/

/-- Decoding the encoding of a well-formed command gives it back, for every command with every value
of its operands (R93, R98). -/
def Obligations.DecodeEncodeRoundTrip : Prop :=
  ∀ i : Instr, i.wf = true → decode (encode i) = .ok i

/-- A legal word is the word of the one command it decodes to, so no bit of it is dropped (R91). -/
def Obligations.LegalWordIsItsCommandsWord : Prop :=
  ∀ (w : Word) (i : Instr), decode w = .ok i → encode i = w ∧ i.wf = true

/-- R95: an illegal word raises ERR_ILLEGAL when written to CMD in the non-faulted state, and changes
nothing else. -/
def Obligations.IllegalWordRaisesErrIllegal : Prop :=
  ∀ (w : Word) (s : State), s.err = .ok → ¬ Claims.LegalWord w →
    writeCmd w s = .next { s with err := .illegal }

/-- Command words written out from the spec's encodings decode to their commands. -/
def Obligations.WrittenOutWordsDecode : Prop :=
  decode 0x00000000#32 = .ok .nop ∧ decode 0x01000000#32 = .ok .reset ∧
  decode 0x11000061#32 = .ok (.ftCount 0x61) ∧ decode 0x20000000#32 = .ok .build ∧
  decode 0x21040003#32 = .ok (.rdNode 4 3) ∧ decode 0x210501FF#32 = .ok (.rdNode 5 511) ∧
  decode 0x23010002#32 = .ok (.rdCodeBits 2 1) ∧ decode 0x240001FF#32 = .ok (.rdHeap 511) ∧
  decode 0x31000001#32 = .ok (.putBit true) ∧ decode 0x32000062#32 = .ok (.putSym 0x62) ∧
  decode 0x43000000#32 = .ok .decRun ∧ decode 0x00000001#32 = .error .mustBeZero ∧
  decode 0x02000000#32 = .error .unknownOpcode ∧ decode 0x21060000#32 = .error .reservedSel

/-! ### The host's accesses -/

/-- A step whose next move writes a legal word to CMD is `exec` of its command, at the state without
that move and with the access answered (R23, R275). The host's sequence and the answer are the
model's own fields (log entries 1 and 2). -/
def Obligations.StepRunsTheDecodedCommand : Prop :=
  ∀ (s : State) (w : Word) (i : Instr) (rest : List HostMove),
    s.host = .write 4 0x00 w :: rest → decode w = .ok i →
      step s = exec i { s with host := rest, resp := .written }

/-- A step is the host's next move (a bus read or write of any kind, ATTACH, the hardware reset), at the
state without it. What the moves do that are no legal CMD write and no bus read: an illegal word in either state (R273, R95), ATTACH (R70), the hardware
reset's effect on the block (R300), and the writes of ARG and REMAIN (R21, R36). The model's own: that
an idle host's step answers the same state (DEDUCED, log entry 4, from R287), that the hardware reset
keeps SRC and SNK (DEDUCED, log entry 8; R301 leaves them to the platform), and the fields `host` and
`resp` (log entries 1 and 2). -/
def Obligations.StepOfTheOtherMoves : Prop :=
  ∀ (s : State) (rest : List HostMove) (v : Word) (bytes : List Byte),
    (s.host = [] → step s = .next s) ∧
    (∀ m, s.host = m :: rest → step s = hostMove m { s with host := rest }) ∧
    (s.host = .attach bytes :: rest → step s = .next { s with host := rest, src := bytes }) ∧
    (s.host = .hardReset :: rest →
      step s = .next { State.reset with src := s.src, snk := s.snk, host := rest, resp := s.resp }) ∧
    (s.host = .write 4 0x04 v :: rest →
      step s = .next { s with host := rest, resp := .written, arg := v }) ∧
    (s.host = .write 4 0x28 v :: rest →
      step s = .next { s with host := rest, resp := .written, remain := v }) ∧
    (s.host = .write 4 0x00 v :: rest → ¬ Claims.LegalWord v →
      step s = .next { s with
        host := rest, resp := .written, err := if s.err = .ok then .illegal else s.err })

/-- R63 and R64: an access that is not an aligned 32-bit one is answered with a bus error and changes
nothing in the block; unmapped offsets read 0 and ignore writes, writes to read-only registers are
ignored, CMD reads 0, and none of these sets ERR. -/
def Obligations.BusCornerCases : Prop :=
  ∀ (s : State) (size off : Nat) (v : Word),
    (¬ (size = 4 ∧ off % 4 = 0) →
      hostMove (.read size off) s = .next { s with resp := .busError } ∧
      hostMove (.write size off v) s = .next { s with resp := .busError }) ∧
    (0x38 ≤ off → off % 4 = 0 →
      hostMove (.read 4 off) s = .next { s with resp := .data 0 } ∧
      hostMove (.write 4 off v) s = .next { s with resp := .written }) ∧
    (off ∈ [0x08, 0x0C, 0x10, 0x14, 0x18, 0x1C, 0x20, 0x24, 0x2C, 0x30, 0x34] →
      hostMove (.write 4 off v) s = .next { s with resp := .written }) ∧
    hostMove (.read 4 0x00) s = .next { s with resp := .data 0 }

/-- The register map of R26: a read at an aligned offset answers `readAt`, in every state, and changes
nothing but the host's view of the answer (R65, log entry 2); what `readAt` is at each offset. The
fields of STATUS and BITSTATE are the next statement, CMD and the unmapped offsets the one before. -/
def Obligations.RegistersShowTheState : Prop :=
  ∀ s : State,
    (∀ off, off % 4 = 0 → hostMove (.read 4 off) s = .next { s with resp := .data (readAt off s) }) ∧
    readAt 0x04 s = s.arg ∧ readAt 0x08 s = s.res ∧
    readAt 0x10 s = BitVec.ofNat 32 (allSyms.countP fun y => tableAt s.freq y ≠ 0) ∧
    readAt 0x14 s = s.total.extractLsb' 0 32 ∧
    readAt 0x18 s = (s.total.extractLsb' 32 8).setWidth 32 ∧
    readAt 0x1C s = s.root.setWidth 32 ∧
    (s.nodes.length ≤ 511 → readAt 0x20 s = BitVec.ofNat 32 s.nodes.length) ∧
    (s.heap.length ≤ 256 → readAt 0x24 s = BitVec.ofNat 32 s.heap.length) ∧
    readAt 0x28 s = s.remain ∧ readAt 0x2C s = s.snkCount ∧ readAt 0x30 s = s.srcCount

/-- The fields of STATUS (R27) and of BITSTATE (R39), every other bit 0. -/
def Obligations.StatusAndBitstateFields : Prop :=
  ∀ s : State,
    (readAt 0x0C s).extractLsb' 0 4 = s.err.code ∧
    (readAt 0x0C s).getLsbD 4 = decide (s.phase = .tree) ∧
    (readAt 0x0C s).getLsbD 5 = s.degen ∧ (readAt 0x0C s).getLsbD 6 = s.reos ∧
    (readAt 0x0C s).extractLsb' 7 25 = 0 ∧
    (readAt 0x34 s).extractLsb' 0 8 = s.wacc ∧ (readAt 0x34 s).extractLsb' 8 3 = s.wcnt ∧
    (readAt 0x34 s).extractLsb' 11 5 = 0 ∧ (readAt 0x34 s).extractLsb' 16 8 = s.rbuf ∧
    ((readAt 0x34 s).extractLsb' 24 4).toNat = s.rcnt.val ∧ (readAt 0x34 s).extractLsb' 28 4 = 0

/-! ### Reset, errors, phases -/

/-- The table of R47: after the RESET command and after the hardware reset, from every state, every
piece of block state has its tabled value and the environment's SRC and SNK are unchanged; State.reset
has the same values. That the hardware reset, too, leaves SRC and SNK is the model's reading of the
table's last row (DEDUCED, log entry 8): R301 calls them the platform's matter there. -/
def Obligations.ResetLeavesTheTabledValues : Prop :=
  Claims.ResetValues State.reset ∧
  ∀ s : State, ∃ t, exec .reset s = .next t ∧ hostMove .hardReset s = .next t ∧
    Claims.ResetValues t ∧ t.src = s.src ∧ t.snk = s.snk

/-- R112: RESET in every state, faulted or not and in either phase: all block state takes its reset
value, RES = 0, and the environment's SRC and SNK are not touched; no other command clears ERR. -/
def Obligations.ResetCommandRule : Prop :=
  decode 0x01000000#32 = .ok .reset ∧ encode .reset = 0x01000000#32 ∧
  ∀ s : State, exec .reset s = .next
    { arg := 0, res := 0, phase := .freq, err := .ok, freq := Vector.replicate 256 0, nodes := [],
      root := 0, heap := [], code := Vector.replicate 256 [], wacc := 0, wcnt := 0, rbuf := 0,
      rcnt := 0, reos := false, remain := 0, snkCount := 0, srcCount := 0, src := s.src,
      snk := s.snk, host := s.host, resp := s.resp } ∧
    ∀ (i : Instr) (t : State), exec i s = .next t → s.err ≠ .ok → t.err = .ok → i = .reset

/-- R273: a faulted block changes no state at all on a write of any word to CMD but RESET's, which
executes; reads work as always and the writes of ARG and REMAIN are performed. -/
def Obligations.FaultedBlockRefusesAllButReset : Prop :=
  ∀ s : State, s.err ≠ .ok →
    (∀ w : Word, w ≠ 0x01000000#32 → writeCmd w s = .next s) ∧
    writeCmd 0x01000000#32 s =
      .next { State.reset with src := s.src, snk := s.snk, host := s.host, resp := s.resp } ∧
    (∀ v, writeAt 0x04 v s = .next { s with arg := v }) ∧
    (∀ v, writeAt 0x28 v s = .next { s with remain := v }) ∧
    (∀ off, off % 4 = 0 → hostMove (.read 4 off) s = .next { s with resp := .data (readAt off s) })

/-- R97 and R274: out of its phase a command raises ERR_PHASE and changes nothing else; in its phase
no command does. The two lists are R97's. -/
def Obligations.PhaseAdmission : Prop :=
  ∀ (i : Instr) (s : State), s.err = .ok →
    ((∃ y, i = .ftCount y) ∨ (∃ y, i = .ftLoad y) ∨ i = .ftScan ∨ i = .build →
      s.phase = .tree → exec i s = .next { s with err := .phase }) ∧
    ((∃ y, i = .putSym y) ∨ i = .encRun ∨ i = .decSym ∨ i = .decRun →
      s.phase = .freq → exec i s = .next { s with err := .phase }) ∧
    (∀ t, exec i s = .next t → t.err = .phase →
      (s.phase = .tree ∧ ((∃ y, i = .ftCount y) ∨ (∃ y, i = .ftLoad y) ∨ i = .ftScan ∨ i = .build)) ∨
      (s.phase = .freq ∧ ((∃ y, i = .putSym y) ∨ i = .encRun ∨ i = .decSym ∨ i = .decRun)))

/-- R272 and R22: a command that raises leaves RES, PHASE, ARG, NODE, HEAP, ROOT and CODE as they
were, whatever its pseudocode did before the raise point. -/
def Obligations.RaiseKeepsResAndTree : Prop :=
  ∀ (i : Instr) (s t : State), exec i s = .next t → s.err = .ok → t.err ≠ .ok →
    t.res = s.res ∧ t.phase = s.phase ∧ t.arg = s.arg ∧ t.nodes = s.nodes ∧ t.heap = s.heap ∧
    t.root = s.root ∧ t.code = s.code

/-- The codes of R271 and which commands raise which. A reserved `sel` is ERR_ILLEGAL (R91). -/
def Obligations.ErrorsComeFromTheirCommands : Prop :=
  (Err.ok.code = 0 ∧ Err.empty.code = 1 ∧ Err.trunc.code = 4 ∧ Err.illegal.code = 5 ∧
    Err.phase.code = 6 ∧ Err.noCode.code = 7 ∧ Err.countOvf.code = 8 ∧ Err.badCode.code = 9 ∧
    Err.range.code = 10) ∧
  ∀ (i : Instr) (s t : State), exec i s = .next t → s.err = .ok →
    (t.err = .empty → i = .build ∧ s.nuniq = 0) ∧
    (t.err = .trunc → i = .decSym ∨ i = .decRun) ∧
    (t.err = .illegal → i.wf = false) ∧
    (t.err = .noCode → (∃ y, i = .putSym y) ∨ i = .encRun) ∧
    (t.err = .countOvf → (∃ y, i = .ftCount y) ∨ i = .ftScan) ∧
    (t.err = .badCode → (i = .decSym ∨ i = .decRun) ∧ s.degen = true) ∧
    (t.err = .range → (∃ f n, i = .rdNode f n) ∨ ∃ n, i = .rdHeap n)

/-- R25 and R74: which commands change PHASE, and in phase TREE no command but FT_CLEAR and RESET
changes FREQ, NODE, ROOT, HEAP or CODE. -/
def Obligations.PhaseTransitionsAndFrozenTables : Prop :=
  ∀ (i : Instr) (s t : State), exec i s = .next t →
    (t.phase ≠ s.phase →
      (i = .build ∧ s.phase = .freq ∧ t.err = .ok) ∨ (i = .ftClear ∧ s.phase = .tree) ∨
      i = .reset) ∧
    (s.phase = .tree → i ≠ .ftClear → i ≠ .reset →
      t.freq = s.freq ∧ t.nodes = s.nodes ∧ t.root = s.root ∧ t.heap = s.heap ∧ t.code = s.code)

/-! ### Command rules: what each command does in every state it is issued in -/

/-- R111. -/
def Obligations.NopRule : Prop :=
  Claims.CommonChecks .nop 0x00000000#32 .any ∧
  decode 0x00000001#32 = .error .mustBeZero ∧
  ∀ s : State, s.err = .ok → exec .nop s = .next { s with res := 0 }

/-- R121. -/
def Obligations.FtClearRule : Prop :=
  Claims.CommonChecks .ftClear 0x10000000#32 .any ∧
  ∀ s : State, s.err = .ok → exec .ftClear s = .next
    { s with freq := Vector.replicate 256 0, code := Vector.replicate 256 [], nodes := [],
             root := 0, heap := [], phase := .freq, res := 0 }

/-- R122: the count goes up by one and no other entry changes; at 2^32 − 1 it raises ERR_COUNT_OVF
and FREQ is unchanged. -/
def Obligations.FtCountRule : Prop :=
  ∀ y : Byte,
    Claims.CommonChecks (.ftCount y) (0x11000000#32 ||| y.setWidth 32) .freqOnly ∧
    ∀ s : State, s.Ready .freqOnly →
      (tableAt s.freq y = 0xFFFFFFFF#32 → exec (.ftCount y) s = .next { s with err := .countOvf }) ∧
      (tableAt s.freq y ≠ 0xFFFFFFFF#32 → ∃ f,
        exec (.ftCount y) s = .next { s with freq := f, res := 0 } ∧
        tableAt f y = tableAt s.freq y + 1 ∧ ∀ z, z ≠ y → tableAt f z = tableAt s.freq z)

/-- R124 and R125: FT_LOAD gives FREQ[sym] the whole of ARG and changes no other entry; FT_READ returns
FREQ[sym]. -/
def Obligations.FtLoadAndFtReadRules : Prop :=
  ∀ y : Byte,
    Claims.CommonChecks (.ftLoad y) (0x12000000#32 ||| y.setWidth 32) .freqOnly ∧
    Claims.CommonChecks (.ftRead y) (0x13000000#32 ||| y.setWidth 32) .any ∧
    ∀ s : State,
      (s.Ready .freqOnly → ∃ f, exec (.ftLoad y) s = .next { s with freq := f, res := 0 } ∧
        tableAt f y = s.arg ∧ ∀ z, z ≠ y → tableAt f z = tableAt s.freq z) ∧
      (s.err = .ok → exec (.ftRead y) s = .next { s with res := tableAt s.freq y })

/-- R126: FT_SCAN adds the occurrences of every byte of the source and empties it; at the first byte
whose count would pass 2^32 − 1 it stops with ERR_COUNT_OVF, that byte pulled and not counted. -/
def Obligations.FtScanRule : Prop :=
  Claims.CommonChecks .ftScan 0x14000000#32 .freqOnly ∧
  ∀ s : State, s.Ready .freqOnly →
    ((∀ y, (tableAt s.freq y).toNat + s.src.count y < 2 ^ 32) → ∃ f,
      exec .ftScan s = .next
        { s with freq := f, src := [], srcCount := s.srcCount + BitVec.ofNat 32 s.src.length,
                 res := 0 } ∧
      ∀ y, (tableAt f y).toNat = (tableAt s.freq y).toNat + s.src.count y) ∧
    (∀ pre b post, s.src = pre ++ b :: post →
      (∀ y, (tableAt s.freq y).toNat + pre.count y < 2 ^ 32) →
      (tableAt s.freq b).toNat + pre.count b = 2 ^ 32 - 1 → ∃ f,
        exec .ftScan s = .next
          { s with freq := f, src := post,
                   srcCount := s.srcCount + BitVec.ofNat 32 (pre.length + 1), err := .countOvf } ∧
        ∀ y, (tableAt f y).toNat = (tableAt s.freq y).toNat + pre.count y)

/-- R141: ERR_EMPTY when no count is non-zero, with no state changed; else BUILD leaves the arena and
the queue of the seeding and merge loops, ROOT = HEAP[0], the codes of that tree, phase TREE and
RES = ROOT, and nothing else changes. NODE_N = 0 and HEAP_N = 0 before the loops is the rule's own
premise (R48 (b)). The loops: seeding inserts one leaf after the other in ascending symbol order (R142);
a merge pass extracts two nodes, the first the left child and the second the right one of the node it
adds (R144); NUNIQ − 1 passes follow the seeding, each lowering HEAP_N by one. -/
def Obligations.BuildRule : Prop :=
  Claims.CommonChecks .build 0x20000000#32 .freqOnly ∧
  (∀ freq : Vector Word 256, seed freq =
    ((((List.range 256).map (BitVec.ofNat 8)).filter fun y => tableAt freq y ≠ 0).map fun y =>
      Node.leaf y ((tableAt freq y).setWidth 40)).foldl Claims.addNode ⟨[], []⟩) ∧
  (∀ (b : Builder) (l r : Idx) (h₁ h₂ : List Idx),
    heapExtractMin (keyOf b.nodes) b.heap = some (l, h₁) →
    heapExtractMin (keyOf b.nodes) h₁ = some (r, h₂) →
    mergeOne b =
      Claims.addNode ⟨b.nodes, h₂⟩ (.internal l r (keyOf b.nodes l + keyOf b.nodes r))) ∧
  (∀ s : State, buildTree s.freq = mergeOne^[s.nuniq - 1] (seed s.freq) ∧
    ∀ k, k < s.nuniq → (mergeOne^[k] (seed s.freq)).heap.length = s.nuniq - k) ∧
  ∀ s : State, s.Ready .freqOnly →
    (s.nuniq = 0 → exec .build s = .next { s with err := .empty }) ∧
    (s.nuniq ≠ 0 → s.nodes = [] → s.heap = [] → ∃ root,
      (buildTree s.freq).heap = [root] ∧
      exec .build s = .next
        { s with nodes := (buildTree s.freq).nodes, heap := [root], root := root,
                 code := genCodes (buildTree s.freq).nodes root, phase := .tree,
                 res := root.setWidth 32 })

/-- R152: the field `sel` of node `idx`, all ones where the node has no such field; ERR_RANGE at and
beyond NODE_N; ERR_ILLEGAL for `sel` above 5. -/
def Obligations.RdNodeRule : Prop :=
  ∀ (sel : BitVec 4) (i : Idx),
    (sel ≤ 5#4 → Claims.CommonChecks (.rdNode sel i)
      (0x21000000#32 ||| sel.setWidth 32 <<< 16 ||| i.setWidth 32) .any) ∧
    ∀ s : State, s.err = .ok →
      (5#4 < sel → exec (.rdNode sel i) s = .next { s with err := .illegal }) ∧
      (sel ≤ 5#4 → s.nodes.length ≤ i.toNat →
        exec (.rdNode sel i) s = .next { s with err := .range }) ∧
      (∀ y f, s.nodes[i.toNat]? = some (.leaf y f) →
        exec (.rdNode 0 i) s = .next { s with res := 0 } ∧
        exec (.rdNode 1 i) s = .next { s with res := y.setWidth 32 } ∧
        exec (.rdNode 2 i) s = .next { s with res := 0xFFFFFFFF#32 } ∧
        exec (.rdNode 3 i) s = .next { s with res := 0xFFFFFFFF#32 } ∧
        exec (.rdNode 4 i) s = .next { s with res := f.extractLsb' 0 32 } ∧
        exec (.rdNode 5 i) s = .next { s with res := (f.extractLsb' 32 8).setWidth 32 }) ∧
      (∀ l r f, s.nodes[i.toNat]? = some (.internal l r f) →
        exec (.rdNode 0 i) s = .next { s with res := 1 } ∧
        exec (.rdNode 1 i) s = .next { s with res := 0xFFFFFFFF#32 } ∧
        exec (.rdNode 2 i) s = .next { s with res := l.setWidth 32 } ∧
        exec (.rdNode 3 i) s = .next { s with res := r.setWidth 32 } ∧
        exec (.rdNode 4 i) s = .next { s with res := f.extractLsb' 0 32 } ∧
        exec (.rdNode 5 i) s = .next { s with res := (f.extractLsb' 32 8).setWidth 32 })

/-- R153. -/
def Obligations.RdHeapRule : Prop :=
  ∀ i : Idx,
    Claims.CommonChecks (.rdHeap i) (0x24000000#32 ||| i.setWidth 32) .any ∧
    ∀ s : State, s.err = .ok →
      (s.heap.length ≤ i.toNat → exec (.rdHeap i) s = .next { s with err := .range }) ∧
      (∀ n, s.heap[i.toNat]? = some n → exec (.rdHeap i) s = .next { s with res := n.setWidth 32 })

/-- R175 and R176: RD_CODELEN returns the length of the code; bit 31 − j of the result of RD_CODEBITS is
code bit 32 × chunk + j, and 0 beyond the code's end. -/
def Obligations.RdCodeLenAndRdCodeBitsRules : Prop :=
  ∀ (y : Byte) (c : BitVec 3),
    Claims.CommonChecks (.rdCodeLen y) (0x22000000#32 ||| y.setWidth 32) .any ∧
    Claims.CommonChecks (.rdCodeBits y c)
      (0x23000000#32 ||| c.setWidth 32 <<< 16 ||| y.setWidth 32) .any ∧
    ∀ s : State, s.err = .ok →
      exec (.rdCodeLen y) s = .next { s with res := BitVec.ofNat 32 (tableAt s.code y).length } ∧
      ∃ v : Word, exec (.rdCodeBits y c) s = .next { s with res := v } ∧
        ∀ j, j < 32 → v.getLsbD (31 - j) = (tableAt s.code y).getD (32 * c.toNat + j) false

/-- R187 and R188: the bit goes to bit 7 − WCNT of WACC, the others keep their values; the eighth bit
appends the byte at once. -/
def Obligations.PutBitRule : Prop :=
  ∀ b : Bool,
    Claims.CommonChecks (.putBit b) (0x31000000#32 ||| (BitVec.ofBool b).setWidth 32) .any ∧
    ∀ s : State, s.err = .ok → ∃ a : Byte,
      a.getLsbD (7 - s.wcnt.toNat) = b ∧
      (∀ k, k < 8 → k ≠ 7 - s.wcnt.toNat → a.getLsbD k = s.wacc.getLsbD k) ∧
      (s.wcnt ≠ 7#3 →
        exec (.putBit b) s = .next { s with wacc := a, wcnt := s.wcnt + 1, res := 0 }) ∧
      (s.wcnt = 7#3 →
        exec (.putBit b) s = .next
          { s with snk := s.snk ++ [a], snkCount := s.snkCount + 1, wacc := 0, wcnt := 0, res := 0 })

/-- R189. -/
def Obligations.FlushRule : Prop :=
  Claims.CommonChecks .flush 0x33000000#32 .any ∧
  ∀ s : State, s.err = .ok →
    (s.wcnt = 0 → exec .flush s = .next { s with res := 0 }) ∧
    (s.wcnt ≠ 0 → exec .flush s = .next
      { s with snk := s.snk ++ [s.wacc], snkCount := s.snkCount + 1, wacc := 0, wcnt := 0, res := 0 })

/-- R186 and R191: WR_INIT empties the writer and RD_INIT the reader; pending and buffered bits are
dropped, and neither touches a stream. -/
def Obligations.WrInitAndRdInitRules : Prop :=
  Claims.CommonChecks .wrInit 0x30000000#32 .any ∧
  Claims.CommonChecks .rdInit 0x40000000#32 .any ∧
  ∀ s : State, s.err = .ok →
    exec .wrInit s = .next { s with wacc := 0, wcnt := 0, res := 0 } ∧
    exec .rdInit s = .next { s with rbuf := 0, rcnt := 0, reos := false, res := 0 }

/-- R192 and R193: a buffered bit; with none buffered the latched end of stream, a pull that ends the
stream, or a pull that delivers bit 7 of the new byte. -/
def Obligations.GetBitRule : Prop :=
  Claims.CommonChecks .getBit 0x41000000#32 .any ∧
  ∀ s : State, s.err = .ok →
    (∀ n (h : n + 1 < 9), s.rcnt = ⟨n + 1, h⟩ → exec .getBit s = .next
      { s with rcnt := ⟨n, Nat.lt_of_succ_lt h⟩,
               res := (BitVec.ofBool (s.rbuf.getLsbD n)).setWidth 32 }) ∧
    (s.rcnt = 0 → s.reos = true → exec .getBit s = .next { s with res := 0x80000000#32 }) ∧
    (s.rcnt = 0 → s.reos = false → s.src = [] →
      exec .getBit s = .next { s with reos := true, res := 0x80000000#32 }) ∧
    (∀ v rest, s.rcnt = 0 → s.reos = false → s.src = v :: rest → exec .getBit s = .next
      { s with src := rest, srcCount := s.srcCount + 1, rbuf := v, rcnt := 7,
               res := (BitVec.ofBool (v.getLsbD 7)).setWidth 32 })

/-- R211 and R212: ERR_NOCODE before the first bit, else the effect of one PUT_BIT for each bit of the
code, first bit first. -/
def Obligations.PutSymRule : Prop :=
  ∀ y : Byte,
    Claims.CommonChecks (.putSym y) (0x32000000#32 ||| y.setWidth 32) .treeOnly ∧
    ∀ s : State, s.Ready .treeOnly →
      (tableAt s.code y = [] → exec (.putSym y) s = .next { s with err := .noCode }) ∧
      (tableAt s.code y ≠ [] → ∃ t, exec (.putSym y) s = .next t ∧
        execAll ((tableAt s.code y).map .putBit) s = .next t)

/-- R213: ENC_RUN writes the codes of all bytes of the source, without a flush; at the first byte
without a code it stops with ERR_NOCODE, that byte pulled and the earlier codes written. `putBits` is
the effect of the PUT_BITs of a bit sequence (R187, R190). -/
def Obligations.EncRunRule : Prop :=
  Claims.CommonChecks .encRun 0x34000000#32 .treeOnly ∧
  ∀ s : State, s.Ready .treeOnly →
    ((∀ b ∈ s.src, tableAt s.code b ≠ []) → exec .encRun s = .next
      { putBits (s.src.flatMap (tableAt s.code)) s with
        src := [], srcCount := s.srcCount + BitVec.ofNat 32 s.src.length, res := 0 }) ∧
    (∀ pre b post, s.src = pre ++ b :: post → (∀ c ∈ pre, tableAt s.code c ≠ []) →
      tableAt s.code b = [] → exec .encRun s = .next
        { putBits (pre.flatMap (tableAt s.code)) s with
          src := post, srcCount := s.srcCount + BitVec.ofNat 32 (pre.length + 1), err := .noCode })

/-- R216 and R217, in the states that meet the invariants: when the reader's bits begin with the code
of a symbol, DEC_SYM returns that symbol and has consumed exactly the code; when they end inside a
code it raises ERR_TRUNC; a 1 bit in the degenerate tree raises ERR_BAD_CODE. In either fault the bits
consumed stay consumed, as R216 says (against R272's parenthesis, log entry 19). `skipBits n` is the
effect of `n` calls of `get_bit` (R192). -/
def Obligations.DecSymRule : Prop :=
  Claims.CommonChecks .decSym 0x42000000#32 .treeOnly ∧
  ∀ s : State, s.Inv → s.Ready .treeOnly →
    (∀ y, tableAt s.code y ≠ [] → tableAt s.code y <+: readerBits s → exec .decSym s = .next
      { skipBits (tableAt s.code y).length s with res := y.setWidth 32 }) ∧
    (∀ y, readerBits s <+: tableAt s.code y → readerBits s ≠ tableAt s.code y → exec .decSym s = .next
      { skipBits ((readerBits s).length + 1) s with err := .trunc }) ∧
    (s.nuniq = 1 → (readerBits s).head? = some true → exec .decSym s = .next
      { skipBits 1 s with err := .badCode })

/-- R218 and R219, in the states that meet the invariants: when the reader's bits begin with the codes
of REMAIN symbols, DEC_RUN appends them and leaves REMAIN = 0; when they end before that inside a code,
it appends the symbols decoded, leaves the number not produced in REMAIN, and raises ERR_TRUNC; a 1 bit
in the degenerate tree does the same with ERR_BAD_CODE. -/
def Obligations.DecRunRule : Prop :=
  Claims.CommonChecks .decRun 0x43000000#32 .treeOnly ∧
  ∀ s : State, s.Inv → s.Ready .treeOnly →
    ∀ ys : List Byte, (∀ y ∈ ys, tableAt s.code y ≠ []) →
      (ys.length = s.remain.toNat → ys.flatMap (tableAt s.code) <+: readerBits s →
        exec .decRun s = .next
          { skipBits (ys.flatMap (tableAt s.code)).length s with
            snk := s.snk ++ ys, snkCount := s.snkCount + s.remain, remain := 0, res := 0 }) ∧
      (∀ y rest, ys.length < s.remain.toNat →
        readerBits s = ys.flatMap (tableAt s.code) ++ rest → rest <+: tableAt s.code y →
        rest ≠ tableAt s.code y → exec .decRun s = .next
          { skipBits ((readerBits s).length + 1) s with
            snk := s.snk ++ ys, snkCount := s.snkCount + BitVec.ofNat 32 ys.length,
            remain := s.remain - BitVec.ofNat 32 ys.length, err := .trunc }) ∧
      (∀ rest, s.nuniq = 1 → ys.length < s.remain.toNat →
        readerBits s = ys.flatMap (tableAt s.code) ++ true :: rest → exec .decRun s = .next
          { skipBits (ys.length + 1) s with
            snk := s.snk ++ ys, snkCount := s.snkCount + BitVec.ofNat 32 ys.length,
            remain := s.remain - BitVec.ofNat 32 ys.length, err := .badCode })

/-! ### Frames and whole-machine rules -/

/-- The five inspection commands change no state but RES, and ERR when an index is out of range or
`sel` is reserved (R286). -/
def Obligations.InspectionFrame : Prop :=
  ∀ (i : Instr) (s t : State),
    (∃ y, i = .ftRead y) ∨ (∃ f n, i = .rdNode f n) ∨ (∃ n, i = .rdHeap n) ∨
      (∃ y, i = .rdCodeLen y) ∨ (∃ y c, i = .rdCodeBits y c) →
    exec i s = .next t → t = { s with res := t.res, err := t.err }

/-- The table commands FT_COUNT, FT_LOAD and FT_SCAN change FREQ, RES and ERR, FT_SCAN the source as
well; BUILD and FT_CLEAR touch neither the streams, nor the writer and the reader, nor ARG and REMAIN
(R121, R126, R141). -/
def Obligations.TableCommandsFrame : Prop :=
  ∀ (i : Instr) (s t : State), exec i s = .next t →
    ((∃ y, i = .ftCount y) ∨ (∃ y, i = .ftLoad y) →
      t = { s with freq := t.freq, res := t.res, err := t.err }) ∧
    (i = .ftScan → t =
      { s with freq := t.freq, src := t.src, srcCount := t.srcCount, res := t.res, err := t.err }) ∧
    (i = .build ∨ i = .ftClear → t =
      { s with freq := t.freq, nodes := t.nodes, root := t.root, heap := t.heap, code := t.code,
               phase := t.phase, res := t.res, err := t.err }) ∧
    (i = .build → t.freq = s.freq)

/-- The writer commands and ENC_RUN touch only the writer, the sink, RES and ERR, ENC_RUN the source as
well; the reader commands touch only the reader, the source, RES and ERR; DEC_RUN the sink and REMAIN
as well, and never the writer (R71, R185). -/
def Obligations.BitEnginesFrame : Prop :=
  ∀ (i : Instr) (s t : State), exec i s = .next t →
    (i = .wrInit ∨ i = .flush ∨ (∃ b, i = .putBit b) ∨ (∃ y, i = .putSym y) → t =
      { s with wacc := t.wacc, wcnt := t.wcnt, snk := t.snk, snkCount := t.snkCount, res := t.res,
               err := t.err }) ∧
    (i = .encRun → t =
      { s with wacc := t.wacc, wcnt := t.wcnt, snk := t.snk, snkCount := t.snkCount, src := t.src,
               srcCount := t.srcCount, res := t.res, err := t.err }) ∧
    (i = .rdInit ∨ i = .getBit ∨ i = .decSym → t =
      { s with rbuf := t.rbuf, rcnt := t.rcnt, reos := t.reos, src := t.src, srcCount := t.srcCount,
               res := t.res, err := t.err }) ∧
    (i = .decRun → t =
      { s with rbuf := t.rbuf, rcnt := t.rcnt, reos := t.reos, src := t.src, srcCount := t.srcCount,
               snk := t.snk, snkCount := t.snkCount, remain := t.remain, res := t.res, err := t.err })

/-- The sink only grows and the source only shrinks from its front, and outside RESET the two counters
follow, modulo 2^32 (R37, R38, R68, R69). -/
def Obligations.StreamsAndCountersAgree : Prop :=
  ∀ (i : Instr) (s t : State), exec i s = .next t →
    ∃ pulled appended, s.src = pulled ++ t.src ∧ t.snk = s.snk ++ appended ∧
      (i = .reset → pulled = [] ∧ appended = [] ∧ t.snkCount = 0 ∧ t.srcCount = 0) ∧
      (i ≠ .reset → t.srcCount = s.srcCount + BitVec.ofNat 32 pulled.length ∧
        t.snkCount = s.snkCount + BitVec.ofNat 32 appended.length)

/-- No command but RESET writes ARG, and none but FT_LOAD reads it; no command but DEC_RUN and RESET
writes REMAIN, and none but DEC_RUN reads it (R21, R36). R21 says that no command writes ARG and R112
that RESET clears it: the command rule is followed (log entry 7). -/
def Obligations.ArgAndRemainAreTheHosts : Prop :=
  ∀ (i : Instr) (s t : State), i ≠ .reset → exec i s = .next t →
    t.arg = s.arg ∧ (i ≠ .decRun → t.remain = s.remain) ∧
    ((∀ y, i ≠ .ftLoad y) → ∀ a, exec i { s with arg := a } = .next { t with arg := a }) ∧
    (i ≠ .decRun → ∀ r, exec i { s with remain := r } = .next { t with remain := r })

/-- SNK_COUNT and SRC_COUNT are read by no rule: two states that differ only there go to states that
differ only there (R283). -/
def Obligations.CountersAreReadByNoRule : Prop :=
  ∀ (i : Instr) (s t : State) (a b : Word), i ≠ .reset → exec i s = .next t →
    exec i { s with snkCount := a, srcCount := b } = .next
      { t with snkCount := a + (t.snkCount - s.snkCount), srcCount := b + (t.srcCount - s.srcCount) }

/-- FT_SCAN and ENC_RUN neither read nor write RBUF, RCNT and REOS; DEC_RUN neither reads nor writes
WACC and WCNT (R71). -/
def Obligations.RunCommandsBypassTheOtherBuffer : Prop :=
  ∀ (i : Instr) (s t : State), exec i s = .next t →
    (i = .ftScan ∨ i = .encRun → ∀ a n e,
      exec i { s with rbuf := a, rcnt := n, reos := e } =
        .next { t with rbuf := a, rcnt := n, reos := e }) ∧
    (i = .decRun → ∀ a n,
      exec i { s with wacc := a, wcnt := n } = .next { t with wacc := a, wcnt := n })

/-- R210, and R126 for FT_SCAN: FT_SCAN has the effect of one FT_COUNT for each byte of the source,
ENC_RUN that of one PUT_SYM, and DEC_RUN that of REMAIN times DEC_SYM, with the host moving the bytes:
the results of the DEC_SYMs are the bytes DEC_RUN appends. RES apart, which each command that completes
writes. -/
def Obligations.RunLevelEqualsStepLevel : Prop :=
  ∀ s t : State,
    (s.Ready .freqOnly → exec .ftScan s = .next t → ∃ u,
      execAll (s.src.map .ftCount) s = .next u ∧
      { u with res := 0 } = { t with src := s.src, srcCount := s.srcCount, res := 0 }) ∧
    (s.Ready .treeOnly → exec .encRun s = .next t → ∃ u,
      execAll (s.src.map .putSym) s = .next u ∧
      { u with res := 0 } = { t with src := s.src, srcCount := s.srcCount, res := 0 }) ∧
    (s.Ready .treeOnly → exec .decRun s = .next t → ∃ u ys,
      execAll (List.replicate s.remain.toNat .decSym) s = .next u ∧
      { u with res := 0 } =
        { t with snk := s.snk, snkCount := s.snkCount, remain := s.remain, res := 0 } ∧
      t.snk = s.snk ++ ys ∧ t.remain = s.remain - BitVec.ofNat 32 ys.length ∧
      ∀ k (h : k < ys.length), ∃ v,
        execAll (List.replicate (k + 1) .decSym) s = .next v ∧ v.res = ys[k].setWidth 32)

/-! ### Invariants -/

/-- The state after reset meets the invariants of R48. -/
def Obligations.ResetMeetsTheInvariants : Prop := State.reset.Inv

/-- BUILD makes a tree with its codes (R48 (c), R154, R170 to R172). -/
def Obligations.BuildMakesATree : Prop :=
  ∀ s t : State, exec .build s = .next t → s.Ready .freqOnly → t.err = .ok → t.IsTree

/-- Every step keeps the invariants of R48, from every state that meets them, whatever move the host
makes. -/
def Obligations.EveryStepKeepsTheInvariants : Prop :=
  ∀ s t : State, s.Inv → step s = .next t → t.Inv

/-- Nothing in the block is stuck (93_implementation_defined.md, end of section 2): a machine that meets
the invariants always has a next state, whatever move the host makes. Outside them the model's two
stops are BUILD on an arena or a queue that is not empty and a decoder whose node is absent (log
entry 5); no command is refused. -/
def Obligations.InvariantStatesNeverStop : Prop :=
  (∀ s : State, s.Inv → s.GoesOn) ∧
  ∀ (i : Instr) (s : State),
    (∀ r, exec i s ≠ .refused r) ∧
    (i = .build → s.Ready .freqOnly → s.nuniq ≠ 0 → ¬ (s.nodes = [] ∧ s.heap = []) →
      exec i s = .fault .arenaNotEmpty) ∧
    (∀ f, exec i s = .fault f → s.err = .ok ∧
      ((f = .arenaNotEmpty ∧ i = .build ∧ s.phase = .freq ∧ ¬ (s.nodes = [] ∧ s.heap = [])) ∨
       (f = .absentEntry ∧ (i = .decSym ∨ i = .decRun) ∧ s.phase = .tree)))

/-! ### The priority queue and the tree -/

/-- `heap_insert` keeps the heap property and adds its node and nothing else, for every key (R146,
R156); a node that is not smaller than its parent, a tie included, stays in the last slot (R145). -/
def Obligations.HeapInsertKeepsOrder : Prop :=
  ∀ (key : Idx → Freq) (h : List Idx) (i : Idx),
    (Claims.HeapOrder key h →
      Claims.HeapOrder key (heapInsert key h i) ∧ (heapInsert key h i).Perm (i :: h)) ∧
    (∀ q, h[(h.length - 1) / 2]? = some q → ¬ key i < key q → heapInsert key h i = h ++ [i])

/-- `heap_extract_min` returns the node of slot 0, which has a least key, keeps the heap property and
removes that node and nothing else, for every key (R147, R156). The last slot goes to slot 0 and stays
there when no child is smaller; else the right child moves up when it is smaller than the left one, and
the left one when they are equal (R148). -/
def Obligations.HeapExtractReturnsALeastKey : Prop :=
  ∀ (key : Idx → Freq) (h : List Idx),
    (Claims.HeapOrder key h → h ≠ [] → ∃ m h',
      heapExtractMin key h = some (m, h') ∧ h.head? = some m ∧ (∀ i ∈ h, key m ≤ key i) ∧
      Claims.HeapOrder key h' ∧ h.Perm (m :: h')) ∧
    ∀ m z : Idx,
      ((∀ c ∈ h.take 2, ¬ key c < key z) →
        heapExtractMin key (m :: (h ++ [z])) = some (m, z :: h)) ∧
      (∀ l r rest, h = l :: r :: rest → key l < key z → ¬ key r < key l → ∃ h',
        heapExtractMin key (m :: (h ++ [z])) = some (m, h') ∧ h'.head? = some l) ∧
      (∀ l r rest, h = l :: r :: rest → key r < key z → key r < key l → ∃ h',
        heapExtractMin key (m :: (h ++ [z])) = some (m, h') ∧ h'.head? = some r)

/-- The example of R149, FREQ = {0x41: 1, 0x42: 1, 0x43: 1}: seeding leaves HEAP = [0, 1, 2], the first
extraction returns node 0, the second the last leaf and not node 1; BUILD leaves that tree and the codes
`10`, `0` and `11`. -/
def Obligations.TieBreakExample : Prop :=
  ∀ s : State, s.Ready .freqOnly → s.nodes = [] → s.heap = [] →
    (∀ y, tableAt s.freq y = if y = 0x41 ∨ y = 0x42 ∨ y = 0x43 then 1 else 0) →
    let leaves : List Node := [.leaf 0x41 1, .leaf 0x42 1, .leaf 0x43 1]
    seed s.freq = ⟨leaves, [0, 1, 2]⟩ ∧
    heapExtractMin (keyOf leaves) [0, 1, 2] = some (0, [2, 1]) ∧
    heapExtractMin (keyOf leaves) [2, 1] = some (2, [1]) ∧
    ∃ t, exec .build s = .next t ∧
      t.nodes = leaves ++ [.internal 0 2 2, .internal 1 3 3] ∧ t.root = 4 ∧
      tableAt t.code 0x41 = [true, false] ∧ tableAt t.code 0x42 = [false] ∧
      tableAt t.code 0x43 = [true, true]

/-- TOTAL, read as TOTAL_LO and TOTAL_HI, is the exact sum of all 256 counts in every state, and in
phase TREE it is the root's frequency (R32, R150). -/
def Obligations.TotalIsExactAndTheRootsFrequency : Prop :=
  ∀ s : State,
    (readAt 0x14 s).toNat + 2 ^ 32 * (readAt 0x18 s).toNat =
      (allSyms.map fun y => (tableAt s.freq y).toNat).sum ∧
    (s.Inv → s.phase = .tree → ∃ n, s.nodes[s.root.toNat]? = some n ∧ n.freq = s.total)

/-- DEGEN reads 1 exactly in phase TREE with one unique symbol (R29, R143). -/
def Obligations.DegenMeansOneSymbol : Prop :=
  ∀ s : State, s.Inv → (s.degen = true ↔ s.phase = .tree ∧ s.nuniq = 1)

/-! ### Codes -/

/-- Prefix-free law: no code is a prefix of another code of the same table (R173 (b)). -/
def Obligations.CodesArePrefixFree : Prop :=
  ∀ s : State, s.Inv → s.phase = .tree → ∀ y z : Byte, tableAt s.code y ≠ [] →
    tableAt s.code z ≠ [] → tableAt s.code y <+: tableAt s.code z → y = z

/-- For NUNIQ ≥ 2 every infinite bit sequence has exactly one code as a prefix, and no code is longer
than NUNIQ − 1 ≤ 255 (R173 (d) and (e)). -/
def Obligations.CodesAreCompleteAndBounded : Prop :=
  ∀ s : State, s.Inv → s.phase = .tree → 2 ≤ s.nuniq →
    (∀ b : Nat → Bool, ∃ y : Byte, tableAt s.code y ≠ [] ∧
      (∀ k (h : k < (tableAt s.code y).length), (tableAt s.code y)[k] = b k) ∧
      ∀ z : Byte, tableAt s.code z ≠ [] →
        (∀ k (h : k < (tableAt s.code z).length), (tableAt s.code z)[k] = b k) → z = y) ∧
    ∀ y : Byte, (tableAt s.code y).length ≤ s.nuniq - 1 ∧ s.nuniq - 1 ≤ 255

/-! ### The bit streams -/

/-- R190: what the sink has received after the PUT_BITs of a bit sequence, without and with FLUSH. -/
def Obligations.WriterLaw : Prop :=
  ∀ (s : State) (bits : List Bool), s.err = .ok → s.WriterInv → s.wcnt = 0 → ∃ t u bytes,
    execAll (bits.map .putBit) s = .next t ∧ exec .flush t = .next u ∧
    u.snk = s.snk ++ bytes ∧ bytes.length = (bits.length + 7) / 8 ∧
    (∀ j k (h : j < bytes.length), k < 8 →
      bytes[j].getLsbD (7 - k) = bits.getD (8 * j + k) false) ∧
    t.snk = s.snk ++ bytes.take (bits.length / 8) ∧ t.wcnt.toNat = bits.length % 8

/-- R194: the results of successive GET_BITs on a fresh reader, and how many bytes they have pulled. -/
def Obligations.ReaderLaw : Prop :=
  ∀ (s : State) (i : Nat), s.err = .ok → s.rcnt = 0 → s.reos = false → ∃ t,
    execAll (List.replicate (i + 1) .getBit) s = .next t ∧
    (∀ h : i / 8 < s.src.length, t.src = s.src.drop ((i + 1 + 7) / 8) ∧
      t.res = (BitVec.ofBool (s.src[i / 8].getLsbD (7 - i % 8))).setWidth 32) ∧
    (s.src.length ≤ i / 8 → t.src = [] ∧ t.res = 0x80000000#32)

/-! ### Encoder, decoder, container -/

/-- R220: what ENC_RUN and FLUSH append for a sequence of coded symbols, followed by any bytes, DEC_RUN
on a fresh reader with the same tree and REMAIN the length of the sequence decodes to that sequence,
without fault. -/
def Obligations.DecoderLaw : Prop :=
  ∀ e : State, e.Inv → e.Ready .treeOnly → e.wcnt = 0 → e.src.length < 2 ^ 32 →
    (∀ y ∈ e.src, tableAt e.freq y ≠ 0) → ∃ e' bytes,
    execAll [.encRun, .flush] e = .next e' ∧ e'.snk = e.snk ++ bytes ∧
    ∀ (d : State) (extra : List Byte), d.Inv → d.Ready .treeOnly → d.freq = e.freq →
      d.nodes = e.nodes → d.root = e.root → d.code = e.code → d.rcnt = 0 → d.reos = false →
      d.remain = BitVec.ofNat 32 e.src.length → d.src = bytes ++ extra → ∃ d',
      exec .decRun d = .next d' ∧ d'.snk = d.snk ++ e.src ∧ d'.err = .ok ∧ d'.remain = 0

/-- R231 and R67: the header's bytes, every field least significant byte first and each pair's count
after its byte value; the header's length; and a container read back field by field. -/
def Obligations.HeaderReadsBack : Prop :=
  ∀ (p : Config.Params) (total : Word) (n : BitVec 16) (pairs : List (Byte × Word))
    (payload : List Byte),
    headerBytes p total n pairs =
      (if p.magicEn then p.magicValue.toList else []) ++
      [total.extractLsb' 0 8, total.extractLsb' 8 8, total.extractLsb' 16 8, total.extractLsb' 24 8,
        n.extractLsb' 0 8, n.extractLsb' 8 8] ++
      pairs.flatMap (fun q => [q.1, q.2.extractLsb' 0 8, q.2.extractLsb' 8 8, q.2.extractLsb' 16 8,
        q.2.extractLsb' 24 8]) ∧
    (n.toNat = pairs.length → pairs ≠ [] →
      (headerBytes p total n pairs).length = (if p.magicEn then 4 else 0) + 6 + 5 * n.toNat ∧
      parseContainer p (headerBytes p total n pairs ++ payload) = .ok ⟨total, pairs, payload⟩)

/-- The host's reports (R238 to R244; log entries 14, 15 and 16 name the model's own readings).
Compressing an empty input is EmptyInputError, writes nothing to the sink and leaves the block reset.
The containers the host accepts are exactly those with the signature, the two counts and a whole
frequency table of at least one entry; for any other it reports FormatError and issues no command.
Where compress reads a STATUS with an error, after BUILD and at its end, and where decompress reads one
other than ERR_TRUNC at its end, it reports that error after RESET, as an internal error for the codes 5
to 10; at ERR_TRUNC decompress reports REMAIN as the mismatch; compress refuses an input with
TOTAL_HI ≠ 0. What a host does that meets an I/O failure is RESET and IOError; no sequence meets one. -/
def Obligations.HostReportsEmptyInputAndFormatErrors : Prop :=
  ∀ (p : Config.Params) (c : List Byte) (s : State),
    let m := if p.magicEn then 4 else 0
    let n := (c.getD (m + 4) 0).toNat + 256 * (c.getD (m + 5) 0).toNat
    ((∃ k, parseContainer p c = .ok k) ↔
      (p.magicEn = true → c.take 4 = p.magicValue.toList) ∧ m + 6 ≤ c.length ∧ n ≠ 0 ∧
        m + 6 + 5 * n ≤ c.length) ∧
    (∀ cause, parseContainer p c = .error cause → decompress p c s = .failed (.format cause) s) ∧
    compress p [] s = .failed .emptyInput
      { State.reset with snk := s.snk, host := s.host, resp := .written } ∧
    (∀ e : Err, 5 ≤ e.code.toNat → reportOf e.code = .internal e.code) ∧
    (∀ k t, parseContainer p c = .ok k → runMoves (decompressMoves k) s = .next t →
      (t.err = .ok → decompress p c s =
        .done (t.snk.drop s.snk.length) { t with resp := .data (readAt 0x0C t) }) ∧
      (t.err = .trunc → decompress p c s =
        .failed (.truncated t.remain) { t with resp := .data t.remain }) ∧
      (t.err ≠ .ok → t.err ≠ .trunc → decompress p c s =
        .failed (reportOf t.err.code) (Claims.afterReset t))) ∧
    (∀ count emit t, runMoves (issue .reset :: count ++ [issue .build]) s = .next t →
      (t.err ≠ .ok → compressBy p count emit s =
        .failed (reportOf t.err.code) (Claims.afterReset t)) ∧
      (t.err = .ok → readAt 0x18 t ≠ 0 → compressBy p count emit s =
        .failed .tooLong (Claims.afterReset t)) ∧
      (∀ u, t.err = .ok → readAt 0x18 t = 0 →
        runMoves (emit ++ [issue .flush])
          { t with res := tableAt t.freq 255, resp := .data (tableAt t.freq 255) } = .next u →
        u.err ≠ .ok → compressBy p count emit s =
          .failed (reportOf u.err.code) (Claims.afterReset u))) ∧
    (reportIo s : HostResult (List Byte)) = .failed .io (Claims.afterReset s)

/-- R233: a container that compress wrote has the input's length as its total, one pair for each distinct
byte in ascending order with its count, and a payload of the encoded length rounded up to bytes, its
bits beyond that length 0. -/
def Obligations.ContainerSizeAccounting : Prop :=
  ∀ (p : Config.Params) (input c : List Byte) (s t : State), compress p input s = .done c t →
    ∃ k, parseContainer p c = .ok k ∧ k.total.toNat = input.length ∧ 1 ≤ input.length ∧
      k.pairs = (allSyms.filter (· ∈ input)).map (fun y => (y, BitVec.ofNat 32 (input.count y))) ∧
      k.payload.length = (Claims.payloadBits t.code input + 7) / 8 ∧
      ∀ q, q < 8 * k.payload.length → Claims.payloadBits t.code input ≤ q →
        (k.payload.getD (q / 8) 0).getLsbD (7 - q % 8) = false

/-- R252: an input of one byte repeated K times compresses to a payload of ceil(K / 8) zero bytes, and
the container decodes to K copies of that byte. -/
def Obligations.DegenerateAlphabetPayload : Prop :=
  ∀ (p : Config.Params) (y : Byte) (k : Nat) (s : State), 1 ≤ k → k < 2 ^ 32 →
    let c := headerBytes p (BitVec.ofNat 32 k) 1 [(y, BitVec.ofNat 32 k)] ++
      List.replicate ((k + 7) / 8) 0
    (∃ t, compress p (List.replicate k y) s = .done c t) ∧
    ∃ t, decompress p c s = .done (List.replicate k y) t

/-- R250, the round-trip law: decompress of compress gives the input back, for every input of 1 to
2^32 − 1 bytes, with no fault, under the same parameters; compressing an empty input fails. -/
def Obligations.CompressThenDecompress : Prop :=
  ∀ (p : Config.Params) (input : List Byte) (s : State),
    (input ≠ [] → input.length < 2 ^ 32 →
      ∃ c t, compress p input s = .done c t ∧ t.err = .ok ∧
        ∀ s' : State, ∃ t', decompress p c s' = .done input t' ∧ t'.err = .ok) ∧
    (input = [] → ∃ t, compress p input s = .failed .emptyInput t)
end

