-- ==== Sys2Proof/Laws/State.lean ====
section
/-! SUPPORT. What each named update of the state does to each field, one lemma per field, so that no
proof unfolds a record update. -/

namespace Sys2Proof.Machine

/-! ### `raise` -/

@[simp] theorem raise_arg (e : Err) (s : State) : (raise e s).arg = s.arg := rfl
@[simp] theorem raise_res (e : Err) (s : State) : (raise e s).res = s.res := rfl
@[simp] theorem raise_phase (e : Err) (s : State) : (raise e s).phase = s.phase := rfl
@[simp] theorem raise_err (e : Err) (s : State) : (raise e s).err = e := rfl
@[simp] theorem raise_freq (e : Err) (s : State) : (raise e s).freq = s.freq := rfl
@[simp] theorem raise_nodes (e : Err) (s : State) : (raise e s).nodes = s.nodes := rfl
@[simp] theorem raise_root (e : Err) (s : State) : (raise e s).root = s.root := rfl
@[simp] theorem raise_heap (e : Err) (s : State) : (raise e s).heap = s.heap := rfl
@[simp] theorem raise_code (e : Err) (s : State) : (raise e s).code = s.code := rfl
@[simp] theorem raise_wacc (e : Err) (s : State) : (raise e s).wacc = s.wacc := rfl
@[simp] theorem raise_wcnt (e : Err) (s : State) : (raise e s).wcnt = s.wcnt := rfl
@[simp] theorem raise_rbuf (e : Err) (s : State) : (raise e s).rbuf = s.rbuf := rfl
@[simp] theorem raise_rcnt (e : Err) (s : State) : (raise e s).rcnt = s.rcnt := rfl
@[simp] theorem raise_reos (e : Err) (s : State) : (raise e s).reos = s.reos := rfl
@[simp] theorem raise_remain (e : Err) (s : State) : (raise e s).remain = s.remain := rfl
@[simp] theorem raise_snkCount (e : Err) (s : State) : (raise e s).snkCount = s.snkCount := rfl
@[simp] theorem raise_srcCount (e : Err) (s : State) : (raise e s).srcCount = s.srcCount := rfl
@[simp] theorem raise_src (e : Err) (s : State) : (raise e s).src = s.src := rfl
@[simp] theorem raise_snk (e : Err) (s : State) : (raise e s).snk = s.snk := rfl
@[simp] theorem raise_host (e : Err) (s : State) : (raise e s).host = s.host := rfl
@[simp] theorem raise_resp (e : Err) (s : State) : (raise e s).resp = s.resp := rfl

/-! ### `snkAppend` -/

@[simp] theorem snkAppend_arg (b : Byte) (s : State) : (snkAppend b s).arg = s.arg := rfl
@[simp] theorem snkAppend_res (b : Byte) (s : State) : (snkAppend b s).res = s.res := rfl
@[simp] theorem snkAppend_phase (b : Byte) (s : State) : (snkAppend b s).phase = s.phase := rfl
@[simp] theorem snkAppend_err (b : Byte) (s : State) : (snkAppend b s).err = s.err := rfl
@[simp] theorem snkAppend_freq (b : Byte) (s : State) : (snkAppend b s).freq = s.freq := rfl
@[simp] theorem snkAppend_nodes (b : Byte) (s : State) : (snkAppend b s).nodes = s.nodes := rfl
@[simp] theorem snkAppend_root (b : Byte) (s : State) : (snkAppend b s).root = s.root := rfl
@[simp] theorem snkAppend_heap (b : Byte) (s : State) : (snkAppend b s).heap = s.heap := rfl
@[simp] theorem snkAppend_code (b : Byte) (s : State) : (snkAppend b s).code = s.code := rfl
@[simp] theorem snkAppend_wacc (b : Byte) (s : State) : (snkAppend b s).wacc = s.wacc := rfl
@[simp] theorem snkAppend_wcnt (b : Byte) (s : State) : (snkAppend b s).wcnt = s.wcnt := rfl
@[simp] theorem snkAppend_rbuf (b : Byte) (s : State) : (snkAppend b s).rbuf = s.rbuf := rfl
@[simp] theorem snkAppend_rcnt (b : Byte) (s : State) : (snkAppend b s).rcnt = s.rcnt := rfl
@[simp] theorem snkAppend_reos (b : Byte) (s : State) : (snkAppend b s).reos = s.reos := rfl
@[simp] theorem snkAppend_remain (b : Byte) (s : State) : (snkAppend b s).remain = s.remain := rfl
@[simp] theorem snkAppend_snkCount (b : Byte) (s : State) : (snkAppend b s).snkCount = s.snkCount + 1 := rfl
@[simp] theorem snkAppend_srcCount (b : Byte) (s : State) : (snkAppend b s).srcCount = s.srcCount := rfl
@[simp] theorem snkAppend_src (b : Byte) (s : State) : (snkAppend b s).src = s.src := rfl
@[simp] theorem snkAppend_snk (b : Byte) (s : State) : (snkAppend b s).snk = s.snk ++ [b] := rfl
@[simp] theorem snkAppend_host (b : Byte) (s : State) : (snkAppend b s).host = s.host := rfl
@[simp] theorem snkAppend_resp (b : Byte) (s : State) : (snkAppend b s).resp = s.resp := rfl

/-! ### `resetBlock` -/

@[simp] theorem resetBlock_arg (s : State) : (resetBlock s).arg = 0 := rfl
@[simp] theorem resetBlock_res (s : State) : (resetBlock s).res = 0 := rfl
@[simp] theorem resetBlock_phase (s : State) : (resetBlock s).phase = .freq := rfl
@[simp] theorem resetBlock_err (s : State) : (resetBlock s).err = .ok := rfl
@[simp] theorem resetBlock_freq (s : State) : (resetBlock s).freq = Vector.replicate 256 0 := rfl
@[simp] theorem resetBlock_nodes (s : State) : (resetBlock s).nodes = [] := rfl
@[simp] theorem resetBlock_root (s : State) : (resetBlock s).root = 0 := rfl
@[simp] theorem resetBlock_heap (s : State) : (resetBlock s).heap = [] := rfl
@[simp] theorem resetBlock_code (s : State) : (resetBlock s).code = Vector.replicate 256 [] := rfl
@[simp] theorem resetBlock_wacc (s : State) : (resetBlock s).wacc = 0 := rfl
@[simp] theorem resetBlock_wcnt (s : State) : (resetBlock s).wcnt = 0 := rfl
@[simp] theorem resetBlock_rbuf (s : State) : (resetBlock s).rbuf = 0 := rfl
@[simp] theorem resetBlock_rcnt (s : State) : (resetBlock s).rcnt = 0 := rfl
@[simp] theorem resetBlock_reos (s : State) : (resetBlock s).reos = false := rfl
@[simp] theorem resetBlock_remain (s : State) : (resetBlock s).remain = 0 := rfl
@[simp] theorem resetBlock_snkCount (s : State) : (resetBlock s).snkCount = 0 := rfl
@[simp] theorem resetBlock_srcCount (s : State) : (resetBlock s).srcCount = 0 := rfl
@[simp] theorem resetBlock_src (s : State) : (resetBlock s).src = s.src := rfl
@[simp] theorem resetBlock_snk (s : State) : (resetBlock s).snk = s.snk := rfl
@[simp] theorem resetBlock_host (s : State) : (resetBlock s).host = s.host := rfl
@[simp] theorem resetBlock_resp (s : State) : (resetBlock s).resp = s.resp := rfl

/-! ### `clearTables` -/

@[simp] theorem clearTables_arg (s : State) : (clearTables s).arg = s.arg := rfl
@[simp] theorem clearTables_res (s : State) : (clearTables s).res = s.res := rfl
@[simp] theorem clearTables_phase (s : State) : (clearTables s).phase = .freq := rfl
@[simp] theorem clearTables_err (s : State) : (clearTables s).err = s.err := rfl
@[simp] theorem clearTables_freq (s : State) : (clearTables s).freq = Vector.replicate 256 0 := rfl
@[simp] theorem clearTables_nodes (s : State) : (clearTables s).nodes = [] := rfl
@[simp] theorem clearTables_root (s : State) : (clearTables s).root = 0 := rfl
@[simp] theorem clearTables_heap (s : State) : (clearTables s).heap = [] := rfl
@[simp] theorem clearTables_code (s : State) : (clearTables s).code = Vector.replicate 256 [] := rfl
@[simp] theorem clearTables_wacc (s : State) : (clearTables s).wacc = s.wacc := rfl
@[simp] theorem clearTables_wcnt (s : State) : (clearTables s).wcnt = s.wcnt := rfl
@[simp] theorem clearTables_rbuf (s : State) : (clearTables s).rbuf = s.rbuf := rfl
@[simp] theorem clearTables_rcnt (s : State) : (clearTables s).rcnt = s.rcnt := rfl
@[simp] theorem clearTables_reos (s : State) : (clearTables s).reos = s.reos := rfl
@[simp] theorem clearTables_remain (s : State) : (clearTables s).remain = s.remain := rfl
@[simp] theorem clearTables_snkCount (s : State) : (clearTables s).snkCount = s.snkCount := rfl
@[simp] theorem clearTables_srcCount (s : State) : (clearTables s).srcCount = s.srcCount := rfl
@[simp] theorem clearTables_src (s : State) : (clearTables s).src = s.src := rfl
@[simp] theorem clearTables_snk (s : State) : (clearTables s).snk = s.snk := rfl
@[simp] theorem clearTables_host (s : State) : (clearTables s).host = s.host := rfl
@[simp] theorem clearTables_resp (s : State) : (clearTables s).resp = s.resp := rfl

/-! ### `deliverBit` -/

@[simp] theorem deliverBit_arg (s : State) : ((deliverBit s).2).arg = s.arg := rfl
@[simp] theorem deliverBit_res (s : State) : ((deliverBit s).2).res = s.res := rfl
@[simp] theorem deliverBit_phase (s : State) : ((deliverBit s).2).phase = s.phase := rfl
@[simp] theorem deliverBit_err (s : State) : ((deliverBit s).2).err = s.err := rfl
@[simp] theorem deliverBit_freq (s : State) : ((deliverBit s).2).freq = s.freq := rfl
@[simp] theorem deliverBit_nodes (s : State) : ((deliverBit s).2).nodes = s.nodes := rfl
@[simp] theorem deliverBit_root (s : State) : ((deliverBit s).2).root = s.root := rfl
@[simp] theorem deliverBit_heap (s : State) : ((deliverBit s).2).heap = s.heap := rfl
@[simp] theorem deliverBit_code (s : State) : ((deliverBit s).2).code = s.code := rfl
@[simp] theorem deliverBit_wacc (s : State) : ((deliverBit s).2).wacc = s.wacc := rfl
@[simp] theorem deliverBit_wcnt (s : State) : ((deliverBit s).2).wcnt = s.wcnt := rfl
@[simp] theorem deliverBit_rbuf (s : State) : ((deliverBit s).2).rbuf = s.rbuf := rfl
@[simp] theorem deliverBit_rcnt (s : State) : ((deliverBit s).2).rcnt = ⟨s.rcnt.val - 1, Nat.lt_of_le_of_lt (Nat.sub_le _ _) s.rcnt.isLt⟩ := rfl
@[simp] theorem deliverBit_reos (s : State) : ((deliverBit s).2).reos = s.reos := rfl
@[simp] theorem deliverBit_remain (s : State) : ((deliverBit s).2).remain = s.remain := rfl
@[simp] theorem deliverBit_snkCount (s : State) : ((deliverBit s).2).snkCount = s.snkCount := rfl
@[simp] theorem deliverBit_srcCount (s : State) : ((deliverBit s).2).srcCount = s.srcCount := rfl
@[simp] theorem deliverBit_src (s : State) : ((deliverBit s).2).src = s.src := rfl
@[simp] theorem deliverBit_snk (s : State) : ((deliverBit s).2).snk = s.snk := rfl
@[simp] theorem deliverBit_host (s : State) : ((deliverBit s).2).host = s.host := rfl
@[simp] theorem deliverBit_resp (s : State) : ((deliverBit s).2).resp = s.resp := rfl

@[simp] theorem deliverBit_fst (s : State) :
    (deliverBit s).1 = some (s.rbuf.getLsbD (s.rcnt.val - 1)) := rfl

end Sys2Proof.Machine
end

