-- ==== Sys2Proof/Laws/Ops.lean ====
section
/-! SUPPORT. The shared operations: tables, bits, the source pull, and the frame around a command. -/

namespace Sys2Proof.Machine

/-! ### Tables and bits -/

@[simp] theorem tableAt_tablePut_self {α : Type} (t : Vector α 256) (y : Byte) (v : α) :
    tableAt (tablePut t y v) y = v := by
  simp [tableAt, tablePut]

theorem tableAt_tablePut_of_ne {α : Type} (t : Vector α 256) {y z : Byte} (v : α) (h : z ≠ y) :
    tableAt (tablePut t y v) z = tableAt t z := by
  have : y.toNat ≠ z.toNat := fun e => h (BitVec.eq_of_toNat_eq e.symm)
  simp [tableAt, tablePut, this]

theorem tableAt_tablePut {α : Type} (t : Vector α 256) (y z : Byte) (v : α) :
    tableAt (tablePut t y v) z = if z = y then v else tableAt t z := by
  split
  · next h => rw [h, tableAt_tablePut_self]
  · next h => exact tableAt_tablePut_of_ne t v h

@[simp] theorem tableAt_replicate {α : Type} (v : α) (y : Byte) :
    tableAt (Vector.replicate 256 v) y = v := by
  simp [tableAt]

/-- Two tables that agree at every symbol are equal. -/
theorem table_ext {α : Type} {t u : Vector α 256} (h : ∀ y, tableAt t y = tableAt u y) : t = u := by
  ext i hi
  have := h (BitVec.ofNat 8 i)
  simpa [tableAt, Nat.mod_eq_of_lt hi] using this

theorem getLsbD_assignBit {w : Nat} (v : BitVec w) (i k : Nat) (b : Bool) (hi : i < w) :
    (assignBit v i b).getLsbD k = if k = i then b else v.getLsbD k := by
  rcases eq_or_ne k i with rfl | hk
  · cases b <;> simp [assignBit, hi]
  · by_cases hw : k < w
    · cases b <;> simp [assignBit, hk, hw]
    · rw [BitVec.getLsbD_of_ge _ _ (by omega), if_neg hk, BitVec.getLsbD_of_ge _ _ (by omega)]

theorem mem_allSyms (y : Byte) : y ∈ allSyms :=
  List.mem_map.2 ⟨y.toNat, List.mem_range.2 y.isLt, by simp⟩

theorem nodup_allSyms : allSyms.Nodup := by
  refine (List.nodup_map_iff_inj_on List.nodup_range).2 fun a ha b hb h => ?_
  have := congrArg BitVec.toNat h
  simpa [Nat.mod_eq_of_lt (List.mem_range.1 ha), Nat.mod_eq_of_lt (List.mem_range.1 hb)] using this

theorem mem_uniqueSyms (f : Vector Word 256) (y : Byte) : y ∈ uniqueSyms f ↔ tableAt f y ≠ 0 := by
  simp [uniqueSyms, mem_allSyms]

theorem nodup_uniqueSyms (f : Vector Word 256) : (uniqueSyms f).Nodup := nodup_allSyms.filter _

/-- NUNIQ is at most 256 (R31). -/
theorem nuniq_le (s : State) : s.nuniq ≤ 256 := by
  simpa [State.nuniq, uniqueSyms, allSyms] using
    List.length_filter_le (fun y => decide (tableAt s.freq y ≠ 0)) allSyms

/-! ### Counters -/

/-- A counter that counted `m` and then `n` bytes counted `m + n` (R37, R38). -/
theorem count_add (c : Word) (m n : Nat) :
    c + BitVec.ofNat 32 m + BitVec.ofNat 32 n = c + BitVec.ofNat 32 (m + n) := by
  rw [BitVec.add_assoc, BitVec.ofNat_add]

theorem count_succ (c : Word) (n : Nat) :
    c + 1 + BitVec.ofNat 32 n = c + BitVec.ofNat 32 (n + 1) := by
  rw [Nat.add_comm n 1]
  exact count_add c 1 n

/-! ### The source -/

theorem srcPull_nil {s : State} (h : s.src = []) : srcPull s = (none, s) := by simp [srcPull, h]

theorem srcPull_cons {s : State} {b : Byte} {rest : List Byte} (h : s.src = b :: rest) :
    srcPull s = (some b, { s with src := rest, srcCount := s.srcCount + 1 }) := by
  simp [srcPull, h]

/-! ### Procedures and commands -/

@[simp] theorem Res.bind_ret {α β : Type} (v : α) (s : State) (k : α → State → Res β) :
    (Res.ret v s).bind k = k v s := rfl
@[simp] theorem Res.bind_raised {α β : Type} (e : Err) (s : State) (k : α → State → Res β) :
    (Res.raised e s : Res α).bind k = .raised e s := rfl
@[simp] theorem Res.bind_stuck {α β : Type} (f : Fault) (k : α → State → Res β) :
    (Res.stuck f : Res α).bind k = .stuck f := rfl

@[simp] theorem finish_ret (v : Word) (s : State) : finish (.ret v s) = .next { s with res := v } := rfl
@[simp] theorem finish_raised (e : Err) (s : State) : finish (.raised e s) = .next (raise e s) := rfl
@[simp] theorem finish_stuck (f : Fault) : finish (.stuck f) = .fault f := rfl

theorem command_faulted {adm : Admission} {body : State → Res Word} {s : State} (h : s.err ≠ .ok) :
    command adm body s = .next s := by simp [command, h]

theorem command_outOfPhase {adm : Admission} {body : State → Res Word} {s : State} (h : s.err = .ok)
    (ha : adm.admits s.phase = false) : command adm body s = .next (raise .phase s) := by
  simp [command, h, ha]

theorem command_run {adm : Admission} {body : State → Res Word} {s : State} (h : s.err = .ok)
    (ha : adm.admits s.phase = true) : command adm body s = finish (body s) := by
  simp [command, h, ha]

/-- Everything a command that answers a next state can have done (R272, R273, R274, R275). -/
theorem command_cases {adm : Admission} {body : State → Res Word} {s t : State}
    (h : command adm body s = .next t) :
    (s.err ≠ .ok ∧ t = s) ∨
    (s.err = .ok ∧ adm.admits s.phase = false ∧ t = raise .phase s) ∨
    (s.err = .ok ∧ adm.admits s.phase = true ∧ ∃ v u, body s = .ret v u ∧ t = { u with res := v }) ∨
    (s.err = .ok ∧ adm.admits s.phase = true ∧ ∃ e u, body s = .raised e u ∧ t = raise e u) := by
  by_cases he : s.err = .ok
  · cases ha : adm.admits s.phase with
    | false =>
      rw [command_outOfPhase he ha] at h
      exact .inr (.inl ⟨he, rfl, by injection h with h; exact h.symm⟩)
    | true =>
      rw [command_run he ha] at h
      cases hb : body s with
      | ret v u =>
        rw [hb] at h
        exact .inr (.inr (.inl ⟨he, rfl, v, u, rfl, by injection h with h; exact h.symm⟩))
      | raised e u =>
        rw [hb] at h
        exact .inr (.inr (.inr ⟨he, rfl, e, u, rfl, by injection h with h; exact h.symm⟩))
      | stuck f => rw [hb] at h; cases h
  · rw [command_faulted he] at h
    exact .inl ⟨he, by injection h with h; exact h.symm⟩

/-- What an illegal word does (R95, R273). -/
theorem illegalWord_eq (s : State) :
    illegalWord s = .next { s with err := if s.err = .ok then .illegal else s.err } := by
  by_cases h : s.err = .ok <;> simp [illegalWord, h, raise]

end Sys2Proof.Machine
end

