-- ==== Sys2Proof/Laws/BitStream.lean ====
section
/-! SUPPORT. The bit engines: what one put, a flush and one get can do (R187, R189, R192). -/

namespace Sys2Proof.Machine

/-! ### Writer -/

/-- A put changes the writer and the sink alone (R187). -/
theorem putBit_form (b : Bool) (s : State) : ∃ a n k,
    putBit b s = { s with wacc := a, wcnt := n, snk := s.snk ++ k,
                          snkCount := s.snkCount + BitVec.ofNat 32 k.length } := by
  by_cases h : s.wcnt = 7#3
  · exact ⟨0, 0, [assignBit s.wacc (7 - s.wcnt.toNat) b], by simp [putBit, h, snkAppend]⟩
  · exact ⟨assignBit s.wacc (7 - s.wcnt.toNat) b, s.wcnt + 1, [], by simp [putBit, h]⟩

/-- A put keeps the writer invariant (R44). -/
theorem putBit_writerInv (b : Bool) {s : State} (hs : s.WriterInv) : (putBit b s).WriterInv := by
  intro k hk
  by_cases h : s.wcnt = 7#3
  · simp [putBit, h]
  · have hn : s.wcnt.toNat < 7 := by
      have := s.wcnt.isLt
      have : s.wcnt.toNat ≠ 7 := fun e => h (BitVec.eq_of_toNat_eq e)
      omega
    have hk' : k + (s.wcnt.toNat + 1) < 8 := by
      have e : (s.wcnt + 1#3).toNat = s.wcnt.toNat + 1 := by
        rw [BitVec.toNat_add]; simp; omega
      simpa [putBit, h, e] using hk
    have hw := hs k (by omega)
    simp only [putBit, h, if_false]
    rw [getLsbD_assignBit _ _ _ _ (by omega), if_neg (by omega), hw]

@[simp] theorem putBits_nil (s : State) : putBits [] s = s := rfl
@[simp] theorem putBits_cons (b : Bool) (bs : List Bool) (s : State) :
    putBits (b :: bs) s = putBits bs (putBit b s) := rfl
theorem putBits_append (as bs : List Bool) (s : State) :
    putBits (as ++ bs) s = putBits bs (putBits as s) := List.foldl_append

/-- Puts change the writer and the sink alone. -/
theorem putBits_form (bs : List Bool) (s : State) : ∃ a n k,
    putBits bs s = { s with wacc := a, wcnt := n, snk := s.snk ++ k,
                            snkCount := s.snkCount + BitVec.ofNat 32 k.length } := by
  induction bs generalizing s with
  | nil => exact ⟨s.wacc, s.wcnt, [], by simp⟩
  | cons b bs ih =>
    obtain ⟨a, n, k, h⟩ := putBit_form b s
    obtain ⟨a', n', k', h'⟩ := ih (putBit b s)
    refine ⟨a', n', k ++ k', ?_⟩
    rw [putBits_cons, h', h]
    simp [BitVec.ofNat_add, BitVec.add_assoc]

theorem putBits_writerInv (bs : List Bool) {s : State} (hs : s.WriterInv) :
    (putBits bs s).WriterInv := by
  induction bs generalizing s with
  | nil => exact hs
  | cons b bs ih => exact ih (putBit_writerInv b hs)

/-- A flush changes the writer and the sink alone (R189). -/
theorem flushWriter_form (s : State) : ∃ a n k,
    flushWriter s = { s with wacc := a, wcnt := n, snk := s.snk ++ k,
                             snkCount := s.snkCount + BitVec.ofNat 32 k.length } := by
  by_cases h : s.wcnt = 0#3
  · exact ⟨s.wacc, s.wcnt, [], by rw [flushWriter, if_pos h]; simp⟩
  · exact ⟨0, 0, [s.wacc], by simp [flushWriter, h, snkAppend]⟩

/-- A flush keeps the writer invariant. -/
theorem flushWriter_writerInv {s : State} (hs : s.WriterInv) : (flushWriter s).WriterInv := by
  by_cases h : s.wcnt = 0#3
  · simpa [flushWriter, h] using hs
  · intro k _
    simp [flushWriter, h]

/-! ### What the writer leaves alone -/

@[simp] theorem putBit_arg (b : Bool) (s : State) : (putBit b s).arg = s.arg := by
  obtain ⟨_, _, _, h⟩ := putBit_form b s; rw [h]
@[simp] theorem putBit_res (b : Bool) (s : State) : (putBit b s).res = s.res := by
  obtain ⟨_, _, _, h⟩ := putBit_form b s; rw [h]
@[simp] theorem putBit_phase (b : Bool) (s : State) : (putBit b s).phase = s.phase := by
  obtain ⟨_, _, _, h⟩ := putBit_form b s; rw [h]
@[simp] theorem putBit_err (b : Bool) (s : State) : (putBit b s).err = s.err := by
  obtain ⟨_, _, _, h⟩ := putBit_form b s; rw [h]
@[simp] theorem putBit_freq (b : Bool) (s : State) : (putBit b s).freq = s.freq := by
  obtain ⟨_, _, _, h⟩ := putBit_form b s; rw [h]
@[simp] theorem putBit_nodes (b : Bool) (s : State) : (putBit b s).nodes = s.nodes := by
  obtain ⟨_, _, _, h⟩ := putBit_form b s; rw [h]
@[simp] theorem putBit_root (b : Bool) (s : State) : (putBit b s).root = s.root := by
  obtain ⟨_, _, _, h⟩ := putBit_form b s; rw [h]
@[simp] theorem putBit_heap (b : Bool) (s : State) : (putBit b s).heap = s.heap := by
  obtain ⟨_, _, _, h⟩ := putBit_form b s; rw [h]
@[simp] theorem putBit_code (b : Bool) (s : State) : (putBit b s).code = s.code := by
  obtain ⟨_, _, _, h⟩ := putBit_form b s; rw [h]
@[simp] theorem putBit_rbuf (b : Bool) (s : State) : (putBit b s).rbuf = s.rbuf := by
  obtain ⟨_, _, _, h⟩ := putBit_form b s; rw [h]
@[simp] theorem putBit_rcnt (b : Bool) (s : State) : (putBit b s).rcnt = s.rcnt := by
  obtain ⟨_, _, _, h⟩ := putBit_form b s; rw [h]
@[simp] theorem putBit_reos (b : Bool) (s : State) : (putBit b s).reos = s.reos := by
  obtain ⟨_, _, _, h⟩ := putBit_form b s; rw [h]
@[simp] theorem putBit_remain (b : Bool) (s : State) : (putBit b s).remain = s.remain := by
  obtain ⟨_, _, _, h⟩ := putBit_form b s; rw [h]
@[simp] theorem putBit_srcCount (b : Bool) (s : State) : (putBit b s).srcCount = s.srcCount := by
  obtain ⟨_, _, _, h⟩ := putBit_form b s; rw [h]
@[simp] theorem putBit_src (b : Bool) (s : State) : (putBit b s).src = s.src := by
  obtain ⟨_, _, _, h⟩ := putBit_form b s; rw [h]
@[simp] theorem putBit_host (b : Bool) (s : State) : (putBit b s).host = s.host := by
  obtain ⟨_, _, _, h⟩ := putBit_form b s; rw [h]
@[simp] theorem putBit_resp (b : Bool) (s : State) : (putBit b s).resp = s.resp := by
  obtain ⟨_, _, _, h⟩ := putBit_form b s; rw [h]

@[simp] theorem putBits_arg (bs : List Bool) (s : State) : (putBits bs s).arg = s.arg := by
  obtain ⟨_, _, _, h⟩ := putBits_form bs s; rw [h]
@[simp] theorem putBits_res (bs : List Bool) (s : State) : (putBits bs s).res = s.res := by
  obtain ⟨_, _, _, h⟩ := putBits_form bs s; rw [h]
@[simp] theorem putBits_phase (bs : List Bool) (s : State) : (putBits bs s).phase = s.phase := by
  obtain ⟨_, _, _, h⟩ := putBits_form bs s; rw [h]
@[simp] theorem putBits_err (bs : List Bool) (s : State) : (putBits bs s).err = s.err := by
  obtain ⟨_, _, _, h⟩ := putBits_form bs s; rw [h]
@[simp] theorem putBits_freq (bs : List Bool) (s : State) : (putBits bs s).freq = s.freq := by
  obtain ⟨_, _, _, h⟩ := putBits_form bs s; rw [h]
@[simp] theorem putBits_nodes (bs : List Bool) (s : State) : (putBits bs s).nodes = s.nodes := by
  obtain ⟨_, _, _, h⟩ := putBits_form bs s; rw [h]
@[simp] theorem putBits_root (bs : List Bool) (s : State) : (putBits bs s).root = s.root := by
  obtain ⟨_, _, _, h⟩ := putBits_form bs s; rw [h]
@[simp] theorem putBits_heap (bs : List Bool) (s : State) : (putBits bs s).heap = s.heap := by
  obtain ⟨_, _, _, h⟩ := putBits_form bs s; rw [h]
@[simp] theorem putBits_code (bs : List Bool) (s : State) : (putBits bs s).code = s.code := by
  obtain ⟨_, _, _, h⟩ := putBits_form bs s; rw [h]
@[simp] theorem putBits_rbuf (bs : List Bool) (s : State) : (putBits bs s).rbuf = s.rbuf := by
  obtain ⟨_, _, _, h⟩ := putBits_form bs s; rw [h]
@[simp] theorem putBits_rcnt (bs : List Bool) (s : State) : (putBits bs s).rcnt = s.rcnt := by
  obtain ⟨_, _, _, h⟩ := putBits_form bs s; rw [h]
@[simp] theorem putBits_reos (bs : List Bool) (s : State) : (putBits bs s).reos = s.reos := by
  obtain ⟨_, _, _, h⟩ := putBits_form bs s; rw [h]
@[simp] theorem putBits_remain (bs : List Bool) (s : State) : (putBits bs s).remain = s.remain := by
  obtain ⟨_, _, _, h⟩ := putBits_form bs s; rw [h]
@[simp] theorem putBits_srcCount (bs : List Bool) (s : State) : (putBits bs s).srcCount = s.srcCount := by
  obtain ⟨_, _, _, h⟩ := putBits_form bs s; rw [h]
@[simp] theorem putBits_src (bs : List Bool) (s : State) : (putBits bs s).src = s.src := by
  obtain ⟨_, _, _, h⟩ := putBits_form bs s; rw [h]
@[simp] theorem putBits_host (bs : List Bool) (s : State) : (putBits bs s).host = s.host := by
  obtain ⟨_, _, _, h⟩ := putBits_form bs s; rw [h]
@[simp] theorem putBits_resp (bs : List Bool) (s : State) : (putBits bs s).resp = s.resp := by
  obtain ⟨_, _, _, h⟩ := putBits_form bs s; rw [h]

@[simp] theorem flushWriter_arg (s : State) : (flushWriter s).arg = s.arg := by
  obtain ⟨_, _, _, h⟩ := flushWriter_form s; rw [h]
@[simp] theorem flushWriter_res (s : State) : (flushWriter s).res = s.res := by
  obtain ⟨_, _, _, h⟩ := flushWriter_form s; rw [h]
@[simp] theorem flushWriter_phase (s : State) : (flushWriter s).phase = s.phase := by
  obtain ⟨_, _, _, h⟩ := flushWriter_form s; rw [h]
@[simp] theorem flushWriter_err (s : State) : (flushWriter s).err = s.err := by
  obtain ⟨_, _, _, h⟩ := flushWriter_form s; rw [h]
@[simp] theorem flushWriter_freq (s : State) : (flushWriter s).freq = s.freq := by
  obtain ⟨_, _, _, h⟩ := flushWriter_form s; rw [h]
@[simp] theorem flushWriter_nodes (s : State) : (flushWriter s).nodes = s.nodes := by
  obtain ⟨_, _, _, h⟩ := flushWriter_form s; rw [h]
@[simp] theorem flushWriter_root (s : State) : (flushWriter s).root = s.root := by
  obtain ⟨_, _, _, h⟩ := flushWriter_form s; rw [h]
@[simp] theorem flushWriter_heap (s : State) : (flushWriter s).heap = s.heap := by
  obtain ⟨_, _, _, h⟩ := flushWriter_form s; rw [h]
@[simp] theorem flushWriter_code (s : State) : (flushWriter s).code = s.code := by
  obtain ⟨_, _, _, h⟩ := flushWriter_form s; rw [h]
@[simp] theorem flushWriter_rbuf (s : State) : (flushWriter s).rbuf = s.rbuf := by
  obtain ⟨_, _, _, h⟩ := flushWriter_form s; rw [h]
@[simp] theorem flushWriter_rcnt (s : State) : (flushWriter s).rcnt = s.rcnt := by
  obtain ⟨_, _, _, h⟩ := flushWriter_form s; rw [h]
@[simp] theorem flushWriter_reos (s : State) : (flushWriter s).reos = s.reos := by
  obtain ⟨_, _, _, h⟩ := flushWriter_form s; rw [h]
@[simp] theorem flushWriter_remain (s : State) : (flushWriter s).remain = s.remain := by
  obtain ⟨_, _, _, h⟩ := flushWriter_form s; rw [h]
@[simp] theorem flushWriter_srcCount (s : State) : (flushWriter s).srcCount = s.srcCount := by
  obtain ⟨_, _, _, h⟩ := flushWriter_form s; rw [h]
@[simp] theorem flushWriter_src (s : State) : (flushWriter s).src = s.src := by
  obtain ⟨_, _, _, h⟩ := flushWriter_form s; rw [h]
@[simp] theorem flushWriter_host (s : State) : (flushWriter s).host = s.host := by
  obtain ⟨_, _, _, h⟩ := flushWriter_form s; rw [h]
@[simp] theorem flushWriter_resp (s : State) : (flushWriter s).resp = s.resp := by
  obtain ⟨_, _, _, h⟩ := flushWriter_form s; rw [h]

/-! ### Reader -/

/-- The four cases of `get_bit()` (R192). -/
theorem getBit_buffered {s : State} (h : s.rcnt ≠ 0) : getBit s = deliverBit s := by
  simp [getBit, h]

theorem getBit_latched {s : State} (h : s.rcnt = 0) (he : s.reos = true) : getBit s = (none, s) := by
  simp [getBit, h, he]

theorem getBit_eos {s : State} (h : s.rcnt = 0) (he : s.reos = false) (hs : s.src = []) :
    getBit s = (none, { s with reos := true }) := by
  simp [getBit, h, he, srcPull_nil hs]

theorem getBit_pull {s : State} {v : Byte} {rest : List Byte} (h : s.rcnt = 0) (he : s.reos = false)
    (hs : s.src = v :: rest) :
    getBit s = deliverBit
      { s with src := rest, srcCount := s.srcCount + 1, rbuf := v, rcnt := 8 } := by
  simp [getBit, h, he, srcPull_cons hs]

/-- A get changes the reader and the source alone; it has pulled at most one byte. -/
theorem getBit_form (s : State) : ∃ b n e pulled rest, s.src = pulled ++ rest ∧
    (getBit s).2 = { s with rbuf := b, rcnt := n, reos := e, src := rest,
                            srcCount := s.srcCount + BitVec.ofNat 32 pulled.length } := by
  by_cases h : s.rcnt = 0
  · cases he : s.reos with
    | true => exact ⟨s.rbuf, s.rcnt, true, [], s.src, rfl, by simp [getBit_latched h he, ← he]⟩
    | false =>
      cases hs : s.src with
      | nil => exact ⟨s.rbuf, s.rcnt, true, [], [], rfl, by rw [getBit_eos h he hs]; simp [hs]⟩
      | cons v rest =>
        exact ⟨v, 7, s.reos, [v], rest, rfl, by rw [getBit_pull h he hs]; rfl⟩
  · exact ⟨s.rbuf, _, s.reos, [], s.src, rfl, by rw [getBit_buffered h]; simp [deliverBit]; rfl⟩

/-! ### What the reader leaves alone -/

@[simp] theorem getBit_arg (s : State) : ((getBit s).2).arg = s.arg := by
  obtain ⟨_, _, _, _, _, _, h⟩ := getBit_form s; rw [h]
@[simp] theorem getBit_res (s : State) : ((getBit s).2).res = s.res := by
  obtain ⟨_, _, _, _, _, _, h⟩ := getBit_form s; rw [h]
@[simp] theorem getBit_phase (s : State) : ((getBit s).2).phase = s.phase := by
  obtain ⟨_, _, _, _, _, _, h⟩ := getBit_form s; rw [h]
@[simp] theorem getBit_err (s : State) : ((getBit s).2).err = s.err := by
  obtain ⟨_, _, _, _, _, _, h⟩ := getBit_form s; rw [h]
@[simp] theorem getBit_freq (s : State) : ((getBit s).2).freq = s.freq := by
  obtain ⟨_, _, _, _, _, _, h⟩ := getBit_form s; rw [h]
@[simp] theorem getBit_nodes (s : State) : ((getBit s).2).nodes = s.nodes := by
  obtain ⟨_, _, _, _, _, _, h⟩ := getBit_form s; rw [h]
@[simp] theorem getBit_root (s : State) : ((getBit s).2).root = s.root := by
  obtain ⟨_, _, _, _, _, _, h⟩ := getBit_form s; rw [h]
@[simp] theorem getBit_heap (s : State) : ((getBit s).2).heap = s.heap := by
  obtain ⟨_, _, _, _, _, _, h⟩ := getBit_form s; rw [h]
@[simp] theorem getBit_code (s : State) : ((getBit s).2).code = s.code := by
  obtain ⟨_, _, _, _, _, _, h⟩ := getBit_form s; rw [h]
@[simp] theorem getBit_wacc (s : State) : ((getBit s).2).wacc = s.wacc := by
  obtain ⟨_, _, _, _, _, _, h⟩ := getBit_form s; rw [h]
@[simp] theorem getBit_wcnt (s : State) : ((getBit s).2).wcnt = s.wcnt := by
  obtain ⟨_, _, _, _, _, _, h⟩ := getBit_form s; rw [h]
@[simp] theorem getBit_remain (s : State) : ((getBit s).2).remain = s.remain := by
  obtain ⟨_, _, _, _, _, _, h⟩ := getBit_form s; rw [h]
@[simp] theorem getBit_snkCount (s : State) : ((getBit s).2).snkCount = s.snkCount := by
  obtain ⟨_, _, _, _, _, _, h⟩ := getBit_form s; rw [h]
@[simp] theorem getBit_snk (s : State) : ((getBit s).2).snk = s.snk := by
  obtain ⟨_, _, _, _, _, _, h⟩ := getBit_form s; rw [h]
@[simp] theorem getBit_host (s : State) : ((getBit s).2).host = s.host := by
  obtain ⟨_, _, _, _, _, _, h⟩ := getBit_form s; rw [h]
@[simp] theorem getBit_resp (s : State) : ((getBit s).2).resp = s.resp := by
  obtain ⟨_, _, _, _, _, _, h⟩ := getBit_form s; rw [h]

@[simp] theorem skipBits_arg (n : Nat) (s : State) : (skipBits n s).arg = s.arg := by
  induction n generalizing s with
  | zero => rfl
  | succ n ih => rw [skipBits, ih, getBit_arg]
@[simp] theorem skipBits_res (n : Nat) (s : State) : (skipBits n s).res = s.res := by
  induction n generalizing s with
  | zero => rfl
  | succ n ih => rw [skipBits, ih, getBit_res]
@[simp] theorem skipBits_phase (n : Nat) (s : State) : (skipBits n s).phase = s.phase := by
  induction n generalizing s with
  | zero => rfl
  | succ n ih => rw [skipBits, ih, getBit_phase]
@[simp] theorem skipBits_err (n : Nat) (s : State) : (skipBits n s).err = s.err := by
  induction n generalizing s with
  | zero => rfl
  | succ n ih => rw [skipBits, ih, getBit_err]
@[simp] theorem skipBits_freq (n : Nat) (s : State) : (skipBits n s).freq = s.freq := by
  induction n generalizing s with
  | zero => rfl
  | succ n ih => rw [skipBits, ih, getBit_freq]
@[simp] theorem skipBits_nodes (n : Nat) (s : State) : (skipBits n s).nodes = s.nodes := by
  induction n generalizing s with
  | zero => rfl
  | succ n ih => rw [skipBits, ih, getBit_nodes]
@[simp] theorem skipBits_root (n : Nat) (s : State) : (skipBits n s).root = s.root := by
  induction n generalizing s with
  | zero => rfl
  | succ n ih => rw [skipBits, ih, getBit_root]
@[simp] theorem skipBits_heap (n : Nat) (s : State) : (skipBits n s).heap = s.heap := by
  induction n generalizing s with
  | zero => rfl
  | succ n ih => rw [skipBits, ih, getBit_heap]
@[simp] theorem skipBits_code (n : Nat) (s : State) : (skipBits n s).code = s.code := by
  induction n generalizing s with
  | zero => rfl
  | succ n ih => rw [skipBits, ih, getBit_code]
@[simp] theorem skipBits_wacc (n : Nat) (s : State) : (skipBits n s).wacc = s.wacc := by
  induction n generalizing s with
  | zero => rfl
  | succ n ih => rw [skipBits, ih, getBit_wacc]
@[simp] theorem skipBits_wcnt (n : Nat) (s : State) : (skipBits n s).wcnt = s.wcnt := by
  induction n generalizing s with
  | zero => rfl
  | succ n ih => rw [skipBits, ih, getBit_wcnt]
@[simp] theorem skipBits_remain (n : Nat) (s : State) : (skipBits n s).remain = s.remain := by
  induction n generalizing s with
  | zero => rfl
  | succ n ih => rw [skipBits, ih, getBit_remain]
@[simp] theorem skipBits_snkCount (n : Nat) (s : State) : (skipBits n s).snkCount = s.snkCount := by
  induction n generalizing s with
  | zero => rfl
  | succ n ih => rw [skipBits, ih, getBit_snkCount]
@[simp] theorem skipBits_snk (n : Nat) (s : State) : (skipBits n s).snk = s.snk := by
  induction n generalizing s with
  | zero => rfl
  | succ n ih => rw [skipBits, ih, getBit_snk]
@[simp] theorem skipBits_host (n : Nat) (s : State) : (skipBits n s).host = s.host := by
  induction n generalizing s with
  | zero => rfl
  | succ n ih => rw [skipBits, ih, getBit_host]
@[simp] theorem skipBits_resp (n : Nat) (s : State) : (skipBits n s).resp = s.resp := by
  induction n generalizing s with
  | zero => rfl
  | succ n ih => rw [skipBits, ih, getBit_resp]

theorem bufferedBits_length (s : State) : (bufferedBits s).length = s.rcnt.val := by
  simp [bufferedBits]

theorem byteBits_length (v : Byte) : (byteBits v).length = 8 := by simp [byteBits]

/-- The bits the reader will deliver are at most `bitsLeft`. -/
theorem readerBits_length_le (s : State) : (readerBits s).length ≤ bitsLeft s := by
  have : ∀ l : List Byte, (l.flatMap byteBits).length = 8 * l.length := fun l => by
    induction l with
    | nil => rfl
    | cons v l ih => simp [ih, byteBits_length]; omega
  cases h : s.reos <;> simp [readerBits, bitsLeft, bufferedBits_length, h, this]

/-- A buffered bit is the first of those the buffer holds. -/
theorem bufferedBits_deliver {s : State} (h : s.rcnt ≠ 0) :
    bufferedBits s = s.rbuf.getLsbD (s.rcnt.val - 1) :: bufferedBits (deliverBit s).2 := by
  obtain ⟨n, hn⟩ : ∃ n, s.rcnt.val = n + 1 :=
    Nat.exists_eq_succ_of_ne_zero fun e => h (Fin.ext e)
  simp only [bufferedBits, deliverBit_rcnt, deliverBit_rbuf, hn, List.range_succ_eq_map]
  simp [List.map_map, Function.comp_def, Nat.sub_sub, Nat.add_comm]

/-- The reader's bits after a get are those before it without the first, which it returned; with none
left it answered `eos`, and it will answer `eos` for ever (R192, R194). -/
theorem getBit_readerBits (s : State) :
    (getBit s).1 = (readerBits s).head? ∧ readerBits (getBit s).2 = (readerBits s).tail := by
  by_cases h : s.rcnt = 0
  · have hb : bufferedBits s = [] := by simp [bufferedBits, h]
    cases he : s.reos with
    | true => simp [getBit_latched h he, readerBits, hb, he]
    | false =>
      cases hs : s.src with
      | nil => simp [getBit_eos h he hs, readerBits, bufferedBits, h, he, hs]
      | cons v rest =>
        rw [getBit_pull h he hs]
        simp [readerBits, hb, he, hs]
        simp [bufferedBits, byteBits, List.range_succ_eq_map]
  · rw [getBit_buffered h]
    simp only [readerBits, bufferedBits_deliver h]
    exact ⟨rfl, rfl⟩

end Sys2Proof.Machine
end

