-- ==== Sys2Proof/Laws/CodeWriterReader.lean ====
section
/-! SUPPORT. The code writer and reader: what `put_sym`, `dec_sym` and the two loops can do
(R212, R213, R216, R218). -/

namespace Sys2Proof.Machine

/-! ### Writer -/

theorem putSym_noCode {y : Byte} {s : State} (h : tableAt s.code y = []) :
    putSym y s = .raised .noCode s := by simp [putSym, h]

theorem putSym_ok {y : Byte} {s : State} (h : tableAt s.code y ≠ []) :
    putSym y s = .ret () (putBits (tableAt s.code y) s) := by simp [putSym, h]

/-- The loop of ENC_RUN is the pseudocode's: pull, stop at `eos`, else write the code and go on
(R213). -/
theorem encLoop_unfold (s : State) :
    encLoop s.src s =
      match srcPull s with
      | (none, s) => .ret 0 s
      | (some b, s) => (putSym b s).bind fun _ s => encLoop s.src s := by
  cases h : s.src with
  | nil => simp [srcPull_nil h, encLoop]
  | cons b rest =>
    rw [srcPull_cons h]
    by_cases hb : tableAt s.code b = []
    · simp [encLoop, putSym, hb]
    · simp [encLoop, putSym, hb]

/-- ENC_RUN's loop never stops, and it changes the writer, the sink and the source alone. -/
theorem encLoop_form (bs : List Byte) (s : State) (hs : s.src = bs) :
    ∃ a n k pulled rest, bs = pulled ++ rest ∧
      (let u := { s with wacc := a, wcnt := n, snk := s.snk ++ k,
                         snkCount := s.snkCount + BitVec.ofNat 32 k.length, src := rest,
                         srcCount := s.srcCount + BitVec.ofNat 32 pulled.length }
       encLoop bs s = .ret 0 u ∨ encLoop bs s = .raised .noCode u) := by
  induction bs generalizing s with
  | nil => exact ⟨s.wacc, s.wcnt, [], [], [], rfl, .inl (by cases s; simp_all [encLoop])⟩
  | cons b rest ih =>
    by_cases hb : tableAt s.code b = []
    · exact ⟨s.wacc, s.wcnt, [], [b], rest, rfl, .inr (by simp [encLoop, putSym, hb])⟩
    · obtain ⟨a, n, k, e⟩ := putBits_form (tableAt s.code b)
        { s with src := rest, srcCount := s.srcCount + 1 }
      obtain ⟨a', n', k', p, r, hr, h⟩ := ih
        (putBits (tableAt s.code b) { s with src := rest, srcCount := s.srcCount + 1 }) (by rw [e])
      refine ⟨a', n', k ++ k', b :: p, r, by simp [hr], ?_⟩
      simp only [encLoop, putSym, hb, if_false, Res.bind_ret]
      rw [e] at h ⊢
      simpa only [count_succ, count_add, List.length_cons, List.length_append, List.append_assoc] using h

/-! ### Reader -/

/-- The shape of every state the decoder reaches from `s`: the reader and the source moved, nothing
else (R216). -/
def ReaderMoved (s u : State) : Prop :=
  ∃ b n e pulled rest, s.src = pulled ++ rest ∧
    u = { s with rbuf := b, rcnt := n, reos := e, src := rest,
                 srcCount := s.srcCount + BitVec.ofNat 32 pulled.length }

theorem ReaderMoved.refl (s : State) : ReaderMoved s s :=
  ⟨s.rbuf, s.rcnt, s.reos, [], s.src, rfl, by simp⟩

theorem ReaderMoved.trans {s t u : State} (h : ReaderMoved s t) (g : ReaderMoved t u) :
    ReaderMoved s u := by
  obtain ⟨b, n, e, p, r, hp, rfl⟩ := h
  obtain ⟨b', n', e', p', r', hp', rfl⟩ := g
  refine ⟨b', n', e', p ++ p', r', ?_, ?_⟩
  · rw [hp, List.append_assoc]; exact congrArg (p ++ ·) hp'
  · simp only [count_add, List.length_append]

theorem readerMoved_getBit (s : State) : ReaderMoved s (getBit s).2 := getBit_form s

/-- Every state the reader reaches by gets is a move of the reader. -/
theorem readerMoved_skipBits (n : Nat) (s : State) : ReaderMoved s (skipBits n s) := by
  induction n generalizing s with
  | zero => exact .refl s
  | succ n ih => exact (readerMoved_getBit s).trans (ih _)

theorem ReaderMoved.nodes {s u : State} (h : ReaderMoved s u) : u.nodes = s.nodes := by
  obtain ⟨b, n, e, p, r, _, rfl⟩ := h
  rfl

/-- How a procedure of the decoder ends when it ends at all: at a move of the reader, with a symbol or
one of the two errors of DEC_SYM. -/
def DecEnds (s : State) (r : Res Byte) : Prop :=
  (∃ y u, r = .ret y u ∧ ReaderMoved s u) ∨
  (∃ u, (r = .raised .trunc u ∨ r = .raised .badCode u) ∧ ReaderMoved s u) ∨
  r = .stuck .absentEntry

theorem DecEnds.of_moved {s t : State} {r : Res Byte} (h : ReaderMoved s t) (g : DecEnds t r) :
    DecEnds s r := by
  obtain ⟨y, u, e, m⟩ | ⟨u, e, m⟩ | e := g
  · exact .inl ⟨y, u, e, h.trans m⟩
  · exact .inr (.inl ⟨u, e, h.trans m⟩)
  · exact .inr (.inr e)

/-- The walk (R216). -/
theorem decWalk_ends (n : Nat) (c : Idx) (s : State) : DecEnds s (decWalk n c s) := by
  induction n generalizing c s with
  | zero =>
    rw [decWalk]
    split
    · exact .inr (.inr rfl)
    · exact .inl ⟨_, _, rfl, .refl s⟩
    · have hm := readerMoved_getBit s
      split <;> rename_i hg <;> rw [hg] at hm <;> exact .inr (.inl ⟨_, .inl rfl, hm⟩)
  | succ n ih =>
    rw [decWalk]
    split
    · exact .inr (.inr rfl)
    · exact .inl ⟨_, _, rfl, .refl s⟩
    · have hm := readerMoved_getBit s
      split <;> rename_i hg <;> rw [hg] at hm
      · exact .inr (.inl ⟨_, .inl rfl, hm⟩)
      · exact (ih _ _).of_moved hm

/-- `dec_sym()` (R216). -/
theorem decSym_ends (s : State) : DecEnds s (decSym s) := by
  have hm := readerMoved_getBit s
  unfold decSym
  split
  · exact .inr (.inr rfl)
  · split <;> rename_i hg <;> rw [hg] at hm
    · exact .inr (.inl ⟨_, .inl rfl, hm⟩)
    · exact .inr (.inl ⟨_, .inr rfl, hm⟩)
    · exact .inl ⟨_, _, rfl, hm⟩
  · exact decWalk_ends _ _ _

/-- The shape of every state DEC_RUN reaches from `s`: it has decoded `ys` (R218). -/
def Decoded (s u : State) : Prop :=
  ∃ ys b n e pulled rest, s.src = pulled ++ rest ∧
    u = { s with rbuf := b, rcnt := n, reos := e, src := rest,
                 srcCount := s.srcCount + BitVec.ofNat 32 pulled.length,
                 snk := s.snk ++ ys, snkCount := s.snkCount + BitVec.ofNat 32 ys.length,
                 remain := s.remain - BitVec.ofNat 32 ys.length }

theorem Decoded.of_moved {s u : State} (h : ReaderMoved s u) : Decoded s u := by
  obtain ⟨b, n, e, p, r, hp, rfl⟩ := h
  exact ⟨[], b, n, e, p, r, hp, by simp⟩

theorem Decoded.cons {s t u : State} {y : Byte} (h : ReaderMoved s t)
    (g : Decoded { snkAppend y t with remain := t.remain - 1 } u) : Decoded s u := by
  obtain ⟨b, n, e, p, r, hp, rfl⟩ := h
  obtain ⟨ys, b', n', e', p', r', hp', rfl⟩ := g
  refine ⟨y :: ys, b', n', e', p ++ p', r', ?_, ?_⟩
  · rw [hp, List.append_assoc]; exact congrArg (p ++ ·) hp'
  · have hr : s.remain - 1 - BitVec.ofNat 32 ys.length =
        s.remain - BitVec.ofNat 32 (y :: ys).length := by
      rw [List.length_cons, Nat.add_comm, BitVec.ofNat_add, BitVec.sub_sub]; rfl
    simp only [snkAppend, count_add, count_succ, hr, List.length_append, List.length_cons,
      List.append_assoc, List.singleton_append]

/-- DEC_RUN's loop (R218): it ends with what it decoded, or with one of DEC_SYM's two errors, or where
`dec_sym` asks for a node that does not exist. -/
theorem decLoop_ends (n : Nat) (s : State) :
    (∃ u, Decoded s u ∧ (decLoop n s = .ret 0 u ∨ decLoop n s = .raised .trunc u ∨
      decLoop n s = .raised .badCode u)) ∨ decLoop n s = .stuck .absentEntry := by
  induction n generalizing s with
  | zero => exact .inl ⟨s, .of_moved (.refl s), .inl rfl⟩
  | succ n ih =>
    rw [decLoop]
    obtain ⟨y, u, e, m⟩ | ⟨u, e, m⟩ | e := decSym_ends s
    · rw [e, Res.bind_ret]
      have hr : u.remain = s.remain := by obtain ⟨b, k, r, p, q, hp, rfl⟩ := m; rfl
      obtain ⟨v, hv, h⟩ | h := ih { snkAppend y u with remain := u.remain - 1 }
      · exact .inl ⟨v, .cons m hv, h⟩
      · exact .inr h
    · obtain e | e := e <;> rw [e]
      · exact .inl ⟨u, .of_moved m, .inr (.inl rfl)⟩
      · exact .inl ⟨u, .of_moved m, .inr (.inr rfl)⟩
    · exact .inr (by rw [e]; rfl)

end Sys2Proof.Machine
end

