-- ==== Sys2Proof/Laws/FrequencyTable.lean ====
section
/-! SUPPORT. Counting: what one count and the loop of FT_SCAN can do (R122, R126). -/

namespace Sys2Proof.Machine

theorem countOne_overflow {y : Byte} {s : State} (h : tableAt s.freq y = 0xFFFFFFFF#32) :
    countOne y s = .raised .countOvf s := by simp [countOne, h]

theorem countOne_ok {y : Byte} {s : State} (h : tableAt s.freq y ≠ 0xFFFFFFFF#32) :
    countOne y s = .ret () { s with freq := tablePut s.freq y (tableAt s.freq y + 1) } := by
  simp [countOne, h]

/-- The loop of FT_SCAN is the pseudocode's: pull, stop at `eos`, else count and go on (R126). -/
theorem scanLoop_unfold (s : State) :
    scanLoop s.src s =
      match srcPull s with
      | (none, s) => .ret 0 s
      | (some b, s) => (countOne b s).bind fun _ s => scanLoop s.src s := by
  cases h : s.src with
  | nil => simp [srcPull_nil h, scanLoop]
  | cons b rest =>
    rw [srcPull_cons h]
    simp only [scanLoop]
    by_cases hb : tableAt s.freq b = 0xFFFFFFFF#32
    · simp [countOne, hb]
    · simp [countOne, hb]

/-- FT_SCAN's loop never stops, and it changes FREQ and the source alone: it has pulled some bytes
from the front of the source and counted them. -/
theorem scanLoop_form (bs : List Byte) (s : State) (hs : s.src = bs) :
    ∃ f pulled rest, bs = pulled ++ rest ∧
      (let u := { s with freq := f, src := rest,
                         srcCount := s.srcCount + BitVec.ofNat 32 pulled.length }
       scanLoop bs s = .ret 0 u ∨ scanLoop bs s = .raised .countOvf u) := by
  induction bs generalizing s with
  | nil => exact ⟨s.freq, [], [], rfl, .inl (by cases s; simp_all [scanLoop])⟩
  | cons b rest ih =>
    by_cases hb : tableAt s.freq b = 0xFFFFFFFF#32
    · exact ⟨s.freq, [b], rest, rfl, .inr (by simp [scanLoop, countOne, hb])⟩
    · obtain ⟨f, p, r, hr, h⟩ := ih
        { s with src := rest, srcCount := s.srcCount + 1,
                 freq := tablePut s.freq b (tableAt s.freq b + 1) } rfl
      refine ⟨f, b :: p, r, by simp [hr], ?_⟩
      simpa only [scanLoop, countOne, hb, if_false, Res.bind_ret, count_succ, List.length_cons] using h

end Sys2Proof.Machine
end

