-- ==== Sys2Proof/Laws/Heap.lean ====
section
/-! SUPPORT. The priority queue: its operations only rearrange slots, add one or remove one
(R146 to R148). -/

namespace Sys2Proof.Machine

theorem swapSlots_perm (h : List Idx) (p q : Nat) : (swapSlots h p q).Perm h := by
  unfold swapSlots
  split
  · rename_i a b ha hb
    obtain ⟨hp, rfl⟩ := List.getElem?_eq_some_iff.1 ha
    obtain ⟨hq, rfl⟩ := List.getElem?_eq_some_iff.1 hb
    exact List.set_set_perm hp hq
  · rfl

@[simp] theorem swapSlots_length (h : List Idx) (p q : Nat) : (swapSlots h p q).length = h.length :=
  (swapSlots_perm h p q).length_eq

/-- Slot contents after a swap. -/
theorem getElem?_swapSlots (h : List Idx) {p q : Nat} (hp : p < h.length) (hq : q < h.length)
    (k : Nat) :
    (swapSlots h p q)[k]? = if k = q then h[p]? else if k = p then h[q]? else h[k]? := by
  simp only [swapSlots, List.getElem?_eq_getElem hp, List.getElem?_eq_getElem hq]
  by_cases h1 : k = q
  · subst h1; simp [hq]
  · by_cases h2 : k = p
    · subst h2; simp [h1, Ne.symm h1, hp]
    · simp [h1, h2, Ne.symm h1, Ne.symm h2]

theorem siftUp_perm (key : Idx → Freq) (n p : Nat) (h : List Idx) : (siftUp key n p h).Perm h := by
  induction n generalizing p h with
  | zero => rfl
  | succ n ih =>
    rw [siftUp]
    split
    · rfl
    · split
      · exact (ih _ _).trans (swapSlots_perm _ _ _)
      · rfl

theorem siftDown_perm (key : Idx → Freq) (n p : Nat) (h : List Idx) :
    (siftDown key n p h).Perm h := by
  induction n generalizing p h with
  | zero => rfl
  | succ n ih =>
    rw [siftDown]
    split
    · rfl
    · exact (ih _ _).trans (swapSlots_perm _ _ _)

theorem heapInsert_perm (key : Idx → Freq) (h : List Idx) (i : Idx) :
    (heapInsert key h i).Perm (i :: h) :=
  (siftUp_perm _ _ _ _).trans (List.perm_append_singleton i h)

@[simp] theorem heapInsert_length (key : Idx → Freq) (h : List Idx) (i : Idx) :
    (heapInsert key h i).length = h.length + 1 := (heapInsert_perm key h i).length_eq

/-- Extraction from a heap that is not empty returns slot 0 and removes it alone (R147). -/
theorem heapExtractMin_cons (key : Idx → Freq) (m : Idx) (rest : List Idx) :
    ∃ h', heapExtractMin key (m :: rest) = some (m, h') ∧ h'.Perm rest := by
  rw [heapExtractMin]
  split
  · rename_i hr
    exact ⟨[], rfl, by rw [List.getLast?_eq_none_iff.1 hr]⟩
  · rename_i z hz
    refine ⟨_, rfl, (siftDown_perm _ _ _ _).trans ?_⟩
    have := List.dropLast_append_getLast? z hz
    rw [← this]
    simpa using (List.perm_append_singleton z rest.dropLast).symm

end Sys2Proof.Machine
end

