-- ==== Sys2Proof/Laws/PerInstr.lean ====
section
/-! SUPPORT. Facts about every command as syntax, one lemma per constructor. -/

/-- The word of the command lies in the row of its opcode: the opcode map has the row, and the word
matches it, `w AND mask = opcode << 24` (R92, R94). -/
def Sys2Proof.Laws.MatchesItsRow.Statement (i : Sys2Proof.Instr) : Prop :=
  ∃ f j, Sys2Proof.rowOf i.opcode (Sys2Proof.encode i) = some (f, j) ∧
    Sys2Proof.encode i &&& f.mask = i.opcode.setWidth 32 <<< 24

namespace Sys2Proof.Laws.MatchesItsRow

theorem or_mask (a b m : Word) : (a ||| b) &&& m = a &&& m ||| b &&& m := by
  ext k
  simp [Bool.and_or_distrib_right]

/-- Operand bits that the mask clears leave the opcode's. -/
theorem of_row {i : Instr} (op : BitVec 8) (f : Format) (j : Instr) (hop : i.opcode = op)
    (h : rowOf op (encode i) = some (f, j))
    (ho : op.setWidth 32 <<< 24 &&& f.mask = op.setWidth 32 <<< 24)
    (hz : i.operandBits &&& f.mask = 0#32) : Statement i :=
  ⟨f, j, by rw [hop, h], by rw [encode, or_mask, hop, ho, hz, BitVec.or_zero]⟩

theorem symBits (y : Byte) : y.setWidth 32 &&& Format.s.mask = 0 := by revert y; decide

theorem idxBits (i : Idx) : i.setWidth 32 &&& Format.h.mask = 0 := by revert i; decide

theorem nop : Statement .nop := of_row 0x00 .n _ rfl rfl (by decide) (by decide)
theorem reset : Statement .reset := of_row 0x01 .n _ rfl rfl (by decide) (by decide)
theorem ftClear : Statement .ftClear := of_row 0x10 .n _ rfl rfl (by decide) (by decide)
theorem ftCount (sym : Byte) : Statement (.ftCount sym) :=
  of_row 0x11 .s _ rfl (by simp [rowOf]; rfl) (by decide) (symBits sym)
theorem ftLoad (sym : Byte) : Statement (.ftLoad sym) :=
  of_row 0x12 .s _ rfl (by simp [rowOf]; rfl) (by decide) (symBits sym)
theorem ftRead (sym : Byte) : Statement (.ftRead sym) :=
  of_row 0x13 .s _ rfl (by simp [rowOf]; rfl) (by decide) (symBits sym)
theorem ftScan : Statement .ftScan := of_row 0x14 .n _ rfl rfl (by decide) (by decide)
theorem build : Statement .build := of_row 0x20 .n _ rfl rfl (by decide) (by decide)
theorem rdNode (sel : BitVec 4) (idx : Idx) : Statement (.rdNode sel idx) := by
  refine of_row 0x21 .x _ rfl (by simp [rowOf]; rfl) (by decide) ?_
  have h1 : sel.setWidth 32 <<< 16 &&& Format.x.mask = 0#32 := by revert sel; decide
  have h2 : idx.setWidth 32 &&& Format.x.mask = 0#32 := by revert idx; decide
  rw [Instr.operandBits, or_mask, h1, h2, BitVec.or_zero]
theorem rdCodeLen (sym : Byte) : Statement (.rdCodeLen sym) :=
  of_row 0x22 .s _ rfl (by simp [rowOf]; rfl) (by decide) (symBits sym)
theorem rdCodeBits (sym : Byte) (chunk : BitVec 3) : Statement (.rdCodeBits sym chunk) := by
  refine of_row 0x23 .c _ rfl (by simp [rowOf]; rfl) (by decide) ?_
  have h1 : chunk.setWidth 32 <<< 16 &&& Format.c.mask = 0#32 := by revert chunk; decide
  have h2 : sym.setWidth 32 &&& Format.c.mask = 0#32 := by revert sym; decide
  rw [Instr.operandBits, or_mask, h1, h2, BitVec.or_zero]
theorem rdHeap (idx : Idx) : Statement (.rdHeap idx) :=
  of_row 0x24 .h _ rfl (by simp [rowOf]; rfl) (by decide) (idxBits idx)
theorem wrInit : Statement .wrInit := of_row 0x30 .n _ rfl rfl (by decide) (by decide)
theorem putBit (bit : Bool) : Statement (.putBit bit) :=
  of_row 0x31 .b _ rfl (by simp [rowOf]; rfl) (by decide) (by cases bit <;> decide)
theorem putSym (sym : Byte) : Statement (.putSym sym) :=
  of_row 0x32 .s _ rfl (by simp [rowOf]; rfl) (by decide) (symBits sym)
theorem flush : Statement .flush := of_row 0x33 .n _ rfl rfl (by decide) (by decide)
theorem encRun : Statement .encRun := of_row 0x34 .n _ rfl rfl (by decide) (by decide)
theorem rdInit : Statement .rdInit := of_row 0x40 .n _ rfl rfl (by decide) (by decide)
theorem getBit : Statement .getBit := of_row 0x41 .n _ rfl rfl (by decide) (by decide)
theorem decSym : Statement .decSym := of_row 0x42 .n _ rfl rfl (by decide) (by decide)
theorem decRun : Statement .decRun := of_row 0x43 .n _ rfl rfl (by decide) (by decide)

end Sys2Proof.Laws.MatchesItsRow
end

