-- ==== Sys2Proof/Laws/TreeBuilder.lean ====
section
/-! SUPPORT. The tree builder: what the seeding and the merge loop leave, and everything BUILD can do
(R141 to R144). -/

namespace Sys2Proof.Machine

@[simp] theorem Builder.add_nodes (b : Builder) (n : Node) : (b.add n).nodes = b.nodes ++ [n] := rfl

theorem Builder.add_heap_perm (b : Builder) (n : Node) :
    (b.add n).heap.Perm (BitVec.ofNat 9 b.nodes.length :: b.heap) := heapInsert_perm _ _ _

/-- Adding a node leaves the keys of the nodes already there. -/
theorem keyOf_append {nodes : List Node} {i : Idx} (h : i.toNat < nodes.length) (l : List Node) :
    keyOf (nodes ++ l) i = keyOf nodes i := by
  rw [keyOf, keyOf, List.getElem?_append_left h]

/-- Seeding the symbols `ys` one after the other (R142). -/
theorem foldl_seedOne (freq : Vector Word 256) (ys : List Byte) (b : Builder) :
    (ys.foldl (seedOne freq) b).nodes = b.nodes ++
        (ys.filter fun y => tableAt freq y ≠ 0).map
          (fun y => .leaf y ((tableAt freq y).setWidth 40)) ∧
      (ys.foldl (seedOne freq) b).heap.length =
        b.heap.length + (ys.filter fun y => tableAt freq y ≠ 0).length := by
  induction ys generalizing b with
  | nil => simp
  | cons y ys ih =>
    obtain ⟨h1, h2⟩ := ih (seedOne freq b y)
    rw [List.foldl_cons, h1, h2]
    by_cases hy : tableAt freq y = 0
    · simp [seedOne, hy]
    · simp only [seedOne, hy, ne_eq, not_false_eq_true, if_true, Builder.add_nodes,
        (b.add_heap_perm _).length_eq, List.length_cons, decide_true, List.filter_cons_of_pos,
        List.map_cons, List.append_assoc, List.singleton_append, true_and]
      omega

/-- The seeding loop allocates the leaves of the unique symbols in ascending order (R142). -/
theorem seed_nodes (freq : Vector Word 256) : (seed freq).nodes = seedLeaves freq := by
  simpa [seed, seedLeaves, uniqueSyms] using (foldl_seedOne freq allSyms ⟨[], []⟩).1

theorem seed_heap_length (freq : Vector Word 256) :
    (seed freq).heap.length = (uniqueSyms freq).length := by
  simpa [seed, uniqueSyms] using (foldl_seedOne freq allSyms ⟨[], []⟩).2

/-- A pass of the merge loop on two nodes or more (R144): it takes two nodes out of the queue and puts
their parent in. -/
theorem mergeOne_spec (b : Builder) (hb : 1 < b.heap.length) : ∃ l r h,
    b.heap.Perm (l :: r :: h) ∧ heapExtractMin (keyOf b.nodes) b.heap ≠ none ∧
    mergeOne b = Builder.add ⟨b.nodes, h⟩
      (.internal l r (keyOf b.nodes l + keyOf b.nodes r)) := by
  obtain ⟨m, rest, hh⟩ : ∃ m rest, b.heap = m :: rest := by
    cases h : b.heap with
    | nil => simp [h] at hb
    | cons m rest => exact ⟨m, rest, rfl⟩
  obtain ⟨h₁, e₁, p₁⟩ := heapExtractMin_cons (keyOf b.nodes) m rest
  obtain ⟨m', rest', hh'⟩ : ∃ m' rest', h₁ = m' :: rest' := by
    cases h : h₁ with
    | nil => have := p₁.length_eq; simp [hh] at hb; simp [h] at this; omega
    | cons m' rest' => exact ⟨m', rest', rfl⟩
  obtain ⟨h₂, e₂, p₂⟩ := heapExtractMin_cons (keyOf b.nodes) m' rest'
  refine ⟨m, m', h₂, ?_, by simp [hh, e₁], by simp [mergeOne, hh, e₁, hh', e₂]⟩
  rw [hh]
  exact .cons m (p₁.symm.trans (by rw [hh']; exact .cons m' p₂.symm))

theorem mergeOne_length {b : Builder} (hb : 1 < b.heap.length) :
    (mergeOne b).nodes.length = b.nodes.length + 1 ∧
      (mergeOne b).heap.length + 1 = b.heap.length := by
  obtain ⟨l, r, h, hp, -, e⟩ := mergeOne_spec b hb
  have := hp.length_eq
  have hq := (Builder.add_heap_perm ⟨b.nodes, h⟩
    (.internal l r (keyOf b.nodes l + keyOf b.nodes r))).length_eq
  rw [← e] at hq
  rw [e, Builder.add_nodes] at *
  simp_all

/-- An invariant of the builder that every pass keeps holds of what the loop leaves. -/
theorem mergeLoop_induction {P : Builder → Prop} (hP : ∀ b, 1 < b.heap.length → P b → P (mergeOne b))
    (n : Nat) (b : Builder) (hb : P b) : P (mergeLoop n b) := by
  induction n generalizing b with
  | zero => exact hb
  | succ n ih =>
    rw [mergeLoop]
    split
    · exact ih _ (hP b ‹_› hb)
    · exact hb

/-- The merge loop ends with at most one node in the queue, when its bound is HEAP_N (R144). -/
theorem mergeLoop_heap_le (n : Nat) (b : Builder) (h : b.heap.length ≤ n + 1) :
    (mergeLoop n b).heap.length ≤ 1 := by
  induction n generalizing b with
  | zero => simpa [mergeLoop] using h
  | succ n ih =>
    rw [mergeLoop]
    split
    · exact ih _ (by have := (mergeOne_length ‹_›).2; omega)
    · omega

/-- With at least one unique symbol BUILD leaves exactly one node in the queue, and 2 × NUNIQ − 1
nodes in the arena (R141, R34, R35). -/
theorem buildTree_size (freq : Vector Word 256) (h : uniqueSyms freq ≠ []) :
    (buildTree freq).heap.length = 1 ∧
      (buildTree freq).nodes.length = 2 * (uniqueSyms freq).length - 1 := by
  have hpos : 0 < (uniqueSyms freq).length := List.length_pos_iff.2 h
  have hle := mergeLoop_heap_le (seed freq).heap.length (seed freq) (by omega)
  have hinv : 0 < (buildTree freq).heap.length ∧ (buildTree freq).nodes.length +
      (buildTree freq).heap.length = 2 * (uniqueSyms freq).length :=
    mergeLoop_induction
      (P := fun b => 0 < b.heap.length ∧ b.nodes.length + b.heap.length = 2 * (uniqueSyms freq).length)
      (fun b hb hP => by obtain ⟨h1, h2⟩ := mergeOne_length hb; omega) _ _
      (by
        rw [seed_nodes, seed_heap_length]
        simp only [seedLeaves, List.length_map]
        omega)
  change (buildTree freq).heap.length ≤ 1 at hle
  omega

/-- Everything BUILD's pseudocode can do (R141). -/
theorem buildBody_cases (s : State) :
    (s.nuniq = 0 ∧ buildBody s = .raised .empty s) ∨
    (s.nuniq ≠ 0 ∧ ¬ (s.nodes = [] ∧ s.heap = []) ∧ buildBody s = .stuck .arenaNotEmpty) ∨
    (s.nuniq ≠ 0 ∧ s.nodes = [] ∧ s.heap = [] ∧ ∃ root, (buildTree s.freq).heap = [root] ∧
      buildBody s = .ret (root.setWidth 32)
        { s with nodes := (buildTree s.freq).nodes, heap := [root], root := root,
                 code := genCodes (buildTree s.freq).nodes root, phase := .tree }) := by
  by_cases h0 : s.nuniq = 0
  · exact .inl ⟨h0, by simp [buildBody, h0]⟩
  · by_cases he : s.nodes = [] ∧ s.heap = []
    · obtain ⟨root, hr⟩ : ∃ root, (buildTree s.freq).heap = [root] :=
        List.length_eq_one_iff.1 (buildTree_size s.freq (by
          intro h; exact h0 (by simp [State.nuniq, h]))).1
      exact .inr (.inr ⟨h0, he.1, he.2, root, hr, by simp [buildBody, h0, he.1, he.2, hr]⟩)
    · refine .inr (.inl ⟨h0, he, ?_⟩)
      rw [buildBody, if_neg h0, if_pos (by by_contra h; push Not at h; exact he h)]

end Sys2Proof.Machine
end

