-- ==== Sys2Proof/Laws/Step.lean ====
section
/-! SUPPORT. Commands and steps: the host's own fields under a command, and a step by its next move. -/

namespace Sys2Proof.Machine

/-- A command whose pseudocode leaves the host's fields leaves them. -/
theorem command_host {adm : Admission} {body : State → Res Word} {s t : State}
    (hb : ∀ u, (∃ v, body s = .ret v u) ∨ (∃ e, body s = .raised e u) →
      u.host = s.host ∧ u.resp = s.resp)
    (h : command adm body s = .next t) : t.host = s.host ∧ t.resp = s.resp := by
  obtain ⟨-, rfl⟩ | ⟨-, -, rfl⟩ | ⟨-, -, v, u, hu, rfl⟩ | ⟨-, -, e, u, hu, rfl⟩ := command_cases h
  · exact ⟨rfl, rfl⟩
  · exact ⟨rfl, rfl⟩
  · exact hb u (.inl ⟨v, hu⟩)
  · exact hb u (.inr ⟨e, hu⟩)

/-- No command touches the host's remaining moves or the answer to its last access. -/
theorem exec_host {i : Instr} {s t : State} (h : exec i s = .next t) :
    t.host = s.host ∧ t.resp = s.resp := by
  cases i <;> simp only [exec] at h
  case reset => cases h; exact ⟨rfl, rfl⟩
  case ftScan =>
    refine command_host (fun u hu => ?_) h
    obtain ⟨f, p, r, -, e | e⟩ := scanLoop_form s.src s rfl <;> rw [e] at hu <;> aesop
  case build =>
    refine command_host (fun u hu => ?_) h
    obtain ⟨-, e⟩ | ⟨-, -, e⟩ | ⟨-, -, -, r, -, e⟩ := buildBody_cases s <;> rw [e] at hu <;> aesop
  case rdNode sel idx =>
    unfold execRdNode at h
    split at h
    · rw [illegalWord_eq] at h; cases h; exact ⟨rfl, rfl⟩
    · refine command_host (fun u hu => ?_) h
      unfold rdNodeBody at hu; split at hu <;> aesop
  case rdHeap idx =>
    refine command_host (fun u hu => ?_) h
    split at hu <;> aesop
  case ftCount y =>
    refine command_host (fun u hu => ?_) h
    by_cases hy : tableAt s.freq y = 0xFFFFFFFF#32
    · rw [countOne_overflow hy] at hu; aesop
    · rw [countOne_ok hy] at hu; aesop
  case putSym y =>
    refine command_host (fun u hu => ?_) h
    by_cases hy : tableAt s.code y = []
    · rw [putSym_noCode hy] at hu; aesop
    · rw [putSym_ok hy] at hu; aesop
  case encRun =>
    refine command_host (fun u hu => ?_) h
    obtain ⟨a, n, k, p, r, -, e | e⟩ := encLoop_form s.src s rfl <;> rw [e] at hu <;> aesop
  case decSym =>
    refine command_host (fun u hu => ?_) h
    obtain ⟨y, v, e, b, n, o, p, r, -, rfl⟩ | ⟨v, e | e, b, n, o, p, r, -, rfl⟩ | e := decSym_ends s <;>
      rw [e] at hu <;> aesop
  case decRun =>
    refine command_host (fun u hu => ?_) h
    obtain ⟨v, ⟨ys, b, n, o, p, r, -, rfl⟩, e | e | e⟩ | e := decLoop_ends s.remain.toNat s <;>
      rw [e] at hu <;> aesop
  all_goals exact command_host (fun u hu => by aesop) h

theorem step_idle {s : State} (h : s.host = []) : step s = .next s := by simp [step, h]

theorem step_cons {s : State} {m : HostMove} {rest : List HostMove} (h : s.host = m :: rest) :
    step s = hostMove m { s with host := rest } := by simp [step, h]

/-- A 32-bit write to CMD is the command's (R23). -/
theorem hostMove_cmd (w : Word) (s : State) :
    hostMove (.write 4 0 w) s = writeCmd w { s with resp := .written } := rfl

theorem writeCmd_ok {w : Word} {i : Instr} (h : decode w = .ok i) (s : State) :
    writeCmd w s = exec i s := by simp [writeCmd, h]

theorem writeCmd_error {w : Word} {r : Reject} (h : decode w = .error r) (s : State) :
    writeCmd w s = illegalWord s := by simp [writeCmd, h]

end Sys2Proof.Machine
end

