-- ==== Sys2Proof/Tests/Slice0.lean ====
section
/-! SUPPORT. The author's tests, with values from the spec's own examples and vectors, and for every
statement with hypotheses a state and operands that meet them. -/

open Sys2Proof Sys2Proof.Machine

namespace Sys2Proof.Tests

-- One theorem at a time: the kernel evaluates whole tables here, and waiting checks each hold a thread.
set_option Elab.async false

/-- The answer is a next state with this property. -/
def check (a : Answer) (p : State → Bool) : Bool :=
  match a with
  | .next s => p s
  | .fault _ => false
  | .refused _ => false

theorem next_of_check {a : Answer} {p : State → Bool} (h : check a p = true) :
    ∃ t, a = .next t ∧ p t = true := by
  cases a with
  | next s => exact ⟨s, rfl, h⟩
  | fault f => cases h
  | refused r => cases h

/-- A table of counts. -/
def counts (l : List (Byte × Word)) : Vector Word 256 :=
  l.foldl (fun f p => tablePut f p.1 p.2) (Vector.replicate 256 0)

/-- A code table. -/
def codes (l : List (Byte × List Bool)) : Vector (List Bool) 256 :=
  l.foldl (fun f p => tablePut f p.1 p.2) (Vector.replicate 256 [])

/-- FREQ = {0x61: 4, 0x62: 3, 0x63: 2} before BUILD (vector V1). -/
def counted : State := { State.reset with freq := counts [(0x61, 4), (0x62, 3), (0x63, 2)] }

/-- The tree of vector V1 (the example of R141, the codes of R211). -/
def abc : State :=
  { counted with
    phase := .tree
    nodes := [.leaf 0x61 4, .leaf 0x62 3, .leaf 0x63 2, .internal 2 1 5, .internal 0 3 9]
    heap := [4]
    root := 4
    code := codes [(0x61, [false]), (0x62, [true, true]), (0x63, [true, false])] }

/-- The degenerate tree of FREQ = {0x61: 5} (vector V9, R143, R172). -/
def single : State :=
  { State.reset with
    freq := counts [(0x61, 5)]
    phase := .tree
    nodes := [.leaf 0x61 5]
    heap := [0]
    root := 0
    code := codes [(0x61, [false])] }

/-- A faulted state: ERR_TRUNC in phase TREE (the example of R112). -/
def faulted : State := { abc with err := .trunc, remain := 3, res := 7 }

/-! ### Terms -/

/-- An ill-formed term: the reserved `sel` 6 (R93). -/
theorem test_wf_refuses_sel_6 : Instr.wf (.rdNode 6 0) = false := by decide

theorem test_wf_refuses_sel_15 : Instr.wf (.rdNode 15 511) = false := by decide

theorem test_wf_admits_sel_5 : Instr.wf (.rdNode 5 511) = true := by decide

/-- The words of format N, from R94. -/
theorem test_decode_control_words :
    decode 0x00000000#32 = .ok .nop ∧ decode 0x01000000#32 = .ok .reset := by decide

theorem test_decode_table_words :
    decode 0x10000000#32 = .ok .ftClear ∧ decode 0x11000061#32 = .ok (.ftCount 0x61) ∧
    decode 0x12000062#32 = .ok (.ftLoad 0x62) ∧ decode 0x130000FF#32 = .ok (.ftRead 255) ∧
    decode 0x14000000#32 = .ok .ftScan := by decide

/-- `sel << 16`, `chunk << 16` and the nine bits of `idx` (R98, V51). -/
theorem test_decode_tree_words :
    decode 0x20000000#32 = .ok .build ∧ decode 0x210501FF#32 = .ok (.rdNode 5 511) ∧
    decode 0x22000062#32 = .ok (.rdCodeLen 0x62) ∧ decode 0x230700FF#32 = .ok (.rdCodeBits 255 7) ∧
    decode 0x240001FF#32 = .ok (.rdHeap 511) := by decide

theorem test_decode_writer_words :
    decode 0x30000000#32 = .ok .wrInit ∧ decode 0x31000000#32 = .ok (.putBit false) ∧
    decode 0x31000001#32 = .ok (.putBit true) ∧ decode 0x32000062#32 = .ok (.putSym 0x62) ∧
    decode 0x33000000#32 = .ok .flush ∧ decode 0x34000000#32 = .ok .encRun := by decide

theorem test_decode_reader_words :
    decode 0x40000000#32 = .ok .rdInit ∧ decode 0x41000000#32 = .ok .getBit ∧
    decode 0x42000000#32 = .ok .decSym ∧ decode 0x43000000#32 = .ok .decRun := by decide

/-- The illegal words of V50. -/
theorem test_decode_refuses_reserved_words :
    [0x00000001#32, 0x11000100#32, 0x31000002#32, 0x23080061#32, 0x24000200#32, 0x20800000#32].all
      (fun w => decode w = .error .mustBeZero) = true ∧
    [0x02000000#32, 0xFFFFFFFF#32].all (fun w => decode w = .error .unknownOpcode) = true ∧
    decode 0x21060000#32 = .error .reservedSel := by decide

theorem test_table_word_longer_than_a_command : decodeTableWord 64 0x100000000 = none := by decide

/-! ### Reset and the host -/

/-- The example of R112. -/
theorem test_reset_leaves_the_faulted_state :
    check (exec .reset faulted) (fun t => t.err = .ok ∧ t.phase = .freq ∧ t.remain = 0 ∧ t.nodes = [])
      = true := by decide +kernel

/-- The example of R111, and V53: a faulted NOP keeps RES. -/
theorem test_nop : check (exec .nop { State.reset with res := 5 }) (fun t => t.res = 0) = true ∧
    check (exec .nop faulted) (fun t => t.res = 7) = true := by decide +kernel

/-- ARG is written also when faulted (R273). -/
theorem test_arg_write_when_faulted :
    check (hostMove (.write 4 4 9) faulted) (fun t => t.arg = 9 ∧ t.err = .trunc) = true := by
  decide +kernel

/-- The first command after reset is the word placed there. -/
theorem test_step_runs_the_placed_word :
    check (step (State.reset.withFetchWord 32 0x11000061))
      (fun t => tableAt t.freq 0x61 = 1 ∧ t.host = []) = true := by decide +kernel

/-- The lines of R98 and R99. -/
theorem test_script_lines :
    stmtOfLine? "RD_NODE LEFT, 4" = some (.cmd (.rdNode 2 4)) ∧
    stmtOfLine? "FT_COUNT 'a' ; comment" = some (.cmd (.ftCount 0x61)) ∧
    stmtOfLine? "LOADF 0x61, 4" = some (.loadF 0x61 4) ∧
    stmtOfLine? "PUT_BITS \"101\"" = some (.putBits [true, false, true]) ∧
    stmtOfLine? "RD_NODE 16, 4" = none := by decide +kernel

/-! ### Frequency table -/

/-- V21: the count that would pass 2^32 − 1 faults and does not wrap. -/
theorem test_ftCount_never_wraps :
    check (exec (.ftCount 0) { State.reset with freq := counts [(0, 0xFFFFFFFF)] })
      (fun t => t.err = .countOvf ∧ tableAt t.freq 0 = 0xFFFFFFFF) = true := by decide +kernel

/-- The example of R124. -/
theorem test_ftLoad_stores_arg :
    check (exec (.ftLoad 0x62) { State.reset with arg := 3 })
      (fun t => tableAt t.freq 0x62 = 3 ∧ tableAt t.freq 0x61 = 0) = true := by decide +kernel

/-- FT_LOAD in phase TREE (R124). -/
theorem test_ftLoad_in_phase_tree :
    check (exec (.ftLoad 0x62) abc) (fun t => t.err = .phase ∧ tableAt t.freq 0x62 = 3) = true := by
  decide +kernel

/-- The example of R125. -/
theorem test_ftRead : check (exec (.ftRead 0x61) counted) (fun t => t.res = 4) = true ∧
    check (exec (.ftRead 0x64) counted) (fun t => t.res = 0) = true := by decide +kernel

/-- The example of R126. -/
theorem test_ftScan_counts_the_source :
    check (exec .ftScan { State.reset with src := [0x61, 0x61, 0x61, 0x61, 0x62, 0x62, 0x62, 0x63, 0x63] })
      (fun t => tableAt t.freq 0x61 = 4 ∧ tableAt t.freq 0x62 = 3 ∧ tableAt t.freq 0x63 = 2 ∧
        t.srcCount = 9 ∧ t.src = []) = true := by decide +kernel

/-- The example of R121. -/
theorem test_ftClear :
    check (exec .ftClear abc) (fun t => t.phase = .freq ∧ t.nodes = [] ∧ tableAt t.freq 0x61 = 0) = true := by
  decide +kernel

/-! ### Tree -/

/-- The example of R141. -/
theorem test_build_makes_the_example_tree :
    check (exec .build counted)
      (fun t => t.nodes = abc.nodes ∧ t.root = 4 ∧ t.heap = [4] ∧ t.res = 4 ∧ t.phase = .tree ∧ t.err = .ok)
      = true := by
  decide +kernel

/-- P4: an empty table. -/
theorem test_build_on_an_empty_table :
    check (exec .build State.reset) (fun t => t.err = .empty ∧ t.phase = .freq) = true := by
  decide +kernel

/-- The example of R152. -/
theorem test_rdNode :
    check (exec (.rdNode 2 4) abc) (fun t => t.res = 0) = true ∧
    check (exec (.rdNode 3 4) abc) (fun t => t.res = 3) = true ∧
    check (exec (.rdNode 1 2) abc) (fun t => t.res = 0x63) = true ∧
    check (exec (.rdNode 1 3) abc) (fun t => t.res = 0xFFFFFFFF) = true ∧
    check (exec (.rdNode 4 4) abc) (fun t => t.res = 9) = true ∧
    check (exec (.rdNode 0 5) abc) (fun t => t.err = .range) = true := by decide +kernel

/-- The example of R153. -/
theorem test_rdHeap :
    check (exec (.rdHeap 0) abc) (fun t => t.res = 4) = true ∧
    check (exec (.rdHeap 1) abc) (fun t => t.err = .range) = true := by decide +kernel

/-- The examples of R175 and R176. -/
theorem test_rdCodeLen_and_rdCodeBits :
    check (exec (.rdCodeLen 0x62) abc) (fun t => t.res = 2) = true ∧
    check (exec (.rdCodeLen 0x64) abc) (fun t => t.res = 0) = true ∧
    check (exec (.rdCodeBits 0x62 0) abc) (fun t => t.res = 0xC0000000) = true ∧
    check (exec (.rdCodeBits 0x63 0) abc) (fun t => t.res = 0x80000000) = true := by decide +kernel

/-! ### Bit streams -/

/-- The third bit of V30. -/
theorem test_putBit_msb_first :
    check (exec (.putBit true) { State.reset with wacc := 0x80, wcnt := 2 })
      (fun t => t.wacc = 0xA0 ∧ t.wcnt = 3 ∧ t.snk = []) = true := by decide +kernel

/-- The eighth bit of V31. -/
theorem test_putBit_eighth_bit :
    check (exec (.putBit true) { State.reset with wacc := 0xBE, wcnt := 7 })
      (fun t => t.snk = [0xBF] ∧ t.snkCount = 1 ∧ t.wacc = 0 ∧ t.wcnt = 0) = true := by decide +kernel

/-- The example of R189. -/
theorem test_flush :
    check (exec .flush { State.reset with wacc := 0xA0, wcnt := 3 })
      (fun t => t.snk = [0xA0] ∧ t.wcnt = 0) = true ∧
    check (exec .flush State.reset) (fun t => t.snk = []) = true := by decide +kernel

/-- The examples of R186 and R191. -/
theorem test_wrInit_and_rdInit :
    check (exec .wrInit { State.reset with wacc := 0xA0, wcnt := 3 })
      (fun t => t.wacc = 0 ∧ t.wcnt = 0 ∧ t.snk = []) = true ∧
    check (exec .rdInit { State.reset with rcnt := 5, rbuf := 0x1F, src := [1] })
      (fun t => t.rcnt = 0 ∧ t.src = [1]) = true := by decide +kernel

/-- The first bit of A5, and the end of an empty source (R193). -/
theorem test_getBit :
    check (exec .getBit { State.reset with src := [0xA5] })
      (fun t => t.res = 1 ∧ t.rcnt = 7 ∧ t.rbuf = 0xA5 ∧ t.src = [] ∧ t.srcCount = 1) = true ∧
    check (exec .getBit State.reset) (fun t => t.res = 0x80000000 ∧ t.reos ∧ t.srcCount = 0) = true := by
  decide +kernel

/-! ### Codes -/

/-- V40. -/
theorem test_putSym :
    check (exec (.putSym 0x62) abc) (fun t => t.wacc = 0xC0 ∧ t.wcnt = 2 ∧ t.res = 0) = true ∧
    check (exec (.putSym 0x64) abc) (fun t => t.err = .noCode ∧ t.wcnt = 0) = true := by decide +kernel

/-- The example of R213. -/
theorem test_encRun :
    check (exec .encRun { abc with src := [0x61, 0x61, 0x61, 0x61, 0x62, 0x62, 0x62, 0x63, 0x63] })
      (fun t => t.snk = [0x0F] ∧ t.wacc = 0xE8 ∧ t.wcnt = 6 ∧ t.src = []) = true := by decide +kernel

/-- V41: the byte without a code is pulled. -/
theorem test_encRun_meets_an_uncounted_byte :
    check (exec .encRun { abc with src := [0x61, 0x62, 0x64, 0x61] })
      (fun t => t.err = .noCode ∧ t.src = [0x61] ∧ t.srcCount = 3 ∧ t.wacc = 0x60 ∧ t.wcnt = 3) = true := by
  decide +kernel

/-- The fifth symbol of the example of R217, and P3b's 1 bit. -/
theorem test_decSym :
    check (exec .decSym { abc with rbuf := 0x0F, rcnt := 4, src := [0xE8] })
      (fun t => t.res = 0x62 ∧ t.rcnt = 2) = true ∧
    check (exec .decSym { single with src := [0x80] })
      (fun t => t.err = .badCode ∧ t.rcnt = 7) = true := by decide +kernel

/-- The example of R218. -/
theorem test_decRun :
    check (exec .decRun { abc with remain := 9, src := [0x0F, 0xE8] })
      (fun t => t.snk = [0x61, 0x61, 0x61, 0x61, 0x62, 0x62, 0x62, 0x63, 0x63] ∧ t.remain = 0 ∧
        t.rcnt = 2 ∧ t.reos = false ∧ t.srcCount = 2) = true := by decide +kernel

/-- The example of R219. -/
theorem test_decRun_truncated :
    check (exec .decRun { abc with remain := 9, src := [0x0F] })
      (fun t => t.err = .trunc ∧ t.snk = [0x61, 0x61, 0x61, 0x61, 0x62, 0x62] ∧ t.remain = 3 ∧ t.reos) = true := by
  decide +kernel

/-! ### States that meet the invariants -/

theorem counted_at (y : Byte) : tableAt counted.freq y =
    if y = 0x63 then 2 else if y = 0x62 then 3 else if y = 0x61 then 4 else 0 := by
  simp [counted, counts, tableAt_tablePut]

theorem abc_code_at (y : Byte) : tableAt abc.code y =
    if y = 0x63 then [true, false] else if y = 0x62 then [true, true]
    else if y = 0x61 then [false] else [] := by
  simp [abc, codes, tableAt_tablePut]

theorem abc_unique : uniqueSyms abc.freq = [0x61, 0x62, 0x63] := by
  show uniqueSyms counted.freq = _
  unfold uniqueSyms
  simp only [counted_at]
  decide +kernel

theorem abc_nuniq : abc.nuniq = 3 := by rw [State.nuniq, abc_unique]; rfl

theorem counted_nuniq : counted.nuniq ≠ 0 := by
  show abc.nuniq ≠ 0
  rw [abc_nuniq]
  decide

theorem abc_coded {y : Byte} (h : tableAt abc.code y ≠ []) : y = 0x61 ∨ y = 0x62 ∨ y = 0x63 := by
  rw [abc_code_at] at h
  split at h
  · exact .inr (.inr ‹_›)
  · split at h
    · exact .inr (.inl ‹_›)
    · split at h
      · exact .inl ‹_›
      · exact absurd rfl h

theorem abc_isTree : abc.IsTree where
  nonempty := by rw [abc_nuniq]; decide
  size := by rw [abc_nuniq]; rfl
  heap := rfl
  root := rfl
  leaves := by
    rw [abc_nuniq, seedLeaves, abc_unique]
    simp [show abc.freq = counted.freq from rfl, counted_at]
    rfl
  internal := by
    intro i h1 h2
    rw [abc_nuniq] at h1
    have h3 : i < 5 := h2
    obtain rfl | rfl : i = 3 ∨ i = 4 := by omega
    · exact ⟨2, 1, 5, by decide, by decide, by decide, by decide⟩
    · exact ⟨0, 3, 9, by decide, by decide, by decide, by decide⟩
  parents := by decide
  coded := by
    intro y
    rw [abc_code_at, show abc.freq = counted.freq from rfl, counted_at]
    repeat' split
    all_goals simp
  degenerate := by rw [abc_nuniq]; decide
  paths := by
    intro _ y hy
    obtain rfl | rfl | rfl := abc_coded hy
    · exact ⟨0, 4, by rw [abc_code_at]; decide, by decide⟩
    · exact ⟨1, 3, by rw [abc_code_at]; decide, by decide⟩
    · exact ⟨2, 2, by rw [abc_code_at]; decide, by decide⟩

theorem single_at (y : Byte) : tableAt single.freq y = if y = 0x61 then 5 else 0 := by
  simp [single, counts, tableAt_tablePut]

theorem single_code_at (y : Byte) : tableAt single.code y = if y = 0x61 then [false] else [] := by
  simp [single, codes, tableAt_tablePut]

theorem single_unique : uniqueSyms single.freq = [0x61] := by
  unfold uniqueSyms
  simp only [single_at]
  decide +kernel

theorem single_nuniq : single.nuniq = 1 := by rw [State.nuniq, single_unique]; rfl

theorem single_isTree : single.IsTree where
  nonempty := by rw [single_nuniq]
  size := by rw [single_nuniq]; rfl
  heap := rfl
  root := rfl
  leaves := by
    rw [single_nuniq, seedLeaves, single_unique]
    simp [single_at]
    rfl
  internal := by
    intro i h1 h2
    rw [single_nuniq] at h1
    have h3 : i < 1 := h2
    omega
  parents := by decide
  coded := by
    intro y
    rw [single_code_at, single_at]
    split <;> simp
  degenerate := by
    intro _ y hy
    rw [single_code_at] at hy ⊢
    split at hy
    · simp [*]
    · exact absurd rfl hy
  paths := by rw [single_nuniq]; decide

/-- The invariants look at the writer and at the tables alone. -/
theorem inv_of_tree {s : State} (ht : s.IsTree) (hp : s.phase = .tree) (hw : s.wacc = 0) : s.Inv where
  writer := fun k _ => by rw [hw]; exact BitVec.getLsbD_zero
  freq := fun h => by rw [hp] at h; cases h
  tree := fun _ => ht

theorem abc_inv : abc.Inv := inv_of_tree abc_isTree rfl rfl

theorem single_inv : single.Inv := inv_of_tree single_isTree rfl rfl

/-- V1's tree with a source and a number of symbols to decode. -/
def decoding (src : List Byte) (remain : Word) : State := { abc with src := src, remain := remain }

theorem decoding_inv (src : List Byte) (remain : Word) : (decoding src remain).Inv :=
  inv_of_tree { abc_isTree with } rfl rfl

/-- V1's tree with a host about to make a move. -/
def moving (m : HostMove) : State := { abc with host := [m] }

theorem moving_inv (m : HostMove) : (moving m).Inv := inv_of_tree { abc_isTree with } rfl rfl

/-- The degenerate tree with a source. -/
def decodingSingle (src : List Byte) (remain : Word) : State := { single with src := src, remain := remain }

theorem decodingSingle_inv (src : List Byte) (remain : Word) : (decodingSingle src remain).Inv :=
  inv_of_tree { single_isTree with } rfl rfl


/-! ### Witnesses: states and operands that meet each statement's hypotheses -/

theorem witness_DecodeEncodeRoundTrip : ∃ i : Instr, i.wf = true := ⟨.rdNode 5 511, by decide⟩

theorem witness_LegalWordIsItsCommandsWord : ∃ w i, decode w = .ok i :=
  ⟨0x210501FF, .rdNode 5 511, by decide⟩

/-- One word for each ground of R91. -/
theorem witness_IllegalWordRaisesErrIllegal : State.reset.err = .ok ∧ ¬ Claims.LegalWord 0x02000000 ∧
    ¬ Claims.LegalWord 0x00000001 ∧ ¬ Claims.LegalWord 0x21060000 ∧ Claims.LegalWord 0x210501FF := by
  unfold Claims.LegalWord; decide

theorem witness_StepRunsTheDecodedCommand : ∃ (s : State) (w : Word) (i : Instr) (rest : List HostMove),
    s.host = .write 4 0x00 w :: rest ∧ decode w = .ok i :=
  ⟨State.reset.withFetchWord 32 0x20000000, 0x20000000, .build, [], rfl, by decide⟩

/-- A host for each clause; the bus read is a move of the general one. -/
theorem witness_StepOfTheOtherMoves : ∃ a b c d e f : State, a.host = [] ∧ b.host = [.attach [1]] ∧
    c.host = [.hardReset] ∧ d.host = [.write 4 0x04 9] ∧ e.host = [.write 4 0x28 9] ∧
    f.host = [.write 4 0x00 0x00000001] ∧ ¬ Claims.LegalWord 0x00000001 :=
  ⟨State.reset, { State.reset with host := [.attach [1]] }, { State.reset with host := [.hardReset] },
    { State.reset with host := [.write 4 0x04 9] }, { State.reset with host := [.write 4 0x28 9] },
    { State.reset with host := [.write 4 0x00 0x00000001] }, rfl, rfl, rfl, rfl, rfl, rfl,
    by unfold Claims.LegalWord; decide⟩

/-- A narrow and a misaligned access, the first unmapped offset, the last register; no offset is both
unmapped and listed. -/
theorem witness_BusCornerCases : ¬ (2 = 4 ∧ 0 % 4 = 0) ∧ ¬ (4 = 4 ∧ 0x36 % 4 = 0) ∧
    (0x38 ≤ 0x38 ∧ 0x38 % 4 = 0) ∧
    0x34 ∈ [0x08, 0x0C, 0x10, 0x14, 0x18, 0x1C, 0x20, 0x24, 0x2C, 0x30, 0x34] ∧
    (∀ off ∈ [0x08, 0x0C, 0x10, 0x14, 0x18, 0x1C, 0x20, 0x24, 0x2C, 0x30, 0x34], ¬ 0x38 ≤ off) := by
  decide

theorem witness_RegistersShowTheState : 0x34 % 4 = 0 ∧ abc.nodes.length ≤ 511 ∧ abc.heap.length ≤ 256 := by
  decide

theorem witness_ResetCommandRule : ∃ t, exec .reset faulted = .next t ∧ faulted.err ≠ .ok ∧ t.err = .ok :=
  ⟨_, rfl, by decide, rfl⟩

theorem witness_FaultedBlockRefusesAllButReset :
    faulted.err ≠ .ok ∧ (0x00000000 : Word) ≠ 0x01000000 ∧ 0x34 % 4 = 0 := by decide

theorem witness_PhaseAdmission : abc.err = .ok ∧ abc.phase = .tree ∧ State.reset.err = .ok ∧
    State.reset.phase = .freq ∧ (∃ t, exec .build abc = .next t ∧ t.err = .phase) ∧
    (∃ t, exec .decRun State.reset = .next t ∧ t.err = .phase) :=
  ⟨rfl, rfl, rfl, rfl, ⟨_, rfl, rfl⟩, ⟨_, rfl, rfl⟩⟩

theorem witness_RaiseKeepsResAndTree : ∃ t, exec (.rdHeap 1) abc = .next t ∧ abc.err = .ok ∧ t.err ≠ .ok := by
  obtain ⟨t, h, e⟩ := next_of_check test_rdHeap.2
  exact ⟨t, h, rfl, by simp_all⟩

/-- Each error arises. -/
theorem witness_ErrorsComeFromTheirCommands :
    (∃ t, exec .build State.reset = .next t ∧ t.err = .empty) ∧
    check (exec .decSym abc) (fun t => t.err = .trunc) = true ∧
    check (exec (.rdNode 6 0) abc) (fun t => t.err = .illegal) = true ∧
    check (exec (.putSym 0x64) abc) (fun t => t.err = .noCode) = true ∧
    check (exec (.ftCount 0) { State.reset with freq := counts [(0, 0xFFFFFFFF)] })
      (fun t => t.err = .countOvf) = true ∧
    check (exec .decSym { single with src := [0x80] }) (fun t => t.err = .badCode) = true ∧
    check (exec (.rdNode 0 5) abc) (fun t => t.err = .range) = true := by
  refine ⟨?_, by decide +kernel⟩
  obtain ⟨t, h, e⟩ := next_of_check test_build_on_an_empty_table
  exact ⟨t, h, by simp_all⟩

theorem witness_PhaseTransitionsAndFrozenTables :
    (∃ t, exec .build counted = .next t ∧ t.phase ≠ counted.phase) ∧
    check (exec .ftClear abc) (fun t => t.phase ≠ abc.phase) = true ∧
    (∃ t, exec .nop abc = .next t ∧ abc.phase = .tree) :=
  ⟨by
      obtain ⟨t, h, e⟩ := next_of_check test_build_makes_the_example_tree
      exact ⟨t, h, by simp_all [counted, State.reset]⟩,
    by decide +kernel, _, rfl, rfl⟩

/-- The common checks of every command rule: a faulted block, and a phase that does not admit. -/
theorem witness_CommonChecks : faulted.err ≠ .ok ∧
    (abc.err = .ok ∧ Admission.freqOnly.admits abc.phase = false) ∧
    (State.reset.err = .ok ∧ Admission.treeOnly.admits State.reset.phase = false) := by decide

/-- NOP, FT_CLEAR, FT_READ, RD_CODELEN, RD_CODEBITS, WR_INIT, RD_INIT: any block that is not faulted. -/
theorem witness_AnyPhaseRules : State.reset.err = .ok ∧ abc.err = .ok := ⟨rfl, rfl⟩

theorem witness_FtCountRule :
    (let s : State := { State.reset with freq := counts [(0, 0xFFFFFFFF)] }
     s.Ready .freqOnly ∧ tableAt s.freq 0 = 0xFFFFFFFF) ∧
    (let s : State := { State.reset with freq := counts [(0, 0xFFFFFFFE)] }
     s.Ready .freqOnly ∧ tableAt s.freq 0 ≠ 0xFFFFFFFF ∧ (1 : Byte) ≠ 0) := by
  unfold State.Ready; decide +kernel

theorem witness_FtLoadAndFtReadRules : counted.Ready .freqOnly ∧ counted.err = .ok ∧ (1 : Byte) ≠ 0 := by
  unfold State.Ready; decide

theorem nearlyFull_at (y : Byte) :
    tableAt (counts [(0, 0xFFFFFFFE)]) y = if y = 0 then 0xFFFFFFFE else 0 := by
  simp [counts, tableAt_tablePut]

theorem witness_FtScanRule_completes : ∃ s : State, s.Ready .freqOnly ∧
    ∀ y, (tableAt s.freq y).toNat + s.src.count y < 2 ^ 32 :=
  ⟨{ State.reset with freq := counts [(0, 0xFFFFFFFE)], src := [0] }, ⟨rfl, rfl⟩, by
    intro y
    have h := List.count_le_length (a := y) (l := [(0 : Byte)])
    simp only [nearlyFull_at]
    split
    · simp_all
    · exact Nat.lt_of_le_of_lt (Nat.add_le_add_left h _) (by decide)⟩

theorem witness_FtScanRule_overflows : ∃ s : State, s.Ready .freqOnly ∧ s.src = [0] ++ 0 :: [1] ∧
    (∀ y, (tableAt s.freq y).toNat + [(0 : Byte)].count y < 2 ^ 32) ∧
    (tableAt s.freq 0).toNat + [(0 : Byte)].count 0 = 2 ^ 32 - 1 :=
  ⟨{ State.reset with freq := counts [(0, 0xFFFFFFFE)], src := [0, 0, 1] }, ⟨rfl, rfl⟩, rfl, by
    intro y
    have h := List.count_le_length (a := y) (l := [(0 : Byte)])
    simp only [nearlyFull_at]
    split
    · simp_all
    · exact Nat.lt_of_le_of_lt (Nat.add_le_add_left h _) (by decide), by simp only [nearlyFull_at]; decide⟩

theorem reset_nuniq : State.reset.nuniq = 0 := by
  simp [State.nuniq, uniqueSyms, State.reset]

theorem witness_BuildRule : (State.reset.Ready .freqOnly ∧ State.reset.nuniq = 0) ∧
    counted.Ready .freqOnly ∧ counted.nuniq ≠ 0 ∧ counted.nodes = [] ∧ counted.heap = [] :=
  ⟨⟨⟨rfl, rfl⟩, reset_nuniq⟩, ⟨rfl, rfl⟩, counted_nuniq, rfl, rfl⟩

/-- The first merge of vector V1: two extractions. -/
theorem witness_BuildRule_merge : ∃ b : Builder, ∃ l r h₁ h₂,
    heapExtractMin (keyOf b.nodes) b.heap = some (l, h₁) ∧
    heapExtractMin (keyOf b.nodes) h₁ = some (r, h₂) :=
  ⟨⟨[.leaf 0x61 4, .leaf 0x62 3, .leaf 0x63 2], [2, 0, 1]⟩, 2, 1, [1, 0], [0], by decide, by decide⟩

theorem witness_RdNodeRule : (5#4 ≤ 5#4 ∧ 5#4 < 6#4) ∧ abc.err = .ok ∧
    abc.nodes.length ≤ (5 : Idx).toNat ∧ abc.nodes[(2 : Idx).toNat]? = some (.leaf 0x63 2) ∧
    abc.nodes[(4 : Idx).toNat]? = some (.internal 0 3 9) := by decide

theorem witness_RdHeapRule : abc.err = .ok ∧ abc.heap.length ≤ (1 : Idx).toNat ∧
    abc.heap[(0 : Idx).toNat]? = some 4 := by decide

/-- Seven bits pending, and none. -/
theorem witness_PutBitAndFlushRules : ∃ s t : State, s.err = .ok ∧ s.wcnt = 7#3 ∧ s.wcnt ≠ 0 ∧
    t.err = .ok ∧ t.wcnt = 0 ∧ t.wcnt ≠ 7#3 :=
  ⟨{ State.reset with wcnt := 7 }, State.reset, by decide⟩

theorem witness_GetBitRule : ∃ a b c d : State,
    (a.err = .ok ∧ a.rcnt = ⟨7 + 1, by decide⟩) ∧ (b.err = .ok ∧ b.rcnt = 0 ∧ b.reos = true) ∧
    (c.err = .ok ∧ c.rcnt = 0 ∧ c.reos = false ∧ c.src = []) ∧
    (d.err = .ok ∧ d.rcnt = 0 ∧ d.reos = false ∧ d.src = 0xA5 :: []) :=
  ⟨{ State.reset with rcnt := 8 }, { State.reset with reos := true }, State.reset,
    { State.reset with src := [0xA5] }, by decide⟩

theorem witness_PutSymRule : abc.Ready .treeOnly ∧ tableAt abc.code 0x64 = [] ∧
    tableAt abc.code 0x62 ≠ [] := by unfold State.Ready; decide +kernel

theorem witness_EncRunRule : ∃ s t : State, s.Ready .treeOnly ∧ t.Ready .treeOnly ∧
    (∀ b ∈ s.src, tableAt s.code b ≠ []) ∧ s.src ≠ [] ∧
    t.src = [0x61, 0x62] ++ 0x64 :: [0x61] ∧ (∀ c ∈ [0x61, 0x62], tableAt t.code c ≠ []) ∧
    tableAt t.code 0x64 = [] :=
  ⟨decoding [0x61, 0x63] 0, decoding [0x61, 0x62, 0x64, 0x61] 0, ⟨rfl, rfl⟩, ⟨rfl, rfl⟩,
    by decide +kernel⟩

theorem witness_DecSymRule_code : ∃ s : State, s.Inv ∧ s.Ready .treeOnly ∧
    tableAt s.code 0x62 ≠ [] ∧ tableAt s.code 0x62 <+: readerBits s :=
  ⟨decoding [0xC0] 0, decoding_inv _ _, ⟨rfl, rfl⟩, by decide +kernel, by decide +kernel⟩

theorem witness_DecSymRule_truncated : ∃ s : State, s.Inv ∧ s.Ready .treeOnly ∧
    readerBits s <+: tableAt s.code 0x62 ∧ readerBits s ≠ tableAt s.code 0x62 :=
  ⟨decoding [] 0, decoding_inv _ _, ⟨rfl, rfl⟩, by decide +kernel, by decide +kernel⟩

theorem witness_DecSymRule_badCode : ∃ s : State, s.Inv ∧ s.Ready .treeOnly ∧ s.nuniq = 1 ∧
    (readerBits s).head? = some true :=
  ⟨decodingSingle [0x80] 0, decodingSingle_inv _ _, ⟨rfl, rfl⟩, single_nuniq, by decide⟩

theorem witness_DecRunRule_completes : ∃ (s : State) (ys : List Byte), s.Inv ∧ s.Ready .treeOnly ∧
    (∀ y ∈ ys, tableAt s.code y ≠ []) ∧ ys.length = s.remain.toNat ∧
    ys.flatMap (tableAt s.code) <+: readerBits s :=
  ⟨decoding [0x0F, 0xE8] 9, [0x61, 0x61, 0x61, 0x61, 0x62, 0x62, 0x62, 0x63, 0x63], decoding_inv _ _,
    ⟨rfl, rfl⟩, by decide +kernel, rfl, by decide +kernel⟩

theorem witness_DecRunRule_truncated : ∃ (s : State) (ys : List Byte) (y : Byte) (rest : List Bool),
    s.Inv ∧ s.Ready .treeOnly ∧ (∀ y ∈ ys, tableAt s.code y ≠ []) ∧ ys.length < s.remain.toNat ∧
    readerBits s = ys.flatMap (tableAt s.code) ++ rest ∧ rest <+: tableAt s.code y ∧
    rest ≠ tableAt s.code y :=
  ⟨decoding [0x0F] 9, [0x61, 0x61, 0x61, 0x61, 0x62, 0x62], 0x62, [], decoding_inv _ _,
    ⟨rfl, rfl⟩, by decide +kernel, by decide, by decide +kernel, by decide +kernel, by decide +kernel⟩

theorem witness_DecRunRule_badCode : ∃ (s : State) (ys : List Byte) (rest : List Bool),
    s.Inv ∧ s.Ready .treeOnly ∧ (∀ y ∈ ys, tableAt s.code y ≠ []) ∧ s.nuniq = 1 ∧
    ys.length < s.remain.toNat ∧ readerBits s = ys.flatMap (tableAt s.code) ++ true :: rest :=
  ⟨decodingSingle [0x20] 5, [0x61, 0x61], [false, false, false, false, false], decodingSingle_inv _ _,
    ⟨rfl, rfl⟩, by decide +kernel, single_nuniq, by decide, by decide +kernel⟩

/-- The frames, the streams, the counters: commands that answer a next state. -/
theorem witness_Frames : (∃ t, exec (.ftRead 0x61) abc = .next t) ∧ (∃ t, exec (.ftLoad 0x61) counted = .next t) ∧
    (∃ t, exec .ftClear abc = .next t) ∧ (∃ t, exec .flush abc = .next t) ∧
    (∃ t, exec .rdInit abc = .next t) ∧ (∃ t, exec .getBit abc = .next t) ∧
    (∃ t, exec .encRun abc = .next t) ∧ (∃ t, exec .decRun abc = .next t) :=
  ⟨⟨_, rfl⟩, ⟨_, rfl⟩, ⟨_, rfl⟩, ⟨_, rfl⟩, ⟨_, rfl⟩, ⟨_, rfl⟩, ⟨_, rfl⟩, ⟨_, rfl⟩⟩

theorem witness_RunLevelEqualsStepLevel :
    (counted.Ready .freqOnly ∧ ∃ t, exec .ftScan counted = .next t) ∧
    (abc.Ready .treeOnly ∧ (∃ t, exec .encRun abc = .next t) ∧ ∃ t, exec .decRun abc = .next t) :=
  ⟨⟨⟨rfl, rfl⟩, _, rfl⟩, ⟨rfl, rfl⟩, ⟨_, rfl⟩, _, rfl⟩

theorem witness_BuildMakesATree : ∃ t, exec .build counted = .next t ∧ counted.Ready .freqOnly ∧ t.err = .ok := by
  obtain ⟨t, h, e⟩ := next_of_check test_build_makes_the_example_tree
  exact ⟨t, h, ⟨rfl, rfl⟩, by simp_all⟩

theorem witness_EveryStepKeepsTheInvariants : ∃ s t : State, s.Inv ∧ step s = .next t :=
  ⟨moving .hardReset, _, moving_inv _, rfl⟩

theorem witness_InvariantStatesNeverStop : abc.Inv ∧ single.Inv ∧
    (∃ s : State, s.Ready .freqOnly ∧ s.nuniq ≠ 0 ∧ ¬ (s.nodes = [] ∧ s.heap = [])) ∧
    ∃ s : State, exec .decSym s = .fault .absentEntry :=
  ⟨abc_inv, single_inv, ⟨{ counted with heap := [0] }, ⟨rfl, rfl⟩, counted_nuniq, by decide⟩,
    { abc with nodes := [] }, rfl⟩

theorem witness_HeapStatements : Claims.HeapOrder (fun i => i.setWidth 40) [0, 2, 1] ∧
    ([0, 2, 1] : List Idx) ≠ [] := by
  refine ⟨?_, by decide⟩
  intro p a b hp ha hb
  have h : p < 3 := (List.getElem?_eq_some_iff.mp hb).1
  obtain rfl | rfl : p = 1 ∨ p = 2 := by omega
  · cases ha; cases hb; decide
  · cases ha; cases hb; decide

/-- A tie with the parent, a last slot that stays, equal children, a smaller right child. -/
theorem witness_HeapTies : ∃ key : Idx → Freq, ∃ h : List Idx,
    (h[(h.length - 1) / 2]? = some 5 ∧ ¬ key 6 < key 5) ∧ (∀ c ∈ h.take 2, ¬ key c < key 4) ∧
    (h = 5 :: 6 :: [] ∧ key 5 < key 7 ∧ ¬ key 6 < key 5) ∧
    ∃ h' : List Idx, h' = 5 :: 4 :: [] ∧ key 4 < key 7 ∧ key 4 < key 5 :=
  ⟨fun i => if i = 4 then 0 else if i = 7 then 2 else 1, [5, 6], by decide, by decide, by decide,
    [5, 4], by decide⟩

theorem witness_TieBreakExample : ∃ s : State, s.Ready .freqOnly ∧ s.nodes = [] ∧ s.heap = [] ∧
    ∀ y, tableAt s.freq y = if y = 0x41 ∨ y = 0x42 ∨ y = 0x43 then 1 else 0 := by
  refine ⟨{ State.reset with freq := counts [(0x41, 1), (0x42, 1), (0x43, 1)] }, ⟨rfl, rfl⟩, rfl, rfl, ?_⟩
  intro y
  simp only [counts, List.foldl, tableAt_tablePut, tableAt_replicate]
  repeat' split
  all_goals simp_all

theorem witness_TreeStatements : abc.Inv ∧ abc.phase = .tree ∧ 2 ≤ abc.nuniq ∧ single.Inv ∧
    single.degen = true :=
  ⟨abc_inv, rfl, by rw [abc_nuniq]; decide, single_inv, by decide⟩

theorem witness_CodesArePrefixFree : ∃ s : State, s.Inv ∧ s.phase = .tree ∧ tableAt s.code 0x62 ≠ [] ∧
    tableAt s.code 0x62 <+: tableAt s.code 0x62 :=
  ⟨abc, abc_inv, rfl, by decide +kernel, List.prefix_refl _⟩

theorem witness_WriterLaw : State.reset.err = .ok ∧ State.reset.WriterInv ∧ State.reset.wcnt = 0 :=
  ⟨rfl, fun _ _ => BitVec.getLsbD_zero, rfl⟩

/-- A bit of the source, and the end of the stream. -/
theorem witness_ReaderLaw : ∃ s : State, s.err = .ok ∧ s.rcnt = 0 ∧ s.reos = false ∧
    7 / 8 < s.src.length ∧ s.src.length ≤ 8 / 8 :=
  ⟨{ State.reset with src := [0xA5] }, by decide⟩

theorem witness_DecoderLaw : ∃ e d : State, (e.Inv ∧ e.Ready .treeOnly ∧ e.wcnt = 0 ∧
    e.src.length < 2 ^ 32 ∧ ∀ y ∈ e.src, tableAt e.freq y ≠ 0) ∧
    d.Inv ∧ d.Ready .treeOnly ∧ d.freq = e.freq ∧ d.nodes = e.nodes ∧ d.root = e.root ∧
    d.code = e.code ∧ d.rcnt = 0 ∧ d.reos = false ∧ d.remain = BitVec.ofNat 32 e.src.length ∧
    d.src = [0xD8] ++ [0x77] :=
  ⟨decoding [0x62, 0x61, 0x62] 0, decoding [0xD8, 0x77] 3,
    ⟨decoding_inv _ _, ⟨rfl, rfl⟩, rfl, by decide, by decide +kernel⟩, decoding_inv _ _, ⟨rfl, rfl⟩,
    rfl, rfl, rfl, rfl, rfl, rfl, rfl, rfl⟩

/-- No signature, as the vectors take it. -/
def plain : Config.Params := ⟨false, Vector.replicate 4 0⟩

theorem witness_HeaderReadsBack : (2 : BitVec 16).toNat = [((0x61 : Byte), (1 : Word)), (0x62, 1)].length := by
  decide

/-- V61 and V62. -/
theorem witness_HostReports :
    parseContainer plain [0x09, 0, 0, 0, 0x03, 0, 0x61, 0x04, 0, 0, 0, 0x62, 0x03] = .error .truncated ∧
    parseContainer plain [0, 0, 0, 0, 0, 0] = .error .noEntries := by decide +kernel

/-- Moves as an answer whose error is `e`. -/
theorem moves_err {ms : List HostMove} {s : State} {e : Err}
    (h : check (runMoves ms s) (fun t => t.err = e) = true) : ∃ t, runMoves ms s = .next t ∧ t.err = e := by
  obtain ⟨t, ht, he⟩ := next_of_check h
  exact ⟨t, ht, by simpa using he⟩

/-- A complete, a truncated and an all-zero container. -/
theorem witness_HostReports_decompress :
    (∃ k, parseContainer plain [1, 0, 0, 0, 1, 0, 0x61, 1, 0, 0, 0, 0x00] = .ok k) ∧
    (∃ t, runMoves (decompressMoves ⟨1, [(0x61, 1)], [0x00]⟩) State.reset = .next t ∧ t.err = .ok) ∧
    (∃ t, runMoves (decompressMoves ⟨1, [(0x61, 1)], []⟩) State.reset = .next t ∧ t.err = .trunc) ∧
    (∃ t, runMoves (decompressMoves ⟨1, [(0x61, 0)], []⟩) State.reset = .next t ∧ t.err = .empty) :=
  ⟨⟨_, rfl⟩, moves_err (by decide +kernel), moves_err (by decide +kernel),
    moves_err (by decide +kernel)⟩

/-- An error before BUILD completes, a total of 2^32, and a second pass with a byte not counted. -/
theorem witness_HostReports_compress :
    (∃ t, runMoves (issue .reset :: [] ++ [issue .build]) State.reset = .next t ∧ t.err ≠ .ok) ∧
    (∃ t, runMoves (issue .reset :: ((Stmt.loadF 0x61 0xFFFFFFFF).moves ++ (Stmt.loadF 0x62 1).moves) ++
      [issue .build]) State.reset = .next t ∧ t.err = .ok ∧ readAt 0x18 t ≠ 0) ∧
    ∃ t u, runMoves (issue .reset :: [issue (.ftCount 0x61)] ++ [issue .build]) State.reset = .next t ∧
      t.err = .ok ∧ readAt 0x18 t = 0 ∧
      runMoves ([issue (.putSym 0x62)] ++ [issue .flush])
        { t with res := tableAt t.freq 255, resp := .data (tableAt t.freq 255) } = .next u ∧ u.err ≠ .ok := by
  have h₁ : check (runMoves (issue .reset :: [] ++ [issue .build]) State.reset)
      (fun t => t.err ≠ .ok) = true := by decide +kernel
  have h₂ : check (runMoves (issue .reset :: ((Stmt.loadF 0x61 0xFFFFFFFF).moves ++
      (Stmt.loadF 0x62 1).moves) ++ [issue .build]) State.reset)
      (fun t => t.err = .ok ∧ readAt 0x18 t ≠ 0) = true := by decide +kernel
  have h₃ : check (runMoves (issue .reset :: [issue (.ftCount 0x61)] ++ [issue .build]) State.reset)
      (fun t => t.err = .ok ∧ readAt 0x18 t = 0 ∧
        check (runMoves ([issue (.putSym 0x62)] ++ [issue .flush])
          { t with res := tableAt t.freq 255, resp := .data (tableAt t.freq 255) })
          (fun u => u.err ≠ .ok) = true) = true := by decide +kernel
  obtain ⟨t₁, e₁, p₁⟩ := next_of_check h₁
  obtain ⟨t₂, e₂, p₂⟩ := next_of_check h₂
  obtain ⟨t₃, e₃, p₃⟩ := next_of_check h₃
  obtain ⟨a, b, c⟩ := of_decide_eq_true p₃
  obtain ⟨u, e₄, p₄⟩ := next_of_check c
  exact ⟨⟨t₁, e₁, of_decide_eq_true p₁⟩, ⟨t₂, e₂, of_decide_eq_true p₂⟩, t₃, u, e₃, a, b, e₄,
    of_decide_eq_true p₄⟩

/-- The host program ends with a value. -/
def finished (r : HostResult (List Byte)) : Bool :=
  match r with
  | .done _ _ => true
  | .failed _ _ => false
  | .stopped => false

theorem done_of_finished {r : HostResult (List Byte)} (h : finished r = true) : ∃ c t, r = .done c t := by
  cases r with
  | done c t => exact ⟨c, t, rfl⟩
  | failed e t => cases h
  | stopped => cases h

theorem witness_ContainerSizeAccounting : ∃ c t, compress plain [0x61] State.reset = .done c t :=
  done_of_finished (by decide +kernel)

theorem witness_DegenerateAlphabetPayload : 1 ≤ 1 ∧ 1 < 2 ^ 32 := by decide

theorem witness_CompressThenDecompress : ([0x61] : List Byte) ≠ [] ∧ ([0x61] : List Byte).length < 2 ^ 32 := by
  decide

end Sys2Proof.Tests
end

section
/-! SUPPORT. Every command but RESET is a body run in the frame of R275; what a body can change, said
once for all commands. -/

namespace Sys2Proof.Machine

/-! ### Commands as bodies -/

/-- The phases a command is admitted in (R97). -/
def admissionOf : Instr → Admission
  | .ftCount _ | .ftLoad _ | .ftScan | .build => .freqOnly
  | .putSym _ | .encRun | .decSym | .decRun => .treeOnly
  | _ => .any

/-- The pseudocode of a command; a reserved `sel` raises ERR_ILLEGAL, and RESET, which runs outside
the frame of R275, has none. -/
def bodyOf : Instr → State → Res Word
  | .nop, s | .reset, s => .ret 0 s
  | .ftClear, s => .ret 0 (clearTables s)
  | .ftCount y, s => (countOne y s).bind fun _ s => .ret 0 s
  | .ftLoad y, s => .ret 0 { s with freq := tablePut s.freq y s.arg }
  | .ftRead y, s => .ret (tableAt s.freq y) s
  | .ftScan, s => scanLoop s.src s
  | .build, s => buildBody s
  | .rdNode sel idx, s => (nodeField? sel).elim (.raised .illegal s) fun f => rdNodeBody f idx s
  | .rdCodeLen y, s => .ret (BitVec.ofNat 32 (tableAt s.code y).length) s
  | .rdCodeBits y c, s => .ret (codeChunk (tableAt s.code y) c) s
  | .rdHeap idx, s => s.heap[idx.toNat]?.elim (.raised .range s) fun i => .ret (i.setWidth 32) s
  | .wrInit, s => .ret 0 { s with wacc := 0, wcnt := 0 }
  | .putBit b, s => .ret 0 (putBit b s)
  | .putSym y, s => (putSym y s).bind fun _ s => .ret 0 s
  | .flush, s => .ret 0 (flushWriter s)
  | .encRun, s => encLoop s.src s
  | .rdInit, s => .ret 0 { s with rbuf := 0, rcnt := 0, reos := false }
  | .getBit, s => .ret (bitResult (getBit s).1) (getBit s).2
  | .decSym, s => (decSym s).bind fun y s => .ret (y.setWidth 32) s
  | .decRun, s => decLoop s.remain.toNat s

/-- `exec` of a command other than RESET is its body in the frame of R275. -/
theorem exec_eq_command {i : Instr} (h : i ≠ .reset) (s : State) :
    exec i s = command (admissionOf i) (bodyOf i) s := by
  cases i with
  | reset => exact absurd rfl h
  | rdNode sel idx =>
    cases hf : nodeField? sel <;>
      simp [exec, execRdNode, hf, admissionOf, bodyOf, illegalWord, command, Admission.admits,
        rdNodeBody, finish]
  | rdHeap idx =>
    cases hi : s.heap[idx.toNat]? <;>
      simp [exec, execRdHeap, hi, admissionOf, bodyOf, command, Admission.admits]
  | _ => rfl

/-- What a property of states says of how a procedure ends: nothing where it is stuck. -/
def Res.Ends {α : Type} (P : State → Prop) : Res α → Prop
  | .ret _ u => P u
  | .raised _ u => P u
  | .stuck _ => True

@[simp] theorem Res.ends_ret {α : Type} (P : State → Prop) (v : α) (u : State) :
    (Res.ret v u).Ends P ↔ P u := Iff.rfl
@[simp] theorem Res.ends_raised {α : Type} (P : State → Prop) (e : Err) (u : State) :
    (Res.raised e u : Res α).Ends P ↔ P u := Iff.rfl
@[simp] theorem Res.ends_stuck {α : Type} (P : State → Prop) (f : Fault) :
    (Res.stuck f : Res α).Ends P := trivial

theorem Res.Ends.mono {α : Type} {P Q : State → Prop} {r : Res α} (h : r.Ends P)
    (hPQ : ∀ u, P u → Q u) : r.Ends Q := by
  cases r with
  | ret v u => exact hPQ u h
  | raised e u => exact hPQ u h
  | stuck f => trivial

/-- Everything a command other than RESET that answers a next state can have done, when its body, where
it runs, ends in states with the property `P`. -/
theorem exec_cases {P : State → Prop} {i : Instr} {s t : State} (hi : i ≠ .reset)
    (hb : (admissionOf i).admits s.phase = true → (bodyOf i s).Ends P) (h : exec i s = .next t) :
    (∃ e, t = { s with err := e }) ∨
    (s.err = .ok ∧ (admissionOf i).admits s.phase = true ∧ ∃ u, P u ∧
      ((∃ v, bodyOf i s = .ret v u ∧ t = { u with res := v }) ∨
        ∃ e, bodyOf i s = .raised e u ∧ t = raise e u)) := by
  rw [exec_eq_command hi] at h
  obtain ⟨-, rfl⟩ | ⟨-, -, rfl⟩ | ⟨he, ha, v, u, hu, rfl⟩ | ⟨he, ha, e, u, hu, rfl⟩ := command_cases h
  · exact .inl ⟨t.err, rfl⟩
  · exact .inl ⟨.phase, rfl⟩
  · exact .inr ⟨he, ha, u, by simpa [hu] using hb ha, .inl ⟨v, hu, rfl⟩⟩
  · exact .inr ⟨he, ha, u, by simpa [hu] using hb ha, .inr ⟨e, hu, rfl⟩⟩

/-! ### What a body changes -/

/-- Bytes went from the front of the source and to the end of the sink, and the counters followed
(R37, R38, R68, R69). -/
def StreamsMoved (s u : State) : Prop :=
  ∃ pulled appended, s.src = pulled ++ u.src ∧ u.snk = s.snk ++ appended ∧
    u.srcCount = s.srcCount + BitVec.ofNat 32 pulled.length ∧
    u.snkCount = s.snkCount + BitVec.ofNat 32 appended.length

/-- The tree, its codes and the phase are those of `s`. -/
structure SameTree (s u : State) : Prop where
  phase : u.phase = s.phase := by rfl
  nodes : u.nodes = s.nodes := by rfl
  root : u.root = s.root := by rfl
  heap : u.heap = s.heap := by rfl
  code : u.code = s.code := by rfl

/-- What the body of the command `i`, started in `s`, has done and left alone where it ends in `u`. -/
structure BodyRan (i : Instr) (s u : State) : Prop where
  err : u.err = s.err := by rfl
  arg : u.arg = s.arg := by rfl
  remain : i ≠ .decRun → u.remain = s.remain := by intros; rfl
  streams : StreamsMoved s u
  writer : s.WriterInv → u.WriterInv
  /-- The commands that change counts are FT_CLEAR and three that phase FREQ alone admits. -/
  freq : i ≠ .ftClear → admissionOf i ≠ .freqOnly ∨ i = .build → u.freq = s.freq := by intros; rfl
  tree : i ≠ .ftClear → i ≠ .build → SameTree s u := by intros; exact {}

theorem StreamsMoved.refl {s u : State} (src : u.src = s.src := by rfl)
    (snk : u.snk = s.snk := by rfl) (srcCount : u.srcCount = s.srcCount := by rfl)
    (snkCount : u.snkCount = s.snkCount := by rfl) : StreamsMoved s u :=
  ⟨[], [], by simp [src], by simp [snk], by simp [srcCount], by simp [snkCount]⟩

theorem BodyRan.refl (i : Instr) (s : State) : BodyRan i s s where
  streams := .refl
  writer := id

/-- A decoder's move of the reader (R216). -/
theorem BodyRan.of_readerMoved {i : Instr} {s u : State} (h : ReaderMoved s u) : BodyRan i s u := by
  obtain ⟨b, n, e, p, r, hp, rfl⟩ := h
  exact { streams := ⟨p, [], hp, by simp, rfl, by simp⟩, writer := id }

/-- What DEC_RUN decoded (R218). -/
theorem BodyRan.of_decoded {s u : State} (h : Decoded s u) : BodyRan .decRun s u := by
  obtain ⟨ys, b, n, e, p, r, hp, rfl⟩ := h
  exact { remain := fun h => absurd rfl h, streams := ⟨p, ys, hp, rfl, rfl, rfl⟩, writer := id }

/-- Puts move the writer and the sink alone (R187). -/
theorem BodyRan.of_putBits (i : Instr) (bs : List Bool) (s : State) :
    BodyRan i s (putBits bs s) where
  err := by simp
  arg := by simp
  remain := by simp
  streams := by
    obtain ⟨a, n, k, h⟩ := putBits_form bs s
    exact ⟨[], k, by simp, by rw [h], by simp, by rw [h]⟩
  writer := putBits_writerInv bs
  freq := by simp
  tree := fun _ _ => { phase := by simp, nodes := by simp, root := by simp, heap := by simp,
                       code := by simp }

/-- ENC_RUN's loop keeps the writer invariant (R44, R213). -/
theorem encLoop_writerInv (bs : List Byte) {s : State} (hs : s.WriterInv) :
    (encLoop bs s).Ends State.WriterInv := by
  induction bs generalizing s with
  | nil => exact hs
  | cons b rest ih =>
    by_cases hb : tableAt s.code b = []
    · rw [encLoop, putSym_noCode]
      exacts [hs, hb]
    · rw [encLoop, putSym_ok]
      exacts [ih (putBits_writerInv _ hs), hb]

/-- What each body does, one case for each command. -/
theorem bodyOf_ran (i : Instr) (s : State) : (bodyOf i s).Ends (BodyRan i s) := by
  cases i with
  | nop | reset | ftRead | rdCodeLen | rdCodeBits => exact .refl _ s
  | ftClear => exact { streams := .refl, writer := id, freq := by simp, tree := by simp }
  | ftCount y =>
    rw [bodyOf]
    by_cases hy : tableAt s.freq y = 0xFFFFFFFF#32
    · rw [countOne_overflow hy]
      exact .refl _ s
    · rw [countOne_ok hy]
      exact { streams := .refl, writer := id, freq := by simp [admissionOf] }
  | ftLoad y => exact { streams := .refl, writer := id, freq := by simp [admissionOf] }
  | ftScan =>
    obtain ⟨f, p, r, hp, e | e⟩ := scanLoop_form s.src s rfl <;> rw [bodyOf, e] <;>
      exact { streams := ⟨p, [], hp, by simp, rfl, by simp⟩, writer := id,
              freq := by simp [admissionOf] }
  | build =>
    obtain ⟨-, e⟩ | ⟨-, -, e⟩ | ⟨-, -, -, r, -, e⟩ := buildBody_cases s <;> rw [bodyOf, e]
    · exact .refl _ s
    · exact Res.ends_stuck _ _
    · exact { streams := .refl, writer := id, tree := by simp }
  | rdNode sel idx =>
    rw [bodyOf]
    cases nodeField? sel with
    | none => exact BodyRan.refl _ s
    | some f =>
      simp only [Option.elim_some, rdNodeBody]
      split <;> exact BodyRan.refl _ s
  | rdHeap idx =>
    rw [bodyOf]
    cases s.heap[idx.toNat]? <;> exact BodyRan.refl _ s
  | wrInit => exact { streams := .refl, writer := fun _ k _ => BitVec.getLsbD_zero }
  | putBit b => exact .of_putBits _ [b] s
  | putSym y =>
    rw [bodyOf]
    by_cases hy : tableAt s.code y = []
    · rw [putSym_noCode hy]
      exact .refl _ s
    · rw [putSym_ok hy]
      exact .of_putBits _ _ s
  | flush =>
    have hw : s.WriterInv → (flushWriter s).WriterInv := flushWriter_writerInv
    obtain ⟨a, n, k, h⟩ := flushWriter_form s
    rw [bodyOf]
    rw [h] at hw ⊢
    exact { streams := ⟨[], k, rfl, rfl, by simp, rfl⟩, writer := hw }
  | encRun =>
    have hw : s.WriterInv → (encLoop s.src s).Ends State.WriterInv := encLoop_writerInv s.src
    rw [bodyOf]
    obtain ⟨a, n, k, p, r, hp, e | e⟩ := encLoop_form s.src s rfl <;> rw [e] at hw ⊢ <;>
      exact { streams := ⟨p, k, hp, rfl, rfl, rfl⟩, writer := hw }
  | rdInit => exact { streams := .refl, writer := id }
  | getBit => exact .of_readerMoved (readerMoved_getBit s)
  | decSym =>
    obtain ⟨y, u, e, m⟩ | ⟨u, e | e, m⟩ | e := decSym_ends s <;> rw [bodyOf, e]
    · exact .of_readerMoved m
    · exact .of_readerMoved m
    · exact .of_readerMoved m
    · exact Res.ends_stuck _ _
  | decRun =>
    rw [bodyOf]
    obtain ⟨u, m, e | e | e⟩ | e := decLoop_ends s.remain.toNat s <;> rw [e]
    · exact .of_decoded m
    · exact .of_decoded m
    · exact .of_decoded m
    · exact Res.ends_stuck _ _

/-- A command other than RESET has done what its body did, RES and ERR apart; one that is refused has
run no body. -/
theorem exec_ran {i : Instr} {s t : State} (hi : i ≠ .reset) (h : exec i s = .next t) :
    ∃ u v e, BodyRan i s u ∧ t = { u with res := v, err := e } := by
  obtain ⟨e, rfl⟩ | ⟨-, -, u, hu, ⟨v, -, rfl⟩ | ⟨e, -, rfl⟩⟩ := exec_cases hi (fun _ => bodyOf_ran i s) h
  · exact ⟨s, s.res, e, .refl i s, rfl⟩
  · exact ⟨u, v, u.err, hu, rfl⟩
  · exact ⟨u, u.res, e, hu, rfl⟩

end Sys2Proof.Machine
end

section
/-! SUPPORT. Which commands change the phase and the tables (R25, R74), and how the streams and their
counters move (R37, R38). -/

namespace Sys2Proof.Machine

/-- Which commands change PHASE (R25). -/
theorem phase_transition {i : Instr} {s t : State} (h : exec i s = .next t) (hp : t.phase ≠ s.phase) :
    (i = .build ∧ s.phase = .freq ∧ t.err = .ok) ∨ (i = .ftClear ∧ s.phase = .tree) ∨
      i = .reset := by
  by_cases hi : i = .reset
  · exact .inr (.inr hi)
  obtain ⟨e, rfl⟩ | ⟨he, ha, u, hu, ht⟩ := exec_cases hi (fun _ => bodyOf_ran i s) h
  · exact absurd rfl hp
  have hpu : u.phase ≠ s.phase := by obtain ⟨v, -, rfl⟩ | ⟨e, -, rfl⟩ := ht <;> exact hp
  by_cases hc : i = .ftClear
  · subst hc
    obtain ⟨v, hv, -⟩ | ⟨e, hv, -⟩ := ht
    · cases hv
      refine .inr (.inl ⟨rfl, ?_⟩)
      cases hs : s.phase with
      | freq => exact absurd hs.symm hpu
      | tree => rfl
    · cases hv
  by_cases hb : i = .build
  · subst hb
    have hf : s.phase = .freq := by simpa [admissionOf, Admission.admits] using ha
    obtain ⟨v, -, rfl⟩ | ⟨e, hv, -⟩ := ht
    · exact .inl ⟨rfl, hf, hu.err.trans he⟩
    · obtain ⟨-, e'⟩ | ⟨-, -, e'⟩ | ⟨-, -, -, r, -, e'⟩ := buildBody_cases s <;>
        rw [bodyOf, e'] at hv <;> cases hv
      exact absurd rfl hpu
  · exact absurd (hu.tree hc hb).phase hpu

/-- Phase TREE freezes the tables for every command but FT_CLEAR and RESET (R25, R74). -/
theorem tables_frozen {i : Instr} {s t : State} (h : exec i s = .next t) (hp : s.phase = .tree)
    (hc : i ≠ .ftClear) (hr : i ≠ .reset) : t.freq = s.freq ∧ SameTree s t := by
  obtain ⟨e, rfl⟩ | ⟨-, ha, u, hu, ht⟩ := exec_cases hr (fun _ => bodyOf_ran i s) h
  · exact ⟨rfl, {}⟩
  have hadm : admissionOf i ≠ .freqOnly := fun hf => by simp [hf, hp, Admission.admits] at ha
  have hb : i ≠ .build := by rintro rfl; exact hadm rfl
  have hf := hu.freq hc (.inl hadm)
  obtain ⟨h1, h2, h3, h4, h5⟩ := hu.tree hc hb
  obtain ⟨v, -, rfl⟩ | ⟨e, -, rfl⟩ := ht <;> exact ⟨hf, h1, h2, h3, h4, h5⟩

end Sys2Proof.Machine

open Sys2Proof Sys2Proof.Machine

/-- Settles O16: a body that is neither FT_CLEAR nor BUILD keeps the tree and the phase, and phase TREE
admits none of those that change counts. -/
theorem phaseTransitionsAndFrozenTables : Obligations.PhaseTransitionsAndFrozenTables := by
  intro i s t h
  refine ⟨phase_transition h, fun hp hc hr => ?_⟩
  obtain ⟨hf, ht⟩ := tables_frozen h hp hc hr
  exact ⟨hf, ht.nodes, ht.root, ht.heap, ht.code⟩

/-- Settles O37, from what a body does to the streams. -/
theorem streamsAndCountersAgree : Obligations.StreamsAndCountersAgree := by
  intro i s t h
  by_cases hi : i = .reset
  · subst hi
    cases h
    exact ⟨[], [], by simp, by simp, by simp, fun h => absurd rfl h⟩
  · obtain ⟨u, v, e, hu, rfl⟩ := exec_ran hi h
    obtain ⟨p, a, h1, h2, h3, h4⟩ := hu.streams
    exact ⟨p, a, h1, h2, fun h => absurd h hi, fun _ => ⟨h3, h4⟩⟩
end

section
/-! SUPPORT. Noninterference of ARG and REMAIN (R21, R36): a body run in a state with other values there
ends in the same way, with the other values. -/

namespace Sys2Proof.Machine

/-- `s` with ARG and REMAIN changed. -/
def onHost (f g : Word → Word) (s : State) : State :=
  { s with arg := f s.arg, remain := g s.remain }

/-- The same end of a procedure, in the changed state. -/
def Res.mapState {α : Type} (m : State → State) : Res α → Res α
  | .ret v s => .ret v (m s)
  | .raised e s => .raised e (m s)
  | .stuck f => .stuck f

@[simp] theorem Res.mapState_ret {α : Type} (m : State → State) (v : α) (s : State) :
    (Res.ret v s).mapState m = .ret v (m s) := rfl
@[simp] theorem Res.mapState_raised {α : Type} (m : State → State) (e : Err) (s : State) :
    (Res.raised e s : Res α).mapState m = .raised e (m s) := rfl
@[simp] theorem Res.mapState_stuck {α : Type} (m : State → State) (f : Fault) :
    (Res.stuck f : Res α).mapState m = .stuck f := rfl

/-- Going on commutes with the change when the continuation does. -/
theorem Res.bind_mapState {α β : Type} {m : State → State} {r r' : Res α} {k : α → State → Res β}
    (hr : r' = r.mapState m) (hk : ∀ v s, k v (m s) = (k v s).mapState m) :
    r'.bind k = (r.bind k).mapState m := by
  subst hr
  cases r with
  | ret v s => exact hk v s
  | raised e s => rfl
  | stuck f => rfl

variable (f g : Word → Word)

theorem putBit_onHost (b : Bool) (s : State) : putBit b (onHost f g s) = onHost f g (putBit b s) := by
  by_cases h : s.wcnt = 7#3 <;> simp [putBit, onHost, snkAppend, h]

theorem putBits_onHost (bs : List Bool) (s : State) :
    putBits bs (onHost f g s) = onHost f g (putBits bs s) := by
  induction bs generalizing s with
  | nil => rfl
  | cons b bs ih => rw [putBits_cons, putBit_onHost, ih, putBits_cons]

theorem flushWriter_onHost (s : State) :
    flushWriter (onHost f g s) = onHost f g (flushWriter s) := by
  by_cases h : s.wcnt = 0#3 <;> simp [flushWriter, onHost, snkAppend, h]

theorem getBit_onHost (s : State) :
    getBit (onHost f g s) = ((getBit s).1, onHost f g (getBit s).2) := by
  by_cases h : s.rcnt = 0
  · cases he : s.reos with
    | true => rw [getBit_latched h he, getBit_latched (s := onHost f g s) h he]
    | false =>
      cases hs : s.src with
      | nil => rw [getBit_eos h he hs, getBit_eos (s := onHost f g s) h he hs]; rfl
      | cons v rest => rw [getBit_pull h he hs, getBit_pull (s := onHost f g s) h he hs]; rfl
  · rw [getBit_buffered h, getBit_buffered (s := onHost f g s) h]; rfl

theorem countOne_onHost (y : Byte) (s : State) :
    countOne y (onHost f g s) = (countOne y s).mapState (onHost f g) := by
  by_cases h : tableAt s.freq y = 0xFFFFFFFF#32
  · rw [countOne_overflow h, countOne_overflow (s := onHost f g s) h]; rfl
  · rw [countOne_ok h, countOne_ok (s := onHost f g s) h]; rfl

theorem putSym_onHost (y : Byte) (s : State) :
    putSym y (onHost f g s) = (putSym y s).mapState (onHost f g) := by
  by_cases h : tableAt s.code y = []
  · rw [putSym_noCode h, putSym_noCode (s := onHost f g s) h]; rfl
  · rw [putSym_ok h, putSym_ok (s := onHost f g s) h, Res.mapState_ret, ← putBits_onHost]; rfl

theorem scanLoop_onHost (bs : List Byte) (s : State) :
    scanLoop bs (onHost f g s) = (scanLoop bs s).mapState (onHost f g) := by
  induction bs generalizing s with
  | nil => rfl
  | cons b rest ih =>
    exact Res.bind_mapState
      (countOne_onHost f g b { s with src := rest, srcCount := s.srcCount + 1 }) fun _ u => ih u

theorem encLoop_onHost (bs : List Byte) (s : State) :
    encLoop bs (onHost f g s) = (encLoop bs s).mapState (onHost f g) := by
  induction bs generalizing s with
  | nil => rfl
  | cons b rest ih =>
    exact Res.bind_mapState
      (putSym_onHost f g b { s with src := rest, srcCount := s.srcCount + 1 }) fun _ u => ih u

theorem decWalk_onHost (n : Nat) (c : Idx) (s : State) :
    decWalk n c (onHost f g s) = (decWalk n c s).mapState (onHost f g) := by
  induction n generalizing c s with
  | zero =>
    rw [decWalk, decWalk, getBit_onHost, show (onHost f g s).nodes = s.nodes from rfl]
    rcases s.nodes[c.toNat]? with _ | ⟨y, w⟩ | ⟨l, r, w⟩
    · rfl
    · rfl
    · rcases getBit s with ⟨_ | b, u⟩ <;> rfl
  | succ n ih =>
    rw [decWalk, decWalk, getBit_onHost, show (onHost f g s).nodes = s.nodes from rfl]
    rcases s.nodes[c.toNat]? with _ | ⟨y, w⟩ | ⟨l, r, w⟩
    · rfl
    · rfl
    · rcases getBit s with ⟨_ | b, u⟩
      · rfl
      · exact ih _ u

theorem decSym_onHost (s : State) :
    decSym (onHost f g s) = (decSym s).mapState (onHost f g) := by
  rw [decSym, decSym, getBit_onHost, show (onHost f g s).nodes = s.nodes from rfl,
    show (onHost f g s).root = s.root from rfl]
  rcases s.nodes[s.root.toNat]? with _ | ⟨y, w⟩ | ⟨l, r, w⟩
  · rfl
  · rcases getBit s with ⟨_ | _ | _, u⟩ <;> rfl
  · exact decWalk_onHost f g _ _ s

theorem decLoop_onHost (n : Nat) (s : State) :
    decLoop n (onHost f id s) = (decLoop n s).mapState (onHost f id) := by
  induction n generalizing s with
  | zero => rfl
  | succ n ih =>
    exact Res.bind_mapState (decSym_onHost f id s) fun y u =>
      ih { snkAppend y u with remain := u.remain - 1 }

theorem buildBody_onHost (s : State) :
    buildBody (onHost f g s) = (buildBody s).mapState (onHost f g) := by
  obtain ⟨h, e⟩ | ⟨h, h', e⟩ | ⟨h, hn, hh, r, hr, e⟩ := buildBody_cases s <;> rw [e]
  · exact if_pos h
  · obtain ⟨h₁, -⟩ | ⟨-, -, e'⟩ | ⟨-, h₁, h₂, -⟩ := buildBody_cases (onHost f g s)
    · exact absurd h₁ h
    · exact e'
    · exact absurd ⟨h₁, h₂⟩ h'
  · obtain ⟨h₁, -⟩ | ⟨-, h₁, -⟩ | ⟨-, -, -, r', hr', e'⟩ := buildBody_cases (onHost f g s)
    · exact absurd h₁ h
    · exact absurd ⟨hn, hh⟩ h₁
    · obtain rfl : r' = r := by simpa using hr'.symm.trans hr
      exact e'

/-- Only FT_LOAD reads ARG, and only DEC_RUN reads REMAIN (R21, R36). -/
theorem bodyOf_onHost {i : Instr} (hf : (∃ y, i = .ftLoad y) → f = id) (hg : i = .decRun → g = id)
    (s : State) : bodyOf i (onHost f g s) = (bodyOf i s).mapState (onHost f g) := by
  cases i with
  | nop | reset | ftRead | rdCodeLen | rdCodeBits | ftClear | wrInit | rdInit => rfl
  | ftCount y => exact Res.bind_mapState (countOne_onHost f g y s) fun _ _ => rfl
  | ftLoad y =>
    obtain rfl := hf ⟨y, rfl⟩
    rfl
  | ftScan => exact scanLoop_onHost f g s.src s
  | build => exact buildBody_onHost f g s
  | rdNode sel idx =>
    rw [bodyOf, bodyOf]
    cases nodeField? sel with
    | none => rfl
    | some k =>
      rw [Option.elim_some, Option.elim_some, rdNodeBody, rdNodeBody,
        show (onHost f g s).nodes = s.nodes from rfl]
      cases s.nodes[idx.toNat]? <;> rfl
  | rdHeap idx =>
    rw [bodyOf, bodyOf, show (onHost f g s).heap = s.heap from rfl]
    cases s.heap[idx.toNat]? <;> rfl
  | putBit b => rw [bodyOf, bodyOf, putBit_onHost]; rfl
  | putSym y => exact Res.bind_mapState (putSym_onHost f g y s) fun _ _ => rfl
  | flush => rw [bodyOf, bodyOf, flushWriter_onHost]; rfl
  | encRun => exact encLoop_onHost f g s.src s
  | getBit => rw [bodyOf, bodyOf, getBit_onHost]; rfl
  | decSym => exact Res.bind_mapState (decSym_onHost f g s) fun _ _ => rfl
  | decRun =>
    obtain rfl := hg rfl
    exact decLoop_onHost f s.remain.toNat s

/-- Noninterference of ARG and REMAIN for a command. -/
theorem exec_onHost {i : Instr} {s t : State} (hi : i ≠ .reset)
    (hf : (∃ y, i = .ftLoad y) → f = id) (hg : i = .decRun → g = id) (h : exec i s = .next t) :
    exec i (onHost f g s) = .next (onHost f g t) := by
  rw [exec_eq_command hi] at h ⊢
  obtain ⟨he, rfl⟩ | ⟨he, ha, rfl⟩ | ⟨he, ha, v, u, hu, rfl⟩ | ⟨he, ha, e, u, hu, rfl⟩ :=
    command_cases h
  · exact command_faulted he
  · exact command_outOfPhase he ha
  · rw [command_run (s := onHost f g s) he ha, bodyOf_onHost f g hf hg, hu]; rfl
  · rw [command_run (s := onHost f g s) he ha, bodyOf_onHost f g hf hg, hu]; rfl

end Sys2Proof.Machine

open Sys2Proof Sys2Proof.Machine

/-- Settles O38, by commutation of every body with a change of ARG and REMAIN. -/
theorem argAndRemainAreTheHosts : Obligations.ArgAndRemainAreTheHosts := by
  intro i s t hi h
  obtain ⟨u, v, e, hu, rfl⟩ := exec_ran hi h
  refine ⟨hu.arg, hu.remain, fun hf a => ?_, fun hd r => ?_⟩
  · exact exec_onHost (fun _ => a) id hi (fun ⟨y, hy⟩ => absurd hy (hf y)) (fun _ => rfl) h
  · exact exec_onHost id (fun _ => r) hi (fun _ => rfl) (fun hd' => absurd hd' hd) h
end

section
/-! SUPPORT. The forest of BUILD (R141 to R144, R150, R154): what the arena and the queue hold after
seeding and after every merge pass, and its weights. -/

namespace Sys2Proof.Machine

/-- The sum of all 256 counts, without wrap (R32). -/
def countSum (freq : Vector Word 256) : Nat := (allSyms.map fun y => (tableAt freq y).toNat).sum

/-- The indices that stand as children in the arena, as numbers. -/
def childIndices (nodes : List Node) : List Nat := (nodes.flatMap Node.children).map BitVec.toNat

/-- The frequency of node `k` as a number, 0 where there is none. -/
def weightAt (nodes : List Node) (k : Nat) : Nat := (nodes[k]?.map fun n => n.freq.toNat).getD 0

/-- The arena is a forest with these roots over the leaves of `freq`: the leaves come first, every
internal node has children below it and their exact sum, and every node is either a root or the child
of exactly one internal node. -/
structure Forest (freq : Vector Word 256) (nodes : List Node) (roots : List Idx) : Prop where
  leaves : nodes.take (uniqueSyms freq).length = seedLeaves freq
  internal : ∀ i, (uniqueSyms freq).length ≤ i → i < nodes.length →
    ∃ l r f, nodes[i]? = some (.internal l r f) ∧ l.toNat < i ∧ r.toNat < i ∧
      f.toNat = (keyOf nodes l).toNat + (keyOf nodes r).toNat
  parents : (childIndices nodes ++ roots.map BitVec.toNat).Perm (List.range nodes.length)

/-! ### Counts -/

/-- The counts that are 0 add nothing. -/
theorem sum_filter_counts (freq : Vector Word 256) (ys : List Byte) :
    ((ys.filter fun y => tableAt freq y ≠ 0).map fun y => (tableAt freq y).toNat).sum =
      (ys.map fun y => (tableAt freq y).toNat).sum := by
  induction ys with
  | nil => rfl
  | cons y ys ih => by_cases hy : tableAt freq y = 0 <;> simp_all

/-- A count does not change in 40 bits. -/
theorem toNat_count (freq : Vector Word 256) (y : Byte) :
    ((tableAt freq y).setWidth 40).toNat = (tableAt freq y).toNat :=
  BitVec.toNat_setWidth_of_le (by decide)

/-- The weights of the seeded leaves are the counts (R142, R150). -/
theorem sum_seedLeaves (freq : Vector Word 256) :
    ((seedLeaves freq).map fun n => n.freq.toNat).sum = countSum freq := by
  rw [countSum, ← sum_filter_counts, seedLeaves, List.map_map]
  simp only [Function.comp_def, Node.freq, toNat_count, uniqueSyms]

/-- 256 counts of 32 bits fit in 40 bits (R32). -/
theorem countSum_lt (freq : Vector Word 256) : countSum freq < 2 ^ 40 := by
  have h := List.sum_le_card_nsmul (allSyms.map fun y => (tableAt freq y).toNat) (2 ^ 32 - 1)
    (by
      intro k hk
      obtain ⟨y, -, rfl⟩ := List.mem_map.1 hk
      have := (tableAt freq y).isLt
      omega)
  simp only [List.length_map, smul_eq_mul, show allSyms.length = 256 by simp [allSyms]] at h
  unfold countSum
  omega

/-! ### Weights -/

theorem childIndices_append (as bs : List Node) :
    childIndices (as ++ bs) = childIndices as ++ childIndices bs := by
  simp [childIndices]

theorem childIndices_seedLeaves (freq : Vector Word 256) : childIndices (seedLeaves freq) = [] := by
  simp [childIndices, seedLeaves, Node.children, List.flatMap_map]

theorem toNat_keyOf {nodes : List Node} {i : Idx} (h : i.toNat < nodes.length) :
    (keyOf nodes i).toNat = weightAt nodes i.toNat := by
  simp [keyOf, weightAt, h]

theorem map_weightAt_range (nodes : List Node) :
    (List.range nodes.length).map (weightAt nodes) = nodes.map fun n => n.freq.toNat := by
  refine List.ext_getElem (by simp) fun k h₁ h₂ => ?_
  have hk : k < nodes.length := by simpa using h₂
  simp [weightAt, hk]

/-- Nodes whose frequencies are those of their children weigh what their children weigh. -/
theorem sum_freq_eq_children {w : Nat → Nat} {l : List Node}
    (h : ∀ n ∈ l, n.freq.toNat = ((n.children.map BitVec.toNat).map w).sum) :
    (l.map fun n => n.freq.toNat).sum = ((childIndices l).map w).sum := by
  induction l with
  | nil => rfl
  | cons n l ih =>
    have hl := ih fun m hm => h m (List.mem_cons_of_mem n hm)
    rw [List.map_cons, List.sum_cons, hl, h n List.mem_cons_self]
    simp [childIndices]

theorem length_seedLeaves (freq : Vector Word 256) :
    (seedLeaves freq).length = (uniqueSyms freq).length := by simp [seedLeaves]

namespace Forest

variable {freq : Vector Word 256} {nodes : List Node} {roots : List Idx}

theorem unique_le (h : Forest freq nodes roots) : (uniqueSyms freq).length ≤ nodes.length := by
  have := congrArg List.length h.leaves
  rw [List.length_take, length_seedLeaves] at this
  omega

theorem root_lt (h : Forest freq nodes roots) {i : Idx} (hi : i ∈ roots) :
    i.toNat < nodes.length :=
  List.mem_range.1 (h.parents.mem_iff.1
    (List.mem_append_right _ (List.mem_map_of_mem hi)))

/-- The roots weigh what all leaves weigh: TOTAL (R150). -/
theorem sum_roots (h : Forest freq nodes roots) :
    ((roots.map BitVec.toNat).map (weightAt nodes)).sum = countSum freq := by
  have hall := (h.parents.map (weightAt nodes)).sum_eq
  have hsplit := List.take_append_drop (uniqueSyms freq).length nodes
  have hinner : ((nodes.drop (uniqueSyms freq).length).map fun n => n.freq.toNat).sum =
      ((childIndices (nodes.drop (uniqueSyms freq).length)).map (weightAt nodes)).sum := by
    refine sum_freq_eq_children fun n hn => ?_
    obtain ⟨k, hk, rfl⟩ := List.mem_iff_getElem.1 hn
    rw [List.length_drop] at hk
    rw [List.getElem_drop]
    obtain ⟨l, r, f, hi, hl, hr, hf⟩ := h.internal ((uniqueSyms freq).length + k) (by omega) (by omega)
    obtain ⟨hlt, hi⟩ := List.getElem?_eq_some_iff.1 hi
    rw [hi, Node.freq, hf, toNat_keyOf (by omega), toNat_keyOf (by omega)]
    simp [Node.children]
  rw [map_weightAt_range, List.map_append, List.sum_append] at hall
  rw [← hsplit, h.leaves, childIndices_append, childIndices_seedLeaves, List.nil_append,
    List.map_append, List.sum_append, sum_seedLeaves, ← h.leaves, hsplit, hinner] at hall
  omega

end Forest

end Sys2Proof.Machine
end

section
/-! SUPPORT. The builder keeps a forest: seeding starts it, every merge pass joins two of its roots, and
the merge loop ends with one (R141 to R144). -/

namespace Sys2Proof.Machine

/-- What the builder holds from the end of seeding on (R141): a forest whose roots are queued, with
2 × NUNIQ nodes and slots in all, and never an empty queue. -/
structure Builder.Growing (freq : Vector Word 256) (b : Builder) : Prop where
  queue : 0 < b.heap.length
  size : b.nodes.length + b.heap.length = 2 * (uniqueSyms freq).length
  forest : Forest freq b.nodes b.heap

theorem length_uniqueSyms_le (freq : Vector Word 256) : (uniqueSyms freq).length ≤ 256 :=
  nuniq_le { State.reset with freq := freq }

/-- Every node has an index of nine bits (R11). -/
theorem Builder.Growing.nodes_lt {freq : Vector Word 256} {b : Builder} (h : b.Growing freq) :
    b.nodes.length < 512 := by
  have := h.queue
  have := h.size
  have := length_uniqueSyms_le freq
  omega

/-- A node that is added queues its index beside those there were. -/
theorem Builder.add_heap_indices {b : Builder} (hb : b.nodes.length < 512) (n : Node) :
    ((b.add n).heap.map BitVec.toNat).Perm (b.nodes.length :: b.heap.map BitVec.toNat) := by
  have h := (b.add_heap_perm n).map BitVec.toNat
  rwa [List.map_cons, BitVec.toNat_ofNat, Nat.mod_eq_of_lt (by simpa using hb)] at h

/-- While it seeds, the queue holds every node of the arena (R142). -/
theorem foldl_seedOne_indices (freq : Vector Word 256) (ys : List Byte) (b : Builder)
    (hlen : b.nodes.length + ys.length ≤ 512)
    (hb : (b.heap.map BitVec.toNat).Perm (List.range b.nodes.length)) :
    ((ys.foldl (seedOne freq) b).heap.map BitVec.toNat).Perm
      (List.range (ys.foldl (seedOne freq) b).nodes.length) := by
  induction ys generalizing b with
  | nil => exact hb
  | cons y ys ih =>
    rw [List.length_cons] at hlen
    rw [List.foldl_cons]
    by_cases hy : tableAt freq y = 0
    · have e : seedOne freq b y = b := if_neg (not_not.2 hy)
      rw [e]
      exact ih b (by omega) hb
    · have e : seedOne freq b y = b.add (.leaf y ((tableAt freq y).setWidth 40)) := if_pos hy
      rw [e]
      refine ih _ (by simp; omega) ((b.add_heap_indices (by omega) _).trans ?_)
      rw [Builder.add_nodes, List.length_append, List.length_singleton, List.range_succ]
      exact (hb.cons _).trans (List.perm_append_singleton _ _).symm

/-- Seeding leaves a forest of leaves, every one a root (R142). -/
theorem seed_growing {freq : Vector Word 256} (h : uniqueSyms freq ≠ []) :
    (seed freq).Growing freq where
  queue := by rw [seed_heap_length]; exact List.length_pos_iff.2 h
  size := by rw [seed_nodes, seed_heap_length, length_seedLeaves]; omega
  forest :=
    { leaves := by rw [seed_nodes, ← length_seedLeaves, List.take_length]
      internal := fun i h₁ h₂ => by rw [seed_nodes, length_seedLeaves] at h₂; omega
      parents := by
        have hq : ((seed freq).heap.map BitVec.toNat).Perm (List.range (seed freq).nodes.length) :=
          foldl_seedOne_indices freq allSyms ⟨[], []⟩ (by simp [allSyms]) (by simp)
        rw [seed_nodes] at hq ⊢
        rwa [childIndices_seedLeaves, List.nil_append] }

/-- Two roots under a new node with their exact sum: the forest with that node for the two. -/
theorem Forest.join {freq : Vector Word 256} {nodes : List Node} {roots rest roots' : List Idx}
    {l r : Idx} (h : Forest freq nodes roots) (hr : roots.Perm (l :: r :: rest))
    (hr' : (roots'.map BitVec.toNat).Perm (nodes.length :: rest.map BitVec.toNat)) :
    Forest freq (nodes ++ [.internal l r (keyOf nodes l + keyOf nodes r)]) roots' where
  leaves := by rw [List.take_append_of_le_length h.unique_le, h.leaves]
  internal := by
    have hl : l.toNat < nodes.length := h.root_lt (hr.mem_iff.2 (by simp))
    have hr₀ : r.toNat < nodes.length := h.root_lt (hr.mem_iff.2 (by simp))
    intro i h₁ h₂
    rw [List.length_append, List.length_singleton] at h₂
    obtain hi | rfl : i < nodes.length ∨ i = nodes.length := by omega
    · obtain ⟨a, b, f, e, ha, hb, hf⟩ := h.internal i h₁ hi
      refine ⟨a, b, f, by rw [List.getElem?_append_left hi, e], ha, hb, ?_⟩
      rw [keyOf_append (by omega), keyOf_append (by omega), hf]
    · refine ⟨l, r, _, List.getElem?_concat_length, hl, hr₀, ?_⟩
      rw [keyOf_append hl, keyOf_append hr₀]
      have hsum := h.sum_roots
      rw [((hr.map BitVec.toNat).map (weightAt nodes)).sum_eq] at hsum
      simp only [List.map_cons, List.sum_cons, ← toNat_keyOf hl, ← toNat_keyOf hr₀] at hsum
      have := countSum_lt freq
      rw [BitVec.toNat_add, Nat.mod_eq_of_lt (by omega)]
  parents := by
    have hp := h.parents
    rw [childIndices_append, List.length_append, List.length_singleton, List.range_succ]
    calc (childIndices nodes ++ [l.toNat, r.toNat]) ++ roots'.map BitVec.toNat
      _ |>.Perm ((childIndices nodes ++ [l.toNat, r.toNat]) ++
          (nodes.length :: rest.map BitVec.toNat)) := hr'.append_left _
      _ |>.Perm (nodes.length :: (childIndices nodes ++ (l :: r :: rest).map BitVec.toNat)) := by
          simpa using (List.perm_middle (l₁ := childIndices nodes ++ [l.toNat, r.toNat]))
      _ |>.Perm (nodes.length :: List.range nodes.length) :=
          .cons _ (((hr.map BitVec.toNat).symm.append_left _).trans hp)
      _ |>.Perm (List.range nodes.length ++ [nodes.length]) :=
          (List.perm_append_singleton _ _).symm

/-- A merge pass keeps the forest (R144). -/
theorem mergeOne_growing {freq : Vector Word 256} {b : Builder} (hb : 1 < b.heap.length)
    (h : b.Growing freq) : (mergeOne b).Growing freq := by
  obtain ⟨hn, hh⟩ := mergeOne_length hb
  have hsize := h.size
  refine ⟨by omega, by omega, ?_⟩
  obtain ⟨l, r, rest, hp, -, e⟩ := mergeOne_spec b hb
  rw [e]
  exact h.forest.join hp (Builder.add_heap_indices (b := ⟨b.nodes, rest⟩) h.nodes_lt _)

/-- BUILD leaves a forest with one root (R141). -/
theorem buildTree_forest {freq : Vector Word 256} (h : uniqueSyms freq ≠ []) {root : Idx}
    (hr : (buildTree freq).heap = [root]) : Forest freq (buildTree freq).nodes [root] := by
  have hg : (buildTree freq).Growing freq :=
    mergeLoop_induction (fun b hb hP => mergeOne_growing hb hP) _ _ (seed_growing h)
  rw [← hr]
  exact hg.forest

end Sys2Proof.Machine
end

section
/-! SUPPORT. The codes of a tree (R171 to R173): the walk writes, at every leaf it reaches, the path to
it, and it reaches every leaf. -/

namespace Sys2Proof.Machine

/-- The codes are paths from the root to leaves of their symbols (R171). -/
def CodesArePaths (nodes : List Node) (root : Idx) (code : Vector (List Bool) 256) : Prop :=
  ∀ y, tableAt code y ≠ [] →
    ∃ i f, followPath nodes root (tableAt code y) = some i ∧ nodes[i.toNat]? = some (.leaf y f)

/-! ### Paths -/

theorem followPath_internal {nodes : List Node} {i l r : Idx} {f : Freq}
    (h : nodes[i.toNat]? = some (.internal l r f)) (b : Bool) (bs : List Bool) :
    followPath nodes i (b :: bs) = followPath nodes (if b then r else l) bs := by
  rw [followPath, h]

/-- A path leads on only from an internal node. -/
theorem followPath_cons {nodes : List Node} {i j : Idx} {b : Bool} {bs : List Bool}
    (h : followPath nodes i (b :: bs) = some j) : ∃ l r f,
    nodes[i.toNat]? = some (.internal l r f) ∧ followPath nodes (if b then r else l) bs = some j := by
  rw [followPath] at h
  split at h
  · next l r f hi => exact ⟨l, r, f, hi, h⟩
  · cases h

theorem followPath_append {nodes : List Node} {i j : Idx} {p : List Bool}
    (h : followPath nodes i p = some j) (q : List Bool) :
    followPath nodes i (p ++ q) = followPath nodes j q := by
  induction p generalizing i with
  | nil => cases h; rfl
  | cons b p ih =>
    obtain ⟨l, r, f, hi, h⟩ := followPath_cons h
    rw [List.cons_append, followPath_internal hi, ih h]

/-- No path leads on from a leaf. -/
theorem followPath_leaf {nodes : List Node} {i j : Idx} {y : Byte} {f : Freq} {q : List Bool}
    (hi : nodes[i.toNat]? = some (.leaf y f)) (h : followPath nodes i q = some j) : q = [] ∧ j = i := by
  cases q with
  | nil => cases h; exact ⟨rfl, rfl⟩
  | cons b q =>
    obtain ⟨l, r, g, e, -⟩ := followPath_cons h
    rw [hi] at e
    cases e

/-! ### The walk -/

section
variable {nodes : List Node}

theorem walk_leaf {i : Idx} {y : Byte} {f : Freq} (h : nodes[i.toNat]? = some (.leaf y f)) (n : Nat)
    (path : List Bool) (code : Vector (List Bool) 256) :
    walk nodes (n + 1) i path code = tablePut code y path := by
  rw [walk, h]

theorem walk_internal {i l r : Idx} {f : Freq} (h : nodes[i.toNat]? = some (.internal l r f)) (n : Nat)
    (path : List Bool) (code : Vector (List Bool) 256) :
    walk nodes (n + 1) i path code =
      walk nodes n r (path ++ [true]) (walk nodes n l (path ++ [false]) code) := by
  rw [walk, h]

theorem walk_absent {i : Idx} (h : nodes[i.toNat]? = none) (n : Nat) (path : List Bool)
    (code : Vector (List Bool) 256) : walk nodes (n + 1) i path code = code := by
  rw [walk, h]

/-- A walk that stands where its path leads writes paths. -/
theorem walk_codesArePaths {root : Idx} (n : Nat) {i : Idx} {path : List Bool}
    {code : Vector (List Bool) 256} (hp : followPath nodes root path = some i)
    (hc : CodesArePaths nodes root code) : CodesArePaths nodes root (walk nodes n i path code) := by
  induction n generalizing i path code with
  | zero => exact hc
  | succ n ih =>
    rcases hi : nodes[i.toNat]? with _ | ⟨y, f⟩ | ⟨l, r, f⟩
    · rwa [walk_absent hi]
    · rw [walk_leaf hi]
      intro z hz
      by_cases hzy : z = y
      · subst hzy
        rw [tableAt_tablePut_self]
        exact ⟨i, f, hp, hi⟩
      · rw [tableAt_tablePut_of_ne _ _ hzy] at hz ⊢
        exact hc z hz
    · rw [walk_internal hi]
      exact ih (by rw [followPath_append hp, followPath_internal hi]; rfl)
        (ih (by rw [followPath_append hp, followPath_internal hi]; rfl) hc)

/-- Below the root a walk takes no symbol's code away. -/
theorem walk_keeps_coded {y : Byte} (n : Nat) {i : Idx} {path : List Bool}
    {code : Vector (List Bool) 256} (hp : path ≠ []) (hc : tableAt code y ≠ []) :
    tableAt (walk nodes n i path code) y ≠ [] := by
  induction n generalizing i path code with
  | zero => exact hc
  | succ n ih =>
    rcases hi : nodes[i.toNat]? with _ | ⟨z, f⟩ | ⟨l, r, f⟩
    · rwa [walk_absent hi]
    · rw [walk_leaf hi, tableAt_tablePut]
      split
      · exact hp
      · exact hc
    · rw [walk_internal hi]
      exact ih (by simp) (ih (by simp) hc)

/-- A walk gives a code to every leaf below its node, when children have smaller indices. -/
theorem walk_reaches
    (hdown : ∀ (i l r : Idx) f, nodes[i.toNat]? = some (.internal l r f) →
      l.toNat < i.toNat ∧ r.toNat < i.toNat)
    {y : Byte} {f : Freq} {j : Idx} (hj : nodes[j.toNat]? = some (.leaf y f)) (n : Nat) {i : Idx}
    {path q : List Bool} {code : Vector (List Bool) 256} (hn : i.toNat < n)
    (hq : followPath nodes i q = some j) (hne : path ++ q ≠ []) :
    tableAt (walk nodes n i path code) y ≠ [] := by
  induction n generalizing i path q code with
  | zero => omega
  | succ n ih =>
    cases q with
    | nil =>
      cases hq
      rw [walk_leaf hj, tableAt_tablePut_self]
      simpa using hne
    | cons b q =>
      obtain ⟨l, r, g, hi, hq⟩ := followPath_cons hq
      obtain ⟨hl, hr⟩ := hdown i l r g hi
      rw [walk_internal hi]
      cases b with
      | false => exact walk_keeps_coded n (by simp) (ih (by omega) hq (by simp))
      | true => exact ih (by omega) hq (by simp)

end

/-! ### The nodes of a forest and of a tree -/

namespace Forest

variable {freq : Vector Word 256} {nodes : List Node} {roots : List Idx}

/-- The nodes below NUNIQ are leaves. -/
theorem leaf_of_lt (h : Forest freq nodes roots) {i : Nat} (hi : i < (uniqueSyms freq).length) :
    nodes[i]? = some (.leaf (uniqueSyms freq)[i] ((tableAt freq (uniqueSyms freq)[i]).setWidth 40)) := by
  rw [← List.getElem?_take_of_lt hi, h.leaves]
  simp [seedLeaves, hi]

/-- An internal node has an index from NUNIQ on, and its children have smaller ones (R154). -/
theorem of_internal (h : Forest freq nodes roots) {i : Nat} {l r : Idx} {f : Freq}
    (hi : nodes[i]? = some (.internal l r f)) : l.toNat < i ∧ r.toNat < i := by
  by_cases hu : i < (uniqueSyms freq).length
  · rw [h.leaf_of_lt hu] at hi
    cases hi
  · obtain ⟨l', r', f', e, hl, hr, -⟩ :=
      h.internal i (by omega) (List.getElem?_eq_some_iff.1 hi).1
    rw [hi] at e
    cases e
    exact ⟨hl, hr⟩

/-- The leaves are those of the unique symbols. -/
theorem exists_leaf_iff (h : Forest freq nodes roots) (y : Byte) :
    (∃ (i : Nat) (f : Freq), nodes[i]? = some (.leaf y f)) ↔ tableAt freq y ≠ 0 := by
  rw [← mem_uniqueSyms]
  constructor
  · rintro ⟨i, f, hi⟩
    by_cases hu : i < (uniqueSyms freq).length
    · rw [h.leaf_of_lt hu] at hi
      cases hi
      exact List.getElem_mem hu
    · obtain ⟨l, r, f', e, -⟩ := h.internal i (by omega) (List.getElem?_eq_some_iff.1 hi).1
      rw [hi] at e
      cases e
  · intro hy
    obtain ⟨i, hi, rfl⟩ := List.getElem_of_mem hy
    exact ⟨i, _, h.leaf_of_lt hi⟩

/-- Every node is a root or somebody's child. -/
theorem root_or_child (h : Forest freq nodes roots) {j : Nat} (hj : j < nodes.length) :
    (∃ i ∈ roots, i.toNat = j) ∨
      ∃ (p : Nat) (l r : Idx) (f : Freq),
        nodes[p]? = some (.internal l r f) ∧ (l.toNat = j ∨ r.toNat = j) := by
  obtain hj | hj := List.mem_append.1 (h.parents.mem_iff.2 (List.mem_range.2 hj))
  · obtain ⟨c, hc, rfl⟩ := List.mem_map.1 hj
    obtain ⟨n, hn, hc⟩ := List.mem_flatMap.1 hc
    obtain ⟨p, hp⟩ := List.mem_iff_getElem?.1 hn
    cases n with
    | leaf y f => simp [Node.children] at hc
    | internal l r f =>
      refine .inr ⟨p, l, r, f, hp, ?_⟩
      obtain rfl | rfl : c = l ∨ c = r := by simpa [Node.children] using hc
      · exact .inl rfl
      · exact .inr rfl
  · exact .inl (List.mem_map.1 hj)

variable {root : Idx}

/-- The only root is the last node (R48 (c)). -/
theorem root_eq_last (h : Forest freq nodes [root]) : root.toNat = nodes.length - 1 := by
  have hlt := h.root_lt List.mem_cons_self
  obtain ⟨i, hi, e⟩ | ⟨p, l, r, f, hp, e⟩ := h.root_or_child (j := nodes.length - 1) (by omega)
  · rw [List.mem_singleton.1 hi] at e
    exact e
  · obtain ⟨hl, hr⟩ := h.of_internal hp
    have := (List.getElem?_eq_some_iff.1 hp).1
    omega

/-- Every node but the root is the child of exactly one internal node, and the root of none. -/
theorem children_perm (h : Forest freq nodes [root]) :
    (childIndices nodes).Perm (List.range (nodes.length - 1)) := by
  have hp := h.parents
  have hlt := h.root_lt List.mem_cons_self
  obtain ⟨k, hk⟩ : ∃ k, nodes.length = k + 1 := ⟨nodes.length - 1, by omega⟩
  rw [List.map_singleton, h.root_eq_last, hk, List.range_succ] at hp
  rw [hk]
  exact (List.perm_append_right_iff _).1 hp

/-- Every node of a tree is reached from its root: from the last index down, by its parent. -/
theorem reachable (h : Forest freq nodes [root]) (d j : Nat) (hd : nodes.length = j + d + 1) :
    ∃ q k, followPath nodes root q = some k ∧ k.toNat = j := by
  induction d using Nat.strongRecOn generalizing j with
  | ind d ih =>
    obtain ⟨i, hi, e⟩ | ⟨p, l, r, f, hp, e⟩ := h.root_or_child (j := j) (by omega)
    · rw [List.mem_singleton.1 hi] at e
      exact ⟨[], root, rfl, e⟩
    · obtain ⟨hl, hr⟩ := h.of_internal hp
      have hlt := (List.getElem?_eq_some_iff.1 hp).1
      obtain ⟨q, k, hq, rfl⟩ := ih (nodes.length - p - 1) (by omega) p (by omega)
      obtain e | e := e
      · exact ⟨q ++ [false], l, by rw [followPath_append hq, followPath_internal hp]; rfl, e⟩
      · exact ⟨q ++ [true], r, by rw [followPath_append hq, followPath_internal hp]; rfl, e⟩

/-- With one unique symbol the tree is its leaf (R143). -/
theorem single_leaf (h : Forest freq nodes [root]) (hs : nodes.length = 1) :
    ∃ y f, nodes[root.toNat]? = some (.leaf y f) := by
  have hr := h.root_eq_last
  have h0 : root.toNat = 0 := by omega
  rcases hn : nodes[root.toNat]? with _ | ⟨y, f⟩ | ⟨l, r, f⟩
  · rw [List.getElem?_eq_none_iff] at hn
    omega
  · exact ⟨y, f, rfl⟩
  · have := h.of_internal hn
    omega

/-! ### The code table of a tree -/

/-- With one unique symbol its code is the bit 0 and the others are empty (R172). -/
theorem genCodes_single {y : Byte} {f : Freq} (hr : nodes[root.toNat]? = some (.leaf y f)) (z : Byte) :
    tableAt (genCodes nodes root) z = if z = y then [false] else [] := by
  rw [genCodes, hr, tableAt_tablePut, tableAt_replicate]

/-- A root that is no leaf is walked (R171). -/
theorem genCodes_walk {l r : Idx} {f : Freq} (hr : nodes[root.toNat]? = some (.internal l r f)) :
    genCodes nodes root = walk nodes nodes.length root [] (Vector.replicate 256 []) := by
  rw [genCodes, hr]

theorem genCodes_codesArePaths {l r : Idx} {f : Freq}
    (hr : nodes[root.toNat]? = some (.internal l r f)) :
    CodesArePaths nodes root (genCodes nodes root) := by
  rw [genCodes_walk hr]
  refine walk_codesArePaths _ rfl fun y hy => ?_
  rw [tableAt_replicate] at hy
  exact absurd rfl hy

/-- Exactly the counted symbols have codes (R170). -/
theorem genCodes_coded (h : Forest freq nodes [root]) (y : Byte) :
    tableAt (genCodes nodes root) y ≠ [] ↔ tableAt freq y ≠ 0 := by
  rw [← h.exists_leaf_iff]
  have hlt := h.root_lt List.mem_cons_self
  rcases hr : nodes[root.toNat]? with _ | ⟨z, f⟩ | ⟨l, r, f⟩
  · rw [List.getElem?_eq_none_iff] at hr
    omega
  · rw [genCodes_single hr]
    constructor
    · intro hy
      obtain rfl : y = z := by
        by_contra hne
        exact hy (if_neg hne)
      exact ⟨root.toNat, f, hr⟩
    · rintro ⟨j, g, hj⟩
      have hjl := (List.getElem?_eq_some_iff.1 hj).1
      obtain ⟨q, k, hq, rfl⟩ := h.reachable (nodes.length - j - 1) j (by omega)
      obtain ⟨-, rfl⟩ := followPath_leaf hr hq
      rw [hr] at hj
      cases hj
      simp
  · constructor
    · intro hy
      obtain ⟨i, f, -, hi⟩ := genCodes_codesArePaths hr y hy
      exact ⟨i.toNat, f, hi⟩
    · rintro ⟨j, g, hj⟩
      have hjl := (List.getElem?_eq_some_iff.1 hj).1
      obtain ⟨q, k, hq, rfl⟩ := h.reachable (nodes.length - j - 1) j (by omega)
      rw [genCodes_walk hr]
      refine walk_reaches (fun i l r f hi => h.of_internal hi) hj _ hlt hq ?_
      rintro rfl
      cases hq
      rw [hr] at hj
      cases hj

end Forest

end Sys2Proof.Machine
end

section
/-! SUPPORT. BUILD makes a tree with its codes (R48 (c), R154, R170 to R172). -/

namespace Sys2Proof.Machine

/-- The tree of phase TREE is a forest with the one root ROOT. -/
theorem State.IsTree.forest {s : State} (h : s.IsTree) : Forest s.freq s.nodes [s.root] where
  leaves := h.leaves
  internal := h.internal
  parents := by
    obtain ⟨k, hk⟩ : ∃ k, s.nodes.length = k + 1 :=
      ⟨s.nodes.length - 1, by have := h.size; have := h.nonempty; omega⟩
    have hp := h.parents
    rw [hk] at hp
    rw [List.map_singleton, h.root, hk, List.range_succ]
    exact hp.append_right _

/-- The root of a tree with two unique symbols or more is internal. -/
theorem Forest.internal_root {freq : Vector Word 256} {nodes : List Node} {root : Idx}
    (h : Forest freq nodes [root]) (hsize : nodes.length = 2 * (uniqueSyms freq).length - 1)
    (h2 : 2 ≤ (uniqueSyms freq).length) :
    ∃ l r f, nodes[root.toNat]? = some (.internal l r f) := by
  have hr := h.root_eq_last
  obtain ⟨l, r, f, e, -⟩ := h.internal root.toNat (by omega) (by omega)
  exact ⟨l, r, f, e⟩

/-- A forest with one root and its codes are a tree. -/
theorem State.IsTree.of_forest {s : State} (h : Forest s.freq s.nodes [s.root])
    (hne : 1 ≤ s.nuniq) (hsize : s.nodes.length = 2 * s.nuniq - 1) (hheap : s.heap = [s.root])
    (hcode : s.code = genCodes s.nodes s.root) : s.IsTree where
  nonempty := hne
  size := hsize
  heap := hheap
  root := h.root_eq_last
  leaves := h.leaves
  internal := h.internal
  parents := h.children_perm
  coded := fun y => by rw [hcode]; exact h.genCodes_coded y
  degenerate := by
    intro h1 y hy
    obtain ⟨z, f, hz⟩ := h.single_leaf (by omega)
    rw [hcode, Forest.genCodes_single hz] at hy ⊢
    split at hy
    · next hyz => rw [if_pos hyz]
    · exact absurd rfl hy
  paths := by
    intro h2 y hy
    obtain ⟨l, r, f, e⟩ := h.internal_root hsize h2
    rw [hcode] at hy ⊢
    exact Forest.genCodes_codesArePaths e y hy

/-- A BUILD whose body returns has made a tree (R141). -/
theorem buildBody_isTree {s u : State} {v : Word} (h : buildBody s = .ret v u) : u.IsTree := by
  obtain ⟨-, e⟩ | ⟨-, -, e⟩ | ⟨h0, -, -, root, hr, e⟩ := buildBody_cases s <;> rw [e] at h <;> cases h
  have hu : uniqueSyms s.freq ≠ [] := fun e => h0 (by rw [State.nuniq, e]; rfl)
  exact .of_forest (buildTree_forest hu hr) (Nat.one_le_iff_ne_zero.2 h0) (buildTree_size s.freq hu).2
    rfl rfl

/-- A tree is a matter of FREQ, NODE, ROOT, HEAP and CODE. -/
theorem State.IsTree.of_same {s t : State} (h : s.IsTree) (hf : t.freq = s.freq) (ht : SameTree s t) :
    t.IsTree := by
  obtain ⟨-, hn, hr, hh, hc⟩ := ht
  have hu : t.nuniq = s.nuniq := by rw [State.nuniq, hf, State.nuniq]
  obtain ⟨h1, h2, h3, h4, h5, h6, h7, h8, h9, h10⟩ := h
  constructor <;> simpa only [hf, hn, hr, hh, hc, hu]

end Sys2Proof.Machine

open Sys2Proof Sys2Proof.Machine

/-- Settles O43: seeding and every merge pass keep a forest, and the walk writes the paths of its last
root. -/
theorem buildMakesATree : Obligations.BuildMakesATree := by
  intro s t h ⟨he, ha⟩ ht
  have hx : exec .build s = finish (buildBody s) := command_run he ha
  obtain ⟨-, e⟩ | ⟨-, -, e⟩ | ⟨-, -, -, root, -, e⟩ := buildBody_cases s <;> rw [hx, e] at h <;>
    cases h
  · cases ht
  · exact { buildBody_isTree e with }
end

section
/-! SUPPORT. The invariants of R48 along a step: what a move of the host can be, and that bodies keep the
invariants. -/

namespace Sys2Proof.Machine

/-! ### States that meet the invariants -/

/-- Where the phase is FREQ and there is neither a tree nor a code, the writer invariant is enough. -/
theorem State.Inv.of_cleared {s : State} (hw : s.WriterInv) (hp : s.phase = .freq) (hn : s.nodes = [])
    (hh : s.heap = []) (hr : s.root = 0) (hc : s.code = Vector.replicate 256 []) : s.Inv where
  writer := hw
  freq := fun _ => ⟨hn, hh, hr, fun y => by rw [hc, tableAt_replicate]⟩
  tree := fun h => by rw [hp] at h; cases h

/-- The invariants look at the writer, the tree and, in phase TREE, the counts alone. -/
theorem State.Inv.of_same {s t : State} (h : s.Inv) (hw : t.WriterInv) (ht : SameTree s t)
    (hf : s.phase = .tree → t.freq = s.freq) : t.Inv where
  writer := hw
  freq := fun hp => by
    obtain ⟨hn, hh, hr, hc⟩ := h.freq (ht.phase ▸ hp)
    exact ⟨ht.nodes.trans hn, ht.heap.trans hh, ht.root.trans hr, fun y => by rw [ht.code, hc y]⟩
  tree := fun hp => by
    rw [ht.phase] at hp
    exact (h.tree hp).of_same (hf hp) ht

theorem writerInv_zero {s : State} (h : s.wacc = 0) : s.WriterInv := fun k _ => by
  rw [h]
  exact BitVec.getLsbD_zero

theorem resetBlock_inv (s : State) : (resetBlock s).Inv :=
  .of_cleared (writerInv_zero rfl) rfl rfl rfl rfl rfl

/-! ### Moves of the host -/

/-- Everything a 32-bit write can do (R26, R64). -/
theorem writeAt_cases (off : Nat) (v : Word) (s : State) :
    writeAt off v s = writeCmd v s ∨ ∃ a r, writeAt off v s = .next { s with arg := a, remain := r } := by
  rw [writeAt]
  split
  · exact .inl rfl
  · exact .inr ⟨v, s.remain, rfl⟩
  · exact .inr ⟨s.arg, v, rfl⟩
  · exact .inr ⟨s.arg, s.remain, rfl⟩

/-- Everything a move of the host can be: a command, the hardware reset, or a change of ARG, REMAIN, ERR,
the source and the answer (R63 to R65, R70, R95, R300). -/
theorem hostMove_cases (m : HostMove) (s : State) :
    (∃ i, hostMove m s = exec i { s with resp := .written }) ∨
    hostMove m s = .next (resetBlock s) ∨
    ∃ a r e b p, hostMove m s = .next { s with arg := a, remain := r, err := e, src := b, resp := p } := by
  cases m with
  | read size off =>
    refine .inr (.inr ⟨s.arg, s.remain, s.err, s.src, ?_⟩)
    rw [hostMove]
    split
    · exact ⟨_, rfl⟩
    · exact ⟨_, rfl⟩
  | write size off v =>
    rw [hostMove]
    split
    · obtain h | ⟨a, r, h⟩ := writeAt_cases off v { s with resp := .written }
      · rw [h]
        cases hd : decode v with
        | ok i => exact .inl ⟨i, writeCmd_ok hd _⟩
        | error g =>
          rw [writeCmd_error hd, illegalWord_eq]
          exact .inr (.inr ⟨s.arg, s.remain, _, s.src, _, rfl⟩)
      · exact .inr (.inr ⟨a, r, s.err, s.src, _, h⟩)
    · exact .inr (.inr ⟨s.arg, s.remain, s.err, s.src, _, rfl⟩)
  | attach bytes => exact .inr (.inr ⟨s.arg, s.remain, s.err, bytes, s.resp, rfl⟩)
  | hardReset => exact .inr (.inl rfl)

/-! ### Commands keep the invariants -/

/-- A body that its phase admits keeps the invariants of R48. -/
theorem bodyOf_keeps_inv {i : Instr} {s : State} (h : s.Inv)
    (ha : (admissionOf i).admits s.phase = true) : (bodyOf i s).Ends State.Inv := by
  by_cases hc : i = .ftClear
  · subst hc
    exact State.Inv.of_cleared (s := clearTables s) h.writer rfl rfl rfl rfl rfl
  by_cases hb : i = .build
  · subst hb
    obtain ⟨-, e⟩ | ⟨-, -, e⟩ | ⟨-, -, -, r, -, e⟩ := buildBody_cases s <;> rw [bodyOf, e]
    · exact h
    · exact Res.ends_stuck _ _
    · exact { writer := h.writer, freq := nofun, tree := fun _ => buildBody_isTree e }
  · refine (bodyOf_ran i s).mono fun u hu => h.of_same (hu.writer h.writer) (hu.tree hc hb) fun hp => ?_
    refine hu.freq hc (.inl fun hf => ?_)
    simp [hf, hp, Admission.admits] at ha

/-- Every command keeps the invariants of R48. -/
theorem exec_keeps_inv {i : Instr} {s t : State} (h : s.Inv) (hx : exec i s = .next t) : t.Inv := by
  by_cases hi : i = .reset
  · subst hi
    cases hx
    exact resetBlock_inv s
  · obtain ⟨e, rfl⟩ | ⟨-, -, u, hu, ⟨v, -, rfl⟩ | ⟨e, -, rfl⟩⟩ :=
      exec_cases hi (fun ha => bodyOf_keeps_inv h ha) hx
    · exact h.of_same h.writer {} fun _ => rfl
    · exact hu.of_same hu.writer {} fun _ => rfl
    · exact hu.of_same hu.writer {} fun _ => rfl

/-- Every move of the host keeps the invariants of R48. -/
theorem hostMove_keeps_inv {m : HostMove} {s t : State} (h : s.Inv) (hm : hostMove m s = .next t) :
    t.Inv := by
  obtain ⟨i, e⟩ | e | ⟨a, r, e', b, p, e⟩ := hostMove_cases m s <;> rw [e] at hm
  · exact exec_keeps_inv (s := { s with resp := .written }) (h.of_same h.writer {} fun _ => rfl) hm
  · cases hm
    exact resetBlock_inv s
  · cases hm
    exact h.of_same h.writer {} fun _ => rfl

end Sys2Proof.Machine

open Sys2Proof Sys2Proof.Machine

/-- Settles O42: no tree, no code, and no bit pending. -/
theorem resetMeetsTheInvariants : Obligations.ResetMeetsTheInvariants :=
  .of_cleared (writerInv_zero rfl) rfl rfl rfl rfl rfl

/-- Settles O44, by the cases of a move of the host and of a command. -/
theorem everyStepKeepsTheInvariants : Obligations.EveryStepKeepsTheInvariants := by
  intro s t h hs
  cases hm : s.host with
  | nil =>
    rw [step_idle hm] at hs
    cases hs
    exact h
  | cons m rest =>
    rw [step_cons hm] at hs
    exact hostMove_keeps_inv (s := { s with host := rest }) (h.of_same h.writer {} fun _ => rfl) hs
end

section
/-! SUPPORT. Progress (R41, R42, R48): where a body can ask for an entry that is not state, and that it
never does in a state that meets the invariants. -/

namespace Sys2Proof.Machine

/-! ### The decoder stays in the arena -/

section
variable {freq : Vector Word 256} {roots : List Idx}

theorem decWalk_ne_stuck (n : Nat) {c : Idx} {s : State} (h : Forest freq s.nodes roots)
    (hc : c.toNat < s.nodes.length) (f : Fault) : decWalk n c s ≠ .stuck f := by
  induction n generalizing c s with
  | zero =>
    rw [decWalk]
    split
    · next hn => rw [List.getElem?_eq_none_iff] at hn; omega
    · nofun
    · split <;> nofun
  | succ n ih =>
    rw [decWalk]
    split
    · next hn => rw [List.getElem?_eq_none_iff] at hn; omega
    · nofun
    · next l r w hn =>
      obtain ⟨hl, hr⟩ := h.of_internal hn
      have hg := getBit_nodes s
      split
      · nofun
      · next b u hb =>
        rw [hb] at hg
        refine ih (by rwa [hg]) ?_
        rw [hg]
        split <;> omega

theorem decSym_ne_stuck {s : State} (h : Forest freq s.nodes [s.root]) (f : Fault) :
    decSym s ≠ .stuck f := by
  have hr := h.root_lt List.mem_cons_self
  rw [decSym]
  split
  · next hn => rw [List.getElem?_eq_none_iff] at hn; omega
  · split <;> nofun
  · exact decWalk_ne_stuck _ h hr f

theorem decLoop_ne_stuck (n : Nat) {s : State} (h : Forest freq s.nodes [s.root]) (f : Fault) :
    decLoop n s ≠ .stuck f := by
  induction n generalizing s with
  | zero => nofun
  | succ n ih =>
    rw [decLoop]
    obtain ⟨y, u, e, b, k, o, p, r, -, rfl⟩ | ⟨u, e | e, -⟩ | e := decSym_ends s
    · rw [e]
      exact ih h
    · rw [e]
      nofun
    · rw [e]
      nofun
    · exact absurd e (decSym_ne_stuck h _)

end

/-! ### Where a command stops -/

/-- A body is stuck in three commands alone (log entry 5). -/
theorem bodyOf_stuck {i : Instr} {s : State} {f : Fault} (h : bodyOf i s = .stuck f) :
    (f = .arenaNotEmpty ∧ i = .build ∧ ¬ (s.nodes = [] ∧ s.heap = [])) ∨
    (f = .absentEntry ∧ (i = .decSym ∨ i = .decRun)) := by
  cases i with
  | ftCount y =>
    by_cases hy : tableAt s.freq y = 0xFFFFFFFF#32
    · rw [bodyOf, countOne_overflow hy] at h; cases h
    · rw [bodyOf, countOne_ok hy] at h; cases h
  | ftScan => obtain ⟨g, p, r, -, e | e⟩ := scanLoop_form s.src s rfl <;> rw [bodyOf, e] at h <;> cases h
  | build =>
    obtain ⟨-, e⟩ | ⟨-, he, e⟩ | ⟨-, -, -, r, -, e⟩ := buildBody_cases s <;> rw [bodyOf, e] at h <;>
      cases h
    exact .inl ⟨rfl, rfl, he⟩
  | rdNode sel idx =>
    rw [bodyOf] at h
    cases hf : nodeField? sel with
    | none => rw [hf] at h; cases h
    | some k =>
      rw [hf, Option.elim_some, rdNodeBody] at h
      split at h <;> cases h
  | rdHeap idx =>
    rw [bodyOf] at h
    cases hx : s.heap[idx.toNat]? <;> rw [hx] at h <;> cases h
  | putSym y =>
    by_cases hy : tableAt s.code y = []
    · rw [bodyOf, putSym_noCode hy] at h; cases h
    · rw [bodyOf, putSym_ok hy] at h; cases h
  | encRun =>
    obtain ⟨a, n, k, p, r, -, e | e⟩ := encLoop_form s.src s rfl <;> rw [bodyOf, e] at h <;> cases h
  | decSym =>
    obtain ⟨y, u, e, -⟩ | ⟨u, e | e, -⟩ | e := decSym_ends s <;> rw [bodyOf, e] at h <;> cases h
    exact .inr ⟨rfl, .inl rfl⟩
  | decRun =>
    obtain ⟨u, -, e | e | e⟩ | e := decLoop_ends s.remain.toNat s <;> rw [bodyOf, e] at h <;> cases h
    exact .inr ⟨rfl, .inr rfl⟩
  | _ => cases h

/-- A command that stops with a fault ran a body that is stuck. -/
theorem exec_fault {i : Instr} {s : State} {f : Fault} (h : exec i s = .fault f) :
    s.err = .ok ∧ (admissionOf i).admits s.phase = true ∧ bodyOf i s = .stuck f := by
  by_cases hi : i = .reset
  · subst hi
    cases h
  rw [exec_eq_command hi] at h
  by_cases he : s.err = .ok
  · cases ha : (admissionOf i).admits s.phase with
    | false =>
      rw [command_outOfPhase he ha] at h
      cases h
    | true =>
      rw [command_run he ha] at h
      refine ⟨he, rfl, ?_⟩
      cases hb : bodyOf i s <;> rw [hb] at h <;> cases h
      rfl
  · rw [command_faulted he] at h
    cases h

/-- No command is refused. -/
theorem exec_ne_refused (i : Instr) (s : State) (r : Refusal) : exec i s ≠ .refused r := by
  by_cases hi : i = .reset
  · subst hi
    nofun
  · rw [exec_eq_command hi, command]
    split
    · nofun
    · split
      · cases bodyOf i s <;> nofun
      · nofun

/-- In a state that meets the invariants no admitted body is stuck. -/
theorem bodyOf_ne_stuck {i : Instr} {s : State} (h : s.Inv)
    (ha : (admissionOf i).admits s.phase = true) (f : Fault) : bodyOf i s ≠ .stuck f := by
  intro hs
  obtain ⟨-, rfl, he⟩ | ⟨-, rfl | rfl⟩ := bodyOf_stuck hs
  · obtain ⟨hn, hh, -⟩ := h.freq (of_decide_eq_true ha)
    exact he ⟨hn, hh⟩
  · have hF := (h.tree (of_decide_eq_true ha)).forest
    rw [bodyOf] at hs
    cases hd : decSym s with
    | ret y u => rw [hd] at hs; cases hs
    | raised e u => rw [hd] at hs; cases hs
    | stuck g => exact decSym_ne_stuck hF g hd
  · exact decLoop_ne_stuck _ (h.tree (of_decide_eq_true ha)).forest f hs

/-- In a state that meets the invariants every command has a next state. -/
theorem exec_goes_on {i : Instr} {s : State} (h : s.Inv) : ∃ t, exec i s = .next t := by
  cases hx : exec i s with
  | next t => exact ⟨t, rfl⟩
  | fault f =>
    obtain ⟨-, ha, hb⟩ := exec_fault hx
    exact absurd hb (bodyOf_ne_stuck h ha f)
  | refused r => exact absurd hx (exec_ne_refused i s r)

/-- In a state that meets the invariants every move of the host has a next state. -/
theorem hostMove_goes_on {m : HostMove} {s : State} (h : s.Inv) : ∃ t, hostMove m s = .next t := by
  obtain ⟨i, e⟩ | e | ⟨a, r, e', b, p, e⟩ := hostMove_cases m s <;> rw [e]
  · exact exec_goes_on (h.of_same h.writer {} fun _ => rfl)
  · exact ⟨_, rfl⟩
  · exact ⟨_, rfl⟩

end Sys2Proof.Machine

open Sys2Proof Sys2Proof.Machine

/-- Settles O45: a body is stuck in three commands alone, and there the invariants exclude it. -/
theorem invariantStatesNeverStop : Obligations.InvariantStatesNeverStop := by
  refine ⟨fun s h => ?_, fun i s => ⟨exec_ne_refused i s, ?_, fun f hf => ?_⟩⟩
  · cases hm : s.host with
    | nil => exact ⟨s, step_idle hm⟩
    | cons m rest =>
      rw [State.GoesOn, step_cons hm]
      exact hostMove_goes_on (h.of_same h.writer {} fun _ => rfl)
  · rintro rfl ⟨he, ha⟩ h0 hn
    obtain ⟨h, -⟩ | ⟨-, -, e⟩ | ⟨-, h₁, h₂, -⟩ := buildBody_cases s
    · exact absurd h h0
    · exact (command_run he ha).trans (congrArg finish e)
    · exact absurd ⟨h₁, h₂⟩ hn
  · obtain ⟨he, ha, hb⟩ := exec_fault hf
    obtain ⟨rfl, rfl, hn⟩ | ⟨rfl, hi⟩ := bodyOf_stuck hb
    · exact ⟨he, .inl ⟨rfl, rfl, of_decide_eq_true ha, hn⟩⟩
    · refine ⟨he, .inr ⟨rfl, hi, ?_⟩⟩
      obtain rfl | rfl := hi <;> exact of_decide_eq_true ha
end

section
/-! SUPPORT. The registers that are functions of the state (R26 to R39): NUNIQ, TOTAL, DEGEN, STATUS and
BITSTATE, and their values after reset. -/

namespace Sys2Proof.Machine

/-! ### NUNIQ, NODE_N, HEAP_N -/

/-- A register of nine bits shows a number that fits. -/
theorem setWidth_ofNat_nine {n : Nat} (h : n < 512) :
    (BitVec.ofNat 9 n).setWidth 32 = BitVec.ofNat 32 n := by
  refine BitVec.eq_of_toNat_eq ?_
  simp only [BitVec.toNat_setWidth, BitVec.toNat_ofNat]
  omega

/-- NUNIQ counts the symbols whose count is not 0 (R31). -/
theorem nuniqReg_eq (s : State) :
    nuniqReg s = BitVec.ofNat 32 (allSyms.countP fun y => tableAt s.freq y ≠ 0) := by
  have hle := nuniq_le s
  rw [nuniqReg, setWidth_ofNat_nine (by omega), State.nuniq, uniqueSyms, List.countP_eq_length_filter]

/-! ### TOTAL and DEGEN -/

/-- A 40-bit sum that fits is exact. -/
theorem toNat_sum_of_lt {l : List Freq} (h : (l.map BitVec.toNat).sum < 2 ^ 40) :
    l.sum.toNat = (l.map BitVec.toNat).sum := by
  induction l with
  | nil => rfl
  | cons a l ih =>
    rw [List.map_cons, List.sum_cons] at h ⊢
    have hl := ih (by omega)
    rw [List.sum_cons, BitVec.toNat_add, hl, Nat.mod_eq_of_lt h]

/-- TOTAL is the sum of all counts without wrap (R32). -/
theorem toNat_total (s : State) : s.total.toNat = countSum s.freq := by
  have hsum : ((allSyms.map fun y => (tableAt s.freq y).setWidth 40).map BitVec.toNat).sum =
      countSum s.freq := by
    simp only [List.map_map, Function.comp_def, toNat_count, countSum]
  rw [State.total, toNat_sum_of_lt (by rw [hsum]; exact countSum_lt _), hsum]

/-- A 40-bit value is its low 32 bits and its high 8. -/
theorem toNat_eq_lo_add_hi (v : Freq) :
    (v.extractLsb' 0 32).toNat + 2 ^ 32 * ((v.extractLsb' 32 8).setWidth 32).toNat = v.toNat := by
  have := v.isLt
  simp only [BitVec.extractLsb'_toNat, BitVec.toNat_setWidth, Nat.shiftRight_eq_div_pow]
  omega

/-- The root of the tree of phase TREE is a node. -/
theorem State.IsTree.exists_root {s : State} (h : s.IsTree) :
    ∃ n, s.nodes[s.root.toNat]? = some n :=
  ⟨_, List.getElem?_eq_getElem (h.forest.root_lt List.mem_cons_self)⟩

/-- The root of a tree has TOTAL as its frequency (R150). -/
theorem State.IsTree.root_freq {s : State} (h : s.IsTree) {n : Node}
    (hn : s.nodes[s.root.toNat]? = some n) : n.freq = s.total := by
  have hsum := h.forest.sum_roots
  refine BitVec.eq_of_toNat_eq ?_
  rw [toNat_total, ← hsum]
  simp [weightAt, hn]

/-- DEGEN in phase TREE: the root is a leaf exactly when there is one unique symbol (R29, R143). -/
theorem State.IsTree.root_isLeaf_iff {s : State} (h : s.IsTree) :
    s.rootNode?.any Node.isLeaf = true ↔ s.nuniq = 1 := by
  have h1 := h.nonempty
  have hsize := h.size
  rw [State.rootNode?]
  constructor
  · intro hl
    by_contra hne
    obtain ⟨l, r, f, e⟩ := h.forest.internal_root hsize (by change 2 ≤ s.nuniq; omega)
    rw [e] at hl
    cases hl
  · intro h1
    obtain ⟨y, f, e⟩ := h.forest.single_leaf (by omega)
    rw [e]
    rfl

/-! ### STATUS and BITSTATE -/

/-- A concatenation as a number. -/
theorem toNat_append_add {m n : Nat} (x : BitVec m) (y : BitVec n) :
    (x ++ y).toNat = x.toNat * 2 ^ n + y.toNat := by
  rw [BitVec.toNat_append, ← Nat.shiftLeft_add_eq_or_of_lt y.isLt, Nat.shiftLeft_eq]

/-- A field of a word, read off the word as a number. -/
theorem extractLsb'_eq_of_toNat {m n lo : Nat} {v : BitVec m} {x : BitVec n}
    (h : v.toNat / 2 ^ lo % 2 ^ n = x.toNat) : v.extractLsb' lo n = x :=
  BitVec.eq_of_toNat_eq (by rw [BitVec.extractLsb'_toNat, Nat.shiftRight_eq_div_pow, h])

theorem extractLsb'_eq_zero_of_toNat {m n lo : Nat} {v : BitVec m}
    (h : v.toNat / 2 ^ lo % 2 ^ n = 0) : v.extractLsb' lo n = 0 :=
  extractLsb'_eq_of_toNat (h.trans BitVec.toNat_zero.symm)

/-- A bit of a word, read off the word as a number. -/
theorem getLsbD_eq_of_toNat {m i : Nat} {v : BitVec m} {b : Bool}
    (h : v.toNat / 2 ^ i % 2 = b.toNat) : v.getLsbD i = b := by
  rw [BitVec.getLsbD, Nat.testBit_eq_decide_div_mod_eq, h]
  cases b <;> rfl

/-- STATUS as a number (R27). -/
theorem toNat_statusReg (s : State) : (statusReg s).toNat =
    s.err.code.toNat + 16 * (decide (s.phase = .tree)).toNat + 32 * s.degen.toNat +
      64 * s.reos.toNat := by
  have hp : s.phase.bit.toNat = (decide (s.phase = .tree)).toNat := by cases s.phase <;> rfl
  rw [statusReg, BitVec.toNat_setWidth_of_le (by decide)]
  simp only [toNat_append_add, BitVec.toNat_ofBool]
  omega

/-- BITSTATE as a number (R39). -/
theorem toNat_bitstateReg (s : State) : (bitstateReg s).toNat =
    s.wacc.toNat + 2 ^ 8 * s.wcnt.toNat + 2 ^ 16 * s.rbuf.toNat + 2 ^ 24 * s.rcnt.val := by
  have hr := s.rcnt.isLt
  rw [bitstateReg, BitVec.toNat_setWidth_of_le (by decide)]
  simp only [toNat_append_add, BitVec.toNat_ofNat]
  omega

/-- The fields of STATUS (R27). -/
theorem statusReg_fields (s : State) :
    (statusReg s).extractLsb' 0 4 = s.err.code ∧
    (statusReg s).getLsbD 4 = decide (s.phase = .tree) ∧
    (statusReg s).getLsbD 5 = s.degen ∧ (statusReg s).getLsbD 6 = s.reos ∧
    (statusReg s).extractLsb' 7 25 = 0 := by
  have hst := toNat_statusReg s
  have he := s.err.code.isLt
  have hp := (decide (s.phase = .tree)).toNat_lt
  have hd := s.degen.toNat_lt
  have hr := s.reos.toNat_lt
  exact ⟨extractLsb'_eq_of_toNat (by omega), getLsbD_eq_of_toNat (by omega),
    getLsbD_eq_of_toNat (by omega), getLsbD_eq_of_toNat (by omega),
    extractLsb'_eq_zero_of_toNat (by omega)⟩

/-- The fields of BITSTATE (R39). -/
theorem bitstateReg_fields (s : State) :
    (bitstateReg s).extractLsb' 0 8 = s.wacc ∧ (bitstateReg s).extractLsb' 8 3 = s.wcnt ∧
    (bitstateReg s).extractLsb' 11 5 = 0 ∧ (bitstateReg s).extractLsb' 16 8 = s.rbuf ∧
    ((bitstateReg s).extractLsb' 24 4).toNat = s.rcnt.val ∧
    (bitstateReg s).extractLsb' 28 4 = 0 := by
  have hbs := toNat_bitstateReg s
  have ha := s.wacc.isLt
  have hn := s.wcnt.isLt
  have hb := s.rbuf.isLt
  have hc := s.rcnt.isLt
  refine ⟨extractLsb'_eq_of_toNat (by omega), extractLsb'_eq_of_toNat (by omega),
    extractLsb'_eq_zero_of_toNat (by omega), extractLsb'_eq_of_toNat (by omega), ?_,
    extractLsb'_eq_zero_of_toNat (by omega)⟩
  rw [BitVec.extractLsb'_toNat, Nat.shiftRight_eq_div_pow]
  omega

/-! ### Reset -/

/-- With every count 0 no symbol is unique. -/
theorem uniqueSyms_zero : uniqueSyms (Vector.replicate 256 0) = [] := by
  simp [uniqueSyms]

theorem countSum_zero : countSum (Vector.replicate 256 0) = 0 := by
  simp [countSum]

/-- The table of R47 after a reset of the block. -/
theorem resetBlock_values (s : State) : Claims.ResetValues (resetBlock s) := by
  have hn : (resetBlock s).nuniq = 0 := by
    rw [State.nuniq, resetBlock_freq, uniqueSyms_zero, List.length_nil]
  have ht : (resetBlock s).total = 0 :=
    BitVec.eq_of_toNat_eq (by rw [toNat_total, resetBlock_freq, countSum_zero]; rfl)
  exact ⟨rfl, rfl, rfl, rfl, fun y => tableAt_replicate 0 y, rfl, rfl, rfl,
    fun y => tableAt_replicate [] y, rfl, rfl, rfl, rfl, rfl, rfl, rfl, rfl, hn, ht, rfl⟩

end Sys2Proof.Machine

open Sys2Proof Sys2Proof.Machine

/-- Settles O49: 256 counts fit in 40 bits, and the one root of a forest weighs what its leaves weigh. -/
theorem totalIsExactAndTheRootsFrequency : Obligations.TotalIsExactAndTheRootsFrequency := by
  intro s
  refine ⟨(toNat_eq_lo_add_hi s.total).trans (toNat_total s), fun h hp => ?_⟩
  obtain ⟨n, hn⟩ := (h.tree hp).exists_root
  exact ⟨n, hn, (h.tree hp).root_freq hn⟩

/-- Settles O50: the root of a tree is a leaf exactly when the tree has one. -/
theorem degenMeansOneSymbol : Obligations.DegenMeansOneSymbol := by
  intro s h
  rw [State.degen, Bool.and_eq_true, decide_eq_true_iff]
  exact and_congr_right fun hp => (h.tree hp).root_isLeaf_iff

/-- Settles O5, by the step of a CMD write. -/
theorem stepRunsTheDecodedCommand : Obligations.StepRunsTheDecodedCommand := by
  intro s w i rest hs hw
  rw [step_cons hs, hostMove_cmd, writeCmd_ok hw]

/-- Settles O8, by the register map; the nine-bit registers show what fits in nine bits. -/
theorem registersShowTheState : Obligations.RegistersShowTheState := by
  intro s
  refine ⟨fun off ho => ?_, rfl, rfl, nuniqReg_eq s, rfl, rfl, rfl, fun h => ?_, fun h => ?_, rfl, rfl,
    rfl⟩
  · simp [hostMove, accepted, ho]
  · exact setWidth_ofNat_nine (by omega)
  · exact setWidth_ofNat_nine (by omega)

/-- Settles O9, from the two words as numbers. -/
theorem statusAndBitstateFields : Obligations.StatusAndBitstateFields := by
  intro s
  obtain ⟨h1, h2, h3, h4, h5⟩ := statusReg_fields s
  exact ⟨h1, h2, h3, h4, h5, bitstateReg_fields s⟩

/-- Settles O10: RESET and the hardware reset are one operation on the block. -/
theorem resetLeavesTheTabledValues : Obligations.ResetLeavesTheTabledValues :=
  ⟨resetBlock_values State.reset, fun s =>
    ⟨resetBlock s, rfl, rfl, resetBlock_values s, rfl, rfl⟩⟩
end

section
/-! SUPPORT. Bus accesses (R63, R64): those the block does not accept, and offsets whose writes it
ignores. -/

namespace Sys2Proof.Machine

theorem accepted_iff (size off : Nat) : accepted size off = true ↔ size = 4 ∧ off % 4 = 0 := by
  simp [accepted]

/-- An access that is not an aligned 32-bit one (R63). -/
theorem hostMove_busError {size off : Nat} (h : ¬ (size = 4 ∧ off % 4 = 0)) (v : Word) (s : State) :
    hostMove (.read size off) s = .next { s with resp := .busError } ∧
      hostMove (.write size off v) s = .next { s with resp := .busError } := by
  rw [← accepted_iff] at h
  exact ⟨if_neg h, if_neg h⟩

theorem hostMove_read_aligned {off : Nat} (h : off % 4 = 0) (s : State) :
    hostMove (.read 4 off) s = .next { s with resp := .data (readAt off s) } :=
  if_pos ((accepted_iff 4 off).2 ⟨rfl, h⟩)

theorem hostMove_write_aligned {off : Nat} (h : off % 4 = 0) (v : Word) (s : State) :
    hostMove (.write 4 off v) s = writeAt off v { s with resp := .written } :=
  if_pos ((accepted_iff 4 off).2 ⟨rfl, h⟩)

theorem Reg.offset_lt (r : Reg) : r.offset < 0x38 := by
  cases r <;> decide

/-- The register space ends at 0x38 (R26, R64). -/
theorem regAt?_unmapped {off : Nat} (h : 0x38 ≤ off) : regAt? off = none := by
  refine List.find?_eq_none.2 fun r _ => ?_
  have := r.offset_lt
  simp only [decide_eq_true_eq]
  omega

theorem readAt_unmapped {off : Nat} (h : regAt? off = none) (s : State) : readAt off s = 0 := by
  rw [readAt, h]

/-- Only CMD, ARG and REMAIN take a write (R64). -/
theorem writeAt_ignored {off : Nat} (h : regAt? off ∉ [some .cmd, some .arg, some .remain]) (v : Word)
    (s : State) : writeAt off v s = .next s := by
  rw [writeAt]
  split
  · next e => exact absurd (by simp [e]) h
  · next e => exact absurd (by simp [e]) h
  · next e => exact absurd (by simp [e]) h
  · rfl

/-- The read-only registers are aligned and take no write (R26, R64). -/
theorem readOnly_offsets :
    ∀ off ∈ [0x08, 0x0C, 0x10, 0x14, 0x18, 0x1C, 0x20, 0x24, 0x2C, 0x30, 0x34],
      off % 4 = 0 ∧ regAt? off ∉ [some .cmd, some .arg, some .remain] := by
  decide

end Sys2Proof.Machine

open Sys2Proof Sys2Proof.Machine

/-- Settles O7: the accepted accesses, the end of the register space, and the three registers that take
a write. -/
theorem busCornerCases : Obligations.BusCornerCases := by
  intro s size off v
  refine ⟨fun h => hostMove_busError h v s, fun h ho => ?_, fun h => ?_, rfl⟩
  · have hn := regAt?_unmapped h
    refine ⟨?_, ?_⟩
    · rw [hostMove_read_aligned ho, readAt_unmapped hn]
    · rw [hostMove_write_aligned ho, writeAt_ignored (by simp [hn])]
  · obtain ⟨ho, hw⟩ := readOnly_offsets off h
    rw [hostMove_write_aligned ho, writeAt_ignored hw]
end

section
/-! SUPPORT. Every word that decodes is legal in the terms of R91, R92 and R94. -/

namespace Sys2Proof

/-- A row of the opcode map answers, or a later one does. -/
theorem row_cases {op k : BitVec 8} {f g : Format} {i j : Instr} {later : Option (Format × Instr)}
    (h : (if op = k then some (g, j) else later) = some (f, i)) :
    (op.setWidth 32, f.mask) = (k.setWidth 32, g.mask) ∨ later = some (f, i) := by
  split_ifs at h with hk
  · cases h
    exact .inl (by rw [hk])
  · exact .inr h

/-- Each of the decoder's 21 rows is a row of the opcode map (R94). -/
theorem rowOf_mem_opcodeMap {op : BitVec 8} {w : Word} {f : Format} {i : Instr}
    (h : rowOf op w = some (f, i)) : (op.setWidth 32, f.mask) ∈ Claims.opcodeMap := by
  rw [rowOf] at h
  iterate 21
    refine (row_cases h).elim (fun e => e ▸ by decide) fun h => ?_
  cases h

/-- A word that decodes matches a row, and its command's operands are admitted (R91). -/
theorem exists_row_of_decode {w : Word} {i : Instr} (h : decode w = .ok i) :
    ∃ f, rowOf (opField w) w = some (f, i) ∧ w &&& f.mask = (opField w).setWidth 32 <<< 24 ∧
      i.wf = true := by
  rw [decode] at h
  split at h
  · cases h
  · next f j hr =>
    split_ifs at h with hm hw
    cases h
    exact ⟨f, hr, not_not.1 hm, hw⟩

theorem legalWord_of_decode {w : Word} {i : Instr} (h : decode w = .ok i) : Claims.LegalWord w := by
  obtain ⟨f, hr, hm, hw⟩ := exists_row_of_decode h
  refine ⟨⟨_, rowOf_mem_opcodeMap hr, hm⟩, fun hop => ?_⟩
  obtain rfl : Instr.rdNode (selField w) (idxField w) = i := by
    rw [show opField w = 0x21#8 from hop] at hr
    exact congrArg Prod.snd (Option.some.inj hr)
  exact of_decide_eq_true hw

end Sys2Proof

namespace Sys2Proof.Machine

/-- A CMD write of a word that is not legal (R95, R273). -/
theorem writeCmd_illegal {w : Word} (h : ¬ Claims.LegalWord w) (s : State) :
    writeCmd w s = .next { s with err := if s.err = .ok then .illegal else s.err } := by
  cases hd : decode w with
  | ok i => exact absurd (legalWord_of_decode hd) h
  | error r => rw [writeCmd_error hd, illegalWord_eq]

end Sys2Proof.Machine

open Sys2Proof Sys2Proof.Machine

/-- Settles O6: a step is the host's next move, and a word that is not legal does not decode. -/
theorem stepOfTheOtherMoves : Obligations.StepOfTheOtherMoves := by
  intro s rest v bytes
  refine ⟨step_idle, fun m => step_cons, fun h => ?attach, fun h => ?hardReset, fun h => ?arg,
    fun h => ?remain, fun h hv => ?illegal⟩ <;> rw [step_cons h]
  case attach | hardReset | arg | remain => rfl
  case illegal => rw [hostMove_cmd, writeCmd_illegal hv]
end

section
/-! SUPPORT. Noninterference of the two bit buffers (R71): the run commands commute with a change of the
state that what they are made of commutes with; for FT_SCAN and ENC_RUN that is a change of the reader's
buffer, for DEC_RUN one of the writer's. -/

namespace Sys2Proof.Machine

/-! ### Changes that the run commands commute with -/

/-- The change `m` leaves the tables and what the frame of R275 looks at, and it commutes with the
writes of the frame, with a count, with a pull and with DEC_RUN's output of a byte. -/
structure Bystander (m : State → State) : Prop where
  err : ∀ s, (m s).err = s.err := by intros; rfl
  phase : ∀ s, (m s).phase = s.phase := by intros; rfl
  freq : ∀ s, (m s).freq = s.freq := by intros; rfl
  code : ∀ s, (m s).code = s.code := by intros; rfl
  nodes : ∀ s, (m s).nodes = s.nodes := by intros; rfl
  root : ∀ s, (m s).root = s.root := by intros; rfl
  setRes : ∀ s v, { m s with res := v } = m { s with res := v } := by intros; rfl
  raise : ∀ s e, raise e (m s) = m (raise e s) := by intros; rfl
  setFreq : ∀ s f, { m s with freq := f } = m { s with freq := f } := by intros; rfl
  pull : ∀ s rest, { m s with src := rest, srcCount := (m s).srcCount + 1 } =
    m { s with src := rest, srcCount := s.srcCount + 1 } := by intros; rfl
  emit : ∀ s y, { snkAppend y (m s) with remain := (m s).remain - 1 } =
    m { snkAppend y s with remain := s.remain - 1 } := by intros; rfl

section
variable {m : State → State} (hm : Bystander m)
include hm

/-- A command commutes with a change when its body does. -/
theorem exec_mapState {i : Instr} {s t : State} (hi : i ≠ .reset)
    (hb : bodyOf i (m s) = (bodyOf i s).mapState m) (h : exec i s = .next t) :
    exec i (m s) = .next (m t) := by
  rw [exec_eq_command hi] at h ⊢
  obtain ⟨he, rfl⟩ | ⟨he, ha, rfl⟩ | ⟨he, ha, v, u, hu, rfl⟩ | ⟨he, ha, e, u, hu, rfl⟩ :=
    command_cases h <;> rw [← hm.err] at he
  · exact command_faulted he
  all_goals rw [← hm.phase] at ha
  · rw [command_outOfPhase he ha, hm.raise]
  · rw [command_run he ha, hb, hu, Res.mapState_ret, finish_ret, hm.setRes]
  · rw [command_run he ha, hb, hu, Res.mapState_raised, finish_raised, hm.raise]

theorem countOne_mapState (y : Byte) (s : State) :
    countOne y (m s) = (countOne y s).mapState m := by
  by_cases h : tableAt s.freq y = 0xFFFFFFFF#32
  · rw [countOne_overflow h, countOne_overflow (by rwa [hm.freq]), Res.mapState_raised]
  · rw [countOne_ok h, countOne_ok (by rwa [hm.freq]), hm.freq, hm.setFreq, Res.mapState_ret]

theorem scanLoop_mapState (bs : List Byte) (s : State) :
    scanLoop bs (m s) = (scanLoop bs s).mapState m := by
  induction bs generalizing s with
  | nil => rfl
  | cons b rest ih =>
    rw [scanLoop, hm.pull]
    exact Res.bind_mapState (countOne_mapState hm b _) fun _ u => ih u

omit hm in
theorem putBits_mapState (hp : ∀ b s, putBit b (m s) = m (putBit b s)) (bs : List Bool) (s : State) :
    putBits bs (m s) = m (putBits bs s) := by
  induction bs generalizing s with
  | nil => rfl
  | cons b bs ih => rw [putBits_cons, hp, ih, putBits_cons]

theorem putSym_mapState (hp : ∀ b s, putBit b (m s) = m (putBit b s)) (y : Byte) (s : State) :
    putSym y (m s) = (putSym y s).mapState m := by
  by_cases h : tableAt s.code y = []
  · rw [putSym_noCode h, putSym_noCode (by rwa [hm.code]), Res.mapState_raised]
  · rw [putSym_ok h, putSym_ok (by rwa [hm.code]), hm.code, putBits_mapState hp, Res.mapState_ret]

theorem encLoop_mapState (hp : ∀ b s, putBit b (m s) = m (putBit b s)) (bs : List Byte) (s : State) :
    encLoop bs (m s) = (encLoop bs s).mapState m := by
  induction bs generalizing s with
  | nil => rfl
  | cons b rest ih =>
    rw [encLoop, hm.pull]
    exact Res.bind_mapState (putSym_mapState hm hp b _) fun _ u => ih u

theorem decWalk_mapState (hg : ∀ s, getBit (m s) = ((getBit s).1, m (getBit s).2)) (n : Nat) (c : Idx)
    (s : State) : decWalk n c (m s) = (decWalk n c s).mapState m := by
  induction n generalizing c s with
  | zero =>
    rw [decWalk, decWalk, hg, hm.nodes]
    rcases s.nodes[c.toNat]? with _ | ⟨y, w⟩ | ⟨l, r, w⟩
    · rfl
    · rfl
    · rcases getBit s with ⟨_ | b, u⟩ <;> rfl
  | succ n ih =>
    rw [decWalk, decWalk, hg, hm.nodes]
    rcases s.nodes[c.toNat]? with _ | ⟨y, w⟩ | ⟨l, r, w⟩
    · rfl
    · rfl
    · rcases getBit s with ⟨_ | b, u⟩
      · rfl
      · exact ih _ u

theorem decSym_mapState (hg : ∀ s, getBit (m s) = ((getBit s).1, m (getBit s).2))
    (hl : ∀ s, bitsLeft (m s) = bitsLeft s) (s : State) :
    decSym (m s) = (decSym s).mapState m := by
  rw [decSym, decSym, hg, hm.nodes, hm.root, hl]
  rcases s.nodes[s.root.toNat]? with _ | ⟨y, w⟩ | ⟨l, r, w⟩
  · rfl
  · rcases getBit s with ⟨_ | _ | _, u⟩ <;> rfl
  · exact decWalk_mapState hm hg _ _ s

theorem decLoop_mapState (hg : ∀ s, getBit (m s) = ((getBit s).1, m (getBit s).2))
    (hl : ∀ s, bitsLeft (m s) = bitsLeft s) (n : Nat) (s : State) :
    decLoop n (m s) = (decLoop n s).mapState m := by
  induction n generalizing s with
  | zero => rfl
  | succ n ih =>
    exact Res.bind_mapState (decSym_mapState hm hg hl s) fun y u => by rw [hm.emit]; exact ih _

end

/-! ### The two buffers -/

/-- `s` with the reader's buffer replaced (R45). -/
def withReader (a : Byte) (n : Fin 9) (e : Bool) (s : State) : State :=
  { s with rbuf := a, rcnt := n, reos := e }

/-- `s` with the writer's buffer replaced (R44). -/
def withWriter (a : Byte) (n : BitVec 3) (s : State) : State := { s with wacc := a, wcnt := n }

theorem bystander_withReader (a : Byte) (n : Fin 9) (e : Bool) : Bystander (withReader a n e) := {}

theorem bystander_withWriter (a : Byte) (n : BitVec 3) : Bystander (withWriter a n) := {}

/-- A put does not look at the reader (R187). -/
theorem putBit_withReader (a : Byte) (n : Fin 9) (e : Bool) (b : Bool) (s : State) :
    putBit b (withReader a n e s) = withReader a n e (putBit b s) := by
  by_cases h : s.wcnt = 7#3 <;> simp [putBit, withReader, snkAppend, h]

/-- A get does not look at the writer (R192). -/
theorem getBit_withWriter (a : Byte) (n : BitVec 3) (s : State) :
    getBit (withWriter a n s) = ((getBit s).1, withWriter a n (getBit s).2) := by
  by_cases h : s.rcnt = 0
  · cases he : s.reos with
    | true => rw [getBit_latched h he, getBit_latched (s := withWriter a n s) h he]
    | false =>
      cases hs : s.src with
      | nil => rw [getBit_eos h he hs, getBit_eos (s := withWriter a n s) h he hs]; rfl
      | cons v rest => rw [getBit_pull h he hs, getBit_pull (s := withWriter a n s) h he hs]; rfl
  · rw [getBit_buffered h, getBit_buffered (s := withWriter a n s) h]; rfl

end Sys2Proof.Machine

open Sys2Proof Sys2Proof.Machine

/-- Settles O40, by commutation of the three loops with a change of the other buffer. -/
theorem runCommandsBypassTheOtherBuffer : Obligations.RunCommandsBypassTheOtherBuffer := by
  intro i s t h
  refine ⟨fun hi a n e => ?_, fun hi a n => ?_⟩
  · have hm := bystander_withReader a n e
    obtain rfl | rfl := hi
    · exact exec_mapState hm nofun (scanLoop_mapState hm s.src s) h
    · exact exec_mapState hm nofun (encLoop_mapState hm (putBit_withReader a n e) s.src s) h
  · have hm := bystander_withWriter a n
    subst hi
    exact exec_mapState hm nofun
      (decLoop_mapState hm (getBit_withWriter a n) (fun _ => rfl) s.remain.toNat s) h
end

section
/-! SUPPORT. The command words (R90 to R98): a word that decodes is its row's opcode beside the operand
bits that the row's mask leaves, and the decoder's fields read back what the encoder placed. -/

namespace Sys2Proof

/-! ### From a word to its command -/

/-- The operand bits of a word, its fields put back in their places (R92). -/
def Format.operands : Format → Word → Word
  | .n, _ => 0
  | .s, w => (symField w).setWidth 32
  | .b, w => (BitVec.ofBool (bitField w)).setWidth 32
  | .x, w => (selField w).setWidth 32 <<< 16 ||| (idxField w).setWidth 32
  | .c, w => (chunkField w).setWidth 32 <<< 16 ||| (symField w).setWidth 32
  | .h, w => (idxField w).setWidth 32

/-- A field of a word, put back in its place, is the word under the field's bits. -/
theorem extractLsb'_placed (w : Word) (a n : Nat) :
    (w.extractLsb' a n).setWidth 32 <<< a = w &&& (BitVec.allOnes n).setWidth 32 <<< a := by
  ext k hk
  by_cases ha : a ≤ k
  · simp [hk, Nat.add_sub_cancel' ha, Bool.and_comm, Bool.and_assoc]
  · simp [Nat.lt_of_not_le ha]

theorem lowField_placed (w : Word) (n : Nat) :
    (w.extractLsb' 0 n).setWidth 32 = w &&& (BitVec.allOnes n).setWidth 32 := by
  simpa using extractLsb'_placed w 0 n

/-- The bits outside a format's mask are its operand fields (R92). -/
theorem and_not_mask (f : Format) (w : Word) : w &&& ~~~f.mask = f.operands w := by
  cases f with
  | n => exact BitVec.and_zero
  | s => exact (lowField_placed w 8).symm
  | h => exact (lowField_placed w 9).symm
  | b =>
    have hb : BitVec.ofBool (bitField w) = w.extractLsb' 0 1 := by
      ext k hk
      simp [bitField, Nat.lt_one_iff.1 hk]
    rw [Format.operands, hb, lowField_placed]
    rfl
  | x | c =>
    rw [Format.operands]
    simp only [selField, idxField, chunkField, symField]
    rw [extractLsb'_placed, lowField_placed, ← BitVec.and_or_distrib_left]
    rfl

/-- A row of the decoder answers with its own format and command, or a later one answers. -/
theorem row_answers {op k : BitVec 8} {f g : Format} {i j : Instr} {later : Option (Format × Instr)}
    (h : (if op = k then some (g, j) else later) = some (f, i)) :
    (op = k ∧ g = f ∧ j = i) ∨ later = some (f, i) := by
  split_ifs at h with hk
  · cases h
    exact .inl ⟨hk, rfl, rfl⟩
  · exact .inr h

/-- A row's command has the row's opcode and its format's operands (R92 to R94). -/
theorem rowOf_spec {op : BitVec 8} {w : Word} {f : Format} {i : Instr} (h : rowOf op w = some (f, i)) :
    i.opcode = op ∧ i.operandBits = f.operands w := by
  rw [rowOf] at h
  iterate 21
    rcases row_answers h with ⟨rfl, rfl, rfl⟩ | h
    · exact ⟨rfl, rfl⟩
  cases h

/-- No bit of a word that decodes is dropped (R91). -/
theorem encode_of_decode {w : Word} {i : Instr} (h : decode w = .ok i) : encode i = w := by
  obtain ⟨f, hr, hm, -⟩ := exists_row_of_decode h
  obtain ⟨hop, hb⟩ := rowOf_spec hr
  rw [encode, hop, hb, ← hm, ← and_not_mask, ← BitVec.and_or_distrib_left, BitVec.or_not_self,
    BitVec.and_allOnes]

theorem wf_of_decode {w : Word} {i : Instr} (h : decode w = .ok i) : i.wf = true := by
  obtain ⟨_, _, _, hw⟩ := exists_row_of_decode h
  exact hw

/-! ### From a command to its word -/

open Laws.MatchesItsRow in
/-- Every command's word lies in the row of its opcode. -/
theorem matchesItsRow : ∀ i : Instr, Laws.MatchesItsRow.Statement i
  | .nop => nop
  | .reset => reset
  | .ftClear => ftClear
  | .ftCount y => ftCount y
  | .ftLoad y => ftLoad y
  | .ftRead y => ftRead y
  | .ftScan => ftScan
  | .build => build
  | .rdNode sel idx => rdNode sel idx
  | .rdCodeLen y => rdCodeLen y
  | .rdCodeBits y c => rdCodeBits y c
  | .rdHeap idx => rdHeap idx
  | .wrInit => wrInit
  | .putBit b => putBit b
  | .putSym y => putSym y
  | .flush => flush
  | .encRun => encRun
  | .rdInit => rdInit
  | .getBit => getBit
  | .decSym => decSym
  | .decRun => decRun

/-- A field put in its place is read back from there. -/
theorem extractLsb'_of_placed {n a : Nat} (x : BitVec n) (h : a + n ≤ 32) :
    (x.setWidth 32 <<< a).extractLsb' a n = x := by
  ext k hk
  simp [show a + k < 32 by omega, BitVec.getLsbD_eq_getElem hk]

theorem extractLsb'_low {n : Nat} (x : BitVec n) (h : n ≤ 32) :
    (x.setWidth 32).extractLsb' 0 n = x := by
  simpa using extractLsb'_of_placed (a := 0) x (by omega)

/-- Above its width a value has no bits. -/
theorem extractLsb'_above {n a m : Nat} (x : BitVec n) (h : n ≤ a) :
    (x.setWidth 32).extractLsb' a m = 0#m := by
  ext k hk
  simp [BitVec.getLsbD_of_ge x (a + k) (by omega)]

/-- Below its place a field has no bits. -/
theorem extractLsb'_below {a m : Nat} (w : Word) (h : m ≤ a) : (w <<< a).extractLsb' 0 m = 0#m := by
  ext k hk
  simp [show k < a by omega]

/-- Every mask covers the opcode (R92), so a word that matches a row has the row's opcode. -/
theorem opField_of_masked {w : Word} {f : Format} {op : BitVec 8}
    (h : w &&& f.mask = op.setWidth 32 <<< 24) : opField w = op := by
  have hf : f.mask.extractLsb' 24 8 = BitVec.allOnes 8 := by cases f <;> rfl
  rw [← extractLsb'_of_placed op (a := 24) (by decide), ← h, BitVec.extractLsb'_and, hf,
    BitVec.and_allOnes, opField]

/-- Below the opcode a command's word has its operand bits (R98). -/
theorem extractLsb'_encode (i : Instr) {a n : Nat} (h : a + n ≤ 24) :
    (encode i).extractLsb' a n = i.operandBits.extractLsb' a n := by
  ext k hk
  simp [encode, show a + k < 24 by omega]

/-- A row with one operand, in the low bits of the word, reads it back (formats S and H). -/
theorem row_reads_low {n : Nat} (mk : BitVec n → Instr) (x : BitVec n)
    (hrow : (rowOf (mk x).opcode (encode (mk x))).map Prod.snd =
      some (mk ((encode (mk x)).extractLsb' 0 n)))
    (hbits : (mk x).operandBits = x.setWidth 32) (hn : n ≤ 24) :
    (rowOf (mk x).opcode (encode (mk x))).map Prod.snd = some (mk x) := by
  rw [hrow, extractLsb'_encode _ (by omega), hbits, extractLsb'_low x (by omega)]

/-- A row with two operands reads both back (formats X and C). -/
theorem row_reads_two {m n : Nat} (mk : BitVec m → BitVec n → Instr) (x : BitVec m) (y : BitVec n)
    (hrow : (rowOf (mk x y).opcode (encode (mk x y))).map Prod.snd =
      some (mk ((encode (mk x y)).extractLsb' 16 m) ((encode (mk x y)).extractLsb' 0 n)))
    (hbits : (mk x y).operandBits = x.setWidth 32 <<< 16 ||| y.setWidth 32) (hm : m ≤ 8)
    (hn : n ≤ 16) : (rowOf (mk x y).opcode (encode (mk x y))).map Prod.snd = some (mk x y) := by
  have hx : (mk x y).operandBits.extractLsb' 16 m = x := by
    rw [hbits, BitVec.extractLsb'_or, extractLsb'_of_placed x (by omega), extractLsb'_above y hn,
      BitVec.or_zero]
  have hy : (mk x y).operandBits.extractLsb' 0 n = y := by
    rw [hbits, BitVec.extractLsb'_or, extractLsb'_below _ hn, extractLsb'_low y (by omega),
      BitVec.zero_or]
  rw [hrow, extractLsb'_encode _ (by omega), extractLsb'_encode _ (by omega), hx, hy]

/-- The decoder's fields read back what the encoder placed (R93, R98): the row of a command's opcode,
read in the command's own word, names the command. -/
theorem rowOf_encode (i : Instr) : (rowOf i.opcode (encode i)).map Prod.snd = some i := by
  cases i with
  | ftCount y => exact row_reads_low .ftCount y rfl rfl (by decide)
  | ftLoad y => exact row_reads_low .ftLoad y rfl rfl (by decide)
  | ftRead y => exact row_reads_low .ftRead y rfl rfl (by decide)
  | rdCodeLen y => exact row_reads_low .rdCodeLen y rfl rfl (by decide)
  | putSym y => exact row_reads_low .putSym y rfl rfl (by decide)
  | rdHeap idx => exact row_reads_low .rdHeap idx rfl rfl (by decide)
  | putBit b => cases b <;> rfl
  | rdNode sel idx => exact row_reads_two .rdNode sel idx rfl rfl (by decide) (by decide)
  | rdCodeBits y c =>
    exact row_reads_two (fun c y => .rdCodeBits y c) c y rfl rfl (by decide) (by decide)
  | _ => rfl

/-- A word that matches a row and whose operands are admitted decodes (R91). -/
theorem decode_of_row {w : Word} {f : Format} {i : Instr} (hr : rowOf (opField w) w = some (f, i))
    (hm : w &&& f.mask = (opField w).setWidth 32 <<< 24) (hw : i.wf = true) : decode w = .ok i := by
  rw [decode, hr]
  simp [hm, hw]

theorem decode_encode {i : Instr} (hw : i.wf = true) : decode (encode i) = .ok i := by
  obtain ⟨f, j, hr, hm⟩ := matchesItsRow i
  obtain rfl : j = i := by simpa [hr] using rowOf_encode i
  have hop := opField_of_masked hm
  rw [← hop] at hr hm
  exact decode_of_row hr hm hw

end Sys2Proof

open Sys2Proof Sys2Proof.Machine

/-- Settles O1, by the rows that the commands' words lie in and the fields read back from them. -/
theorem decodeEncodeRoundTrip : Obligations.DecodeEncodeRoundTrip := fun _ => decode_encode

/-- Settles O2: the row's mask and the fields outside it cover the word. -/
theorem legalWordIsItsCommandsWord : Obligations.LegalWordIsItsCommandsWord :=
  fun _ _ h => ⟨encode_of_decode h, wf_of_decode h⟩

/-- Settles O3: a word that is not legal does not decode. -/
theorem illegalWordRaisesErrIllegal : Obligations.IllegalWordRaisesErrIllegal := by
  intro w s he hw
  rw [writeCmd_illegal hw, if_pos he]

/-- Settles O4, by running the decoder on each word. -/
theorem writtenOutWordsDecode : Obligations.WrittenOutWordsDecode := by
  unfold Obligations.WrittenOutWordsDecode
  decide
end

section
/-! SUPPORT. Errors and phases: the errors that a command's pseudocode raises (R271), and the phases that
admit a command (R97, R274). -/

namespace Sys2Proof.Machine

/-- The errors that the pseudocode of a command raises (R271); a reserved `sel` is ERR_ILLEGAL (R91). -/
def errorsOf : Instr → List Err
  | .build => [.empty]
  | .ftCount _ | .ftScan => [.countOvf]
  | .rdNode sel _ => (nodeField? sel).elim [.illegal] fun _ => [.range]
  | .rdHeap _ => [.range]
  | .putSym _ | .encRun => [.noCode]
  | .decSym | .decRun => [.trunc, .badCode]
  | .nop | .reset | .ftClear | .ftLoad _ | .ftRead _ | .rdCodeLen _ | .rdCodeBits _ _ | .wrInit
  | .putBit _ | .flush | .rdInit | .getBit => []

/-- ERR_PHASE is the frame's alone (R274). -/
theorem phase_not_mem_errorsOf (i : Instr) : Err.phase ∉ errorsOf i := by
  cases i with
  | rdNode sel idx => cases hf : nodeField? sel <;> simp [errorsOf, hf]
  | _ => simp [errorsOf]

/-- The errors of a command's pseudocode are those of its row of the table. -/
theorem bodyOf_raised {i : Instr} {s u : State} {e : Err} (h : bodyOf i s = .raised e u) :
    e ∈ errorsOf i := by
  cases i with
  | ftCount y =>
    by_cases hy : tableAt s.freq y = 0xFFFFFFFF#32
    · rw [bodyOf, countOne_overflow hy] at h; cases h; exact .head _
    · rw [bodyOf, countOne_ok hy] at h; cases h
  | ftScan =>
    obtain ⟨g, p, r, -, e | e⟩ := scanLoop_form s.src s rfl <;> rw [bodyOf, e] at h <;> cases h
    decide
  | build =>
    obtain ⟨-, e⟩ | ⟨-, -, e⟩ | ⟨-, -, -, r, -, e⟩ := buildBody_cases s <;> rw [bodyOf, e] at h <;>
      cases h
    decide
  | rdNode sel idx =>
    rw [bodyOf] at h
    cases hf : nodeField? sel with
    | none => rw [hf] at h; cases h; simp [errorsOf, hf]
    | some k =>
      rw [hf, Option.elim_some, rdNodeBody] at h
      split at h <;> cases h
      simp [errorsOf, hf]
  | rdHeap idx =>
    rw [bodyOf] at h
    cases hx : s.heap[idx.toNat]? <;> rw [hx] at h <;> cases h
    exact .head _
  | putSym y =>
    by_cases hy : tableAt s.code y = []
    · rw [bodyOf, putSym_noCode hy] at h; cases h; exact .head _
    · rw [bodyOf, putSym_ok hy] at h; cases h
  | encRun =>
    obtain ⟨a, n, k, p, r, -, e | e⟩ := encLoop_form s.src s rfl <;> rw [bodyOf, e] at h <;> cases h
    decide
  | decSym =>
    obtain ⟨y, u, e, -⟩ | ⟨u, e | e, -⟩ | e := decSym_ends s <;> rw [bodyOf, e] at h <;> cases h <;>
      decide
  | decRun =>
    obtain ⟨u, -, e | e | e⟩ | e := decLoop_ends s.remain.toNat s <;> rw [bodyOf, e] at h <;> cases h <;>
      decide
  | _ => cases h

/-- ERR after a command that starts with ERR = 0: still 0, or ERR_PHASE because the phase does not admit
the command, or an error of its pseudocode. -/
theorem exec_err {i : Instr} {s t : State} (h : exec i s = .next t) (he : s.err = .ok) :
    t.err = .ok ∨ (t.err = .phase ∧ (admissionOf i).admits s.phase = false) ∨ t.err ∈ errorsOf i := by
  by_cases hi : i = .reset
  · subst hi
    cases h
    exact .inl rfl
  have hran := bodyOf_ran i s
  rw [exec_eq_command hi] at h
  obtain ⟨hn, -⟩ | ⟨-, ha, rfl⟩ | ⟨-, -, v, u, hu, rfl⟩ | ⟨-, -, e, u, hu, rfl⟩ := command_cases h
  · exact absurd he hn
  · exact .inr (.inl ⟨rfl, ha⟩)
  · rw [hu] at hran
    exact .inl (hran.err.trans he)
  · exact .inr (.inr (bodyOf_raised hu))

theorem exec_outOfPhase {i : Instr} {s : State} (he : s.err = .ok)
    (ha : (admissionOf i).admits s.phase = false) : exec i s = .next { s with err := .phase } := by
  have hi : i ≠ .reset := by rintro rfl; cases ha
  rw [exec_eq_command hi, command_outOfPhase he ha, raise]

/-- Only the phase not admitting the command gives ERR_PHASE (R274). -/
theorem admits_of_phase_error {i : Instr} {s t : State} (h : exec i s = .next t) (he : s.err = .ok)
    (ht : t.err = .phase) : (admissionOf i).admits s.phase = false := by
  obtain h0 | ⟨-, ha⟩ | hm := exec_err h he
  · rw [ht] at h0; cases h0
  · exact ha
  · exact absurd (ht ▸ hm) (phase_not_mem_errorsOf i)

theorem admits_eq_false_iff (adm : Admission) (p : Phase) :
    adm.admits p = false ↔ (p = .tree ∧ adm = .freqOnly) ∨ (p = .freq ∧ adm = .treeOnly) := by
  cases adm <;> cases p <;> decide

/-- The two lists of R97. -/
theorem admissionOf_eq_freqOnly (i : Instr) : admissionOf i = .freqOnly ↔
    (∃ y, i = .ftCount y) ∨ (∃ y, i = .ftLoad y) ∨ i = .ftScan ∨ i = .build := by
  cases i <;> simp [admissionOf]

theorem admissionOf_eq_treeOnly (i : Instr) : admissionOf i = .treeOnly ↔
    (∃ y, i = .putSym y) ∨ i = .encRun ∨ i = .decSym ∨ i = .decRun := by
  cases i <;> simp [admissionOf]

end Sys2Proof.Machine

open Sys2Proof Sys2Proof.Machine

/-- Settles O13: the frame of R275 refuses the commands of R97's two lists, and no pseudocode raises
ERR_PHASE. -/
theorem phaseAdmission : Obligations.PhaseAdmission := by
  intro i s he
  rw [← admissionOf_eq_freqOnly, ← admissionOf_eq_treeOnly]
  refine ⟨fun hi hp => ?_, fun hi hp => ?_, fun t h ht => ?_⟩
  · exact exec_outOfPhase he ((admits_eq_false_iff _ _).2 (.inl ⟨hp, hi⟩))
  · exact exec_outOfPhase he ((admits_eq_false_iff _ _).2 (.inr ⟨hp, hi⟩))
  · exact (admits_eq_false_iff _ _).1 (admits_of_phase_error h he ht)
end

section
/-! SUPPORT. Every command but RESET under the checks of R275: the refusal of a faulted block, and the
pseudocode's answer in a phase that admits the command. -/

namespace Sys2Proof.Machine

/-- A faulted block refuses every command but RESET (R273). -/
theorem exec_faulted {i : Instr} {s : State} (hi : i ≠ .reset) (he : s.err ≠ .ok) :
    exec i s = .next s := by
  rw [exec_eq_command hi, command_faulted he]

/-- Past the common checks a command answers what its pseudocode ends with (R275). -/
theorem exec_run {i : Instr} {s : State} (hi : i ≠ .reset) (he : s.err = .ok)
    (ha : (admissionOf i).admits s.phase = true) : exec i s = finish (bodyOf i s) := by
  rw [exec_eq_command hi, command_run he ha]

/-- RESET alone leads out of the faulted state (R273, R277). -/
theorem eq_reset_of_clears_err {i : Instr} {s t : State} (h : exec i s = .next t) (hs : s.err ≠ .ok)
    (ht : t.err = .ok) : i = .reset := by
  by_contra hi
  rw [exec_faulted hi hs] at h
  cases h
  exact hs ht

/-- What every command rule but RESET's says first (R110, R275). -/
theorem commonChecks {i : Instr} (hw : i.wf = true) (hi : i ≠ .reset) :
    Claims.CommonChecks i (encode i) (admissionOf i) :=
  ⟨decode_encode hw, rfl, fun _ => ⟨exec_faulted hi, exec_outOfPhase⟩⟩

end Sys2Proof.Machine

open Sys2Proof Sys2Proof.Machine

/-- Settles O11: RESET is the block's reset, and a faulted block refuses every other command. -/
theorem resetCommandRule : Obligations.ResetCommandRule :=
  ⟨decode_encode (i := .reset) rfl, rfl, fun _ => ⟨rfl, fun _ _ => eq_reset_of_clears_err⟩⟩

/-- Settles O17: the checks of R275, then a pseudocode that returns 0 and touches nothing. -/
theorem nopRule : Obligations.NopRule := by
  refine ⟨commonChecks (i := .nop) rfl (by decide), rfl, fun s he => ?_⟩
  rw [exec_run (by decide) he rfl, bodyOf, finish_ret]
end

section
/-! SUPPORT. The frequency table: the part of the source that FT_SCAN counts (R126), and what the table
commands and BUILD leave alone. -/

namespace Sys2Proof.Machine

/-! ### Command words -/

/-- The checks of R275 for a command whose word is given as its opcode's beside its operand bits
(R98, R110). -/
theorem commonChecks_or {i : Instr} {w : Word} (op : BitVec 8) (hop : i.opcode = op)
    (hopw : op.setWidth 32 <<< 24 = w) (hw : i.wf = true) (hi : i ≠ .reset) :
    Claims.CommonChecks i (w ||| i.operandBits) (admissionOf i) := by
  rw [← hopw, ← hop]
  exact commonChecks hw hi

/-! ### Counting -/

/-- While a count is below 2^32 − 1, one more occurrence is one more (R122). -/
theorem toNat_succ {c : Word} (h : c.toNat + 1 < 2 ^ 32) : (c + 1).toNat = c.toNat + 1 :=
  BitVec.toNat_add_of_lt h

theorem ne_max_of_room {c : Word} (h : c.toNat + 1 < 2 ^ 32) : c ≠ 0xFFFFFFFF#32 := by
  rintro rfl
  exact absurd h (by decide)

/-- A byte whose count has room is pulled and counted, and FT_SCAN's loop goes on (R126). -/
theorem scanLoop_counted {b : Byte} (rest : List Byte) {s : State}
    (h : tableAt s.freq b ≠ 0xFFFFFFFF#32) : scanLoop (b :: rest) s = scanLoop rest
      { s with freq := tablePut s.freq b (tableAt s.freq b + 1), src := rest,
               srcCount := s.srcCount + 1 } := by
  simp [scanLoop, countOne, h]

/-- A byte whose count stands at 2^32 − 1 ends FT_SCAN's loop, pulled and not counted (R126). -/
theorem scanLoop_overflow {b : Byte} (rest : List Byte) {s : State}
    (h : tableAt s.freq b = 0xFFFFFFFF#32) : scanLoop (b :: rest) s =
      .raised .countOvf { s with src := rest, srcCount := s.srcCount + 1 } := by
  simp [scanLoop, countOne, h]

/-- Counting a byte moves one occurrence from the bytes to come into the table. -/
theorem counted_add_count {t : Vector Word 256} {b : Byte} (h : (tableAt t b).toNat + 1 < 2 ^ 32)
    (bs : List Byte) (y : Byte) :
    (tableAt (tablePut t b (tableAt t b + 1)) y).toNat + bs.count y =
      (tableAt t y).toNat + (b :: bs).count y := by
  rw [tableAt_tablePut]
  split
  · next hy =>
    rw [hy, toNat_succ h, List.count_cons_self]
    omega
  · next hy => rw [List.count_cons_of_ne (Ne.symm hy)]

/-- FT_SCAN's loop counts the bytes at the front of the source as long as no count passes 2^32 − 1, and
goes on with the rest (R126). -/
theorem scanLoop_append (pre post : List Byte) (s : State) (hs : s.src = pre ++ post)
    (hc : ∀ y, (tableAt s.freq y).toNat + pre.count y < 2 ^ 32) : ∃ f,
    (∀ y, (tableAt f y).toNat = (tableAt s.freq y).toNat + pre.count y) ∧
    scanLoop (pre ++ post) s = scanLoop post
      { s with freq := f, src := post, srcCount := s.srcCount + BitVec.ofNat 32 pre.length } := by
  induction pre generalizing s with
  | nil =>
    obtain rfl : s.src = post := hs
    exact ⟨s.freq, by simp, by simp⟩
  | cons b pre ih =>
    have hb := hc b
    rw [List.count_cons_self] at hb
    have hroom : (tableAt s.freq b).toNat + 1 < 2 ^ 32 := by omega
    have hput := counted_add_count hroom pre
    obtain ⟨f, hf, hl⟩ := ih
      { s with src := pre ++ post, srcCount := s.srcCount + 1,
               freq := tablePut s.freq b (tableAt s.freq b + 1) } rfl
      (fun y => (hput y).trans_lt (hc y))
    refine ⟨f, fun y => (hf y).trans (hput y), ?_⟩
    rw [List.cons_append, scanLoop_counted _ (ne_max_of_room hroom), hl, count_succ]
    rfl

/-! ### Frames -/

/-- A property that holds before the command and where its body ends holds after it, RES and ERR
apart. -/
theorem exec_ends {P : State → Prop} {i : Instr} {s t : State} (h : exec i s = .next t)
    (hb : (bodyOf i s).Ends P) (hi : i ≠ .reset) (hs : P s) :
    ∃ u v e, P u ∧ t = { u with res := v, err := e } := by
  obtain ⟨e, rfl⟩ | ⟨-, -, u, hu, ⟨v, -, rfl⟩ | ⟨e, -, rfl⟩⟩ := exec_cases hi (fun _ => hb) h
  · exact ⟨s, s.res, e, hs, rfl⟩
  · exact ⟨u, v, u.err, hu, rfl⟩
  · exact ⟨u, u.res, e, hu, rfl⟩

/-- Only FREQ differs: all that FT_COUNT and FT_LOAD can do before their end (R122, R124). -/
def SameButFreq (s u : State) : Prop := u = { s with freq := u.freq }

/-- Only FREQ, the source and its counter differ: all that FT_SCAN can do before its end (R126). -/
def SameButFreqAndSource (s u : State) : Prop :=
  u = { s with freq := u.freq, src := u.src, srcCount := u.srcCount }

/-- Only the four tables, ROOT and PHASE differ: all that BUILD and FT_CLEAR can do before their end
(R121, R141). -/
def SameButTables (s u : State) : Prop :=
  u = { s with freq := u.freq, nodes := u.nodes, root := u.root, heap := u.heap, code := u.code,
               phase := u.phase }

theorem ftCount_frame (y : Byte) (s : State) : (bodyOf (.ftCount y) s).Ends (SameButFreq s) := by
  rw [bodyOf]
  by_cases hy : tableAt s.freq y = 0xFFFFFFFF#32
  · rw [countOne_overflow hy]
    rfl
  · rw [countOne_ok hy]
    rfl

theorem ftLoad_frame (y : Byte) (s : State) : (bodyOf (.ftLoad y) s).Ends (SameButFreq s) := rfl

theorem ftScan_frame (s : State) : (bodyOf .ftScan s).Ends (SameButFreqAndSource s) := by
  obtain ⟨f, p, r, -, e | e⟩ := scanLoop_form s.src s rfl <;> rw [bodyOf, e] <;> rfl

theorem build_frame (s : State) : (bodyOf .build s).Ends (SameButTables s) := by
  rw [bodyOf]
  obtain ⟨-, e⟩ | ⟨-, -, e⟩ | ⟨-, -, -, r, -, e⟩ := buildBody_cases s <;> rw [e]
  · rfl
  · exact Res.ends_stuck _ _
  · rfl

theorem ftClear_frame (s : State) : (bodyOf .ftClear s).Ends (SameButTables s) := rfl

end Sys2Proof.Machine

open Sys2Proof Sys2Proof.Machine

/-- Settles O21: the loop counts the bytes that fit, the whole source in the first case, and in the
second stops at the byte after them. -/
theorem ftScanRule : Obligations.FtScanRule := by
  refine ⟨commonChecks (i := .ftScan) rfl nofun, fun s ⟨he, ha⟩ => ?_⟩
  rw [exec_run (i := .ftScan) nofun he ha, bodyOf]
  refine ⟨fun hc => ?_, fun pre b post hs hc hb => ?_⟩
  · obtain ⟨f, hf, hl⟩ := scanLoop_append s.src [] s (List.append_nil _).symm hc
    rw [List.append_nil] at hl
    exact ⟨f, by rw [hl, scanLoop, finish_ret], hf⟩
  · obtain ⟨f, hf, hl⟩ := scanLoop_append pre (b :: post) s hs hc
    have hfull : tableAt f b = 0xFFFFFFFF#32 := BitVec.eq_of_toNat_eq ((hf b).trans hb)
    refine ⟨f, ?_, hf⟩
    rw [hs, hl, scanLoop_overflow post hfull, finish_raised, ← count_add]
    rfl

/-- Settles O35, from what each of the bodies leaves alone. -/
theorem tableCommandsFrame : Obligations.TableCommandsFrame := by
  intro i s t h
  refine ⟨?_, ?_, ?_, ?_⟩
  · rintro (⟨y, rfl⟩ | ⟨y, rfl⟩)
    · obtain ⟨u, v, e, hu, rfl⟩ := exec_ends h (ftCount_frame y s) nofun rfl
      rw [hu]
    · obtain ⟨u, v, e, hu, rfl⟩ := exec_ends h (ftLoad_frame y s) nofun rfl
      rw [hu]
  · rintro rfl
    obtain ⟨u, v, e, hu, rfl⟩ := exec_ends h (ftScan_frame s) nofun rfl
    rw [hu]
  · rintro (rfl | rfl)
    · obtain ⟨u, v, e, hu, rfl⟩ := exec_ends h (build_frame s) nofun rfl
      rw [hu]
    · obtain ⟨u, v, e, hu, rfl⟩ := exec_ends h (ftClear_frame s) nofun rfl
      rw [hu]
  · rintro rfl
    obtain ⟨u, v, e, hu, rfl⟩ := exec_ran (i := .build) nofun h
    exact hu.freq nofun (.inr rfl)

/-- Settles O18: the checks of R275, then the tables cleared and 0 returned. -/
theorem ftClearRule : Obligations.FtClearRule := by
  refine ⟨commonChecks (i := .ftClear) rfl nofun, fun s he => ?_⟩
  rw [exec_run (i := .ftClear) nofun he rfl, bodyOf, finish_ret, clearTables]

/-- Settles O19: the checks of R275, then one count, by whether it stands at 2^32 − 1. -/
theorem ftCountRule : Obligations.FtCountRule := by
  refine fun y => ⟨commonChecks_or (i := .ftCount y) 0x11 rfl (by decide) rfl nofun,
    fun s ⟨he, ha⟩ => ?_⟩
  rw [exec_run (i := .ftCount y) nofun he ha, bodyOf]
  refine ⟨fun hy => ?_, fun hy => ⟨tablePut s.freq y (tableAt s.freq y + 1), ?_, ?_⟩⟩
  · rw [countOne_overflow hy, Res.bind_raised, finish_raised, raise]
  · rw [countOne_ok hy, Res.bind_ret, finish_ret]
  · exact ⟨tableAt_tablePut_self _ _ _, fun z hz => tableAt_tablePut_of_ne _ _ hz⟩

/-- Settles O20: FT_LOAD puts ARG into the table, FT_READ returns an entry of it. -/
theorem ftLoadAndFtReadRules : Obligations.FtLoadAndFtReadRules := by
  refine fun y => ⟨commonChecks_or (i := .ftLoad y) 0x12 rfl (by decide) rfl nofun,
    commonChecks_or (i := .ftRead y) 0x13 rfl (by decide) rfl nofun,
    fun s => ⟨fun ⟨he, ha⟩ => ⟨tablePut s.freq y s.arg, ?_, ?_⟩, fun he => ?_⟩⟩
  · rw [exec_run (i := .ftLoad y) nofun he ha, bodyOf, finish_ret]
  · exact ⟨tableAt_tablePut_self _ _ _, fun z hz => tableAt_tablePut_of_ne _ _ hz⟩
  · rw [exec_run (i := .ftRead y) nofun he rfl, bodyOf, finish_ret]
end

section
/-! SUPPORT. RD_NODE and RD_HEAP (R152, R153): which values of `sel` name a field, and the answer of each
command when the entry is there and when it is not. -/

namespace Sys2Proof.Machine

/-- The values of `sel` that name a field are 0 to 5 (R93). -/
theorem nodeField?_isSome (sel : BitVec 4) : (nodeField? sel).isSome = decide (sel ≤ 5#4) := by
  revert sel
  decide

theorem exec_rdNode_reserved {sel : BitVec 4} {s : State} (he : s.err = .ok)
    (hf : nodeField? sel = none) (idx : Idx) :
    exec (.rdNode sel idx) s = .next (raise .illegal s) := by
  rw [exec_run (i := .rdNode sel idx) nofun he rfl, bodyOf, hf, Option.elim_none, finish_raised]

theorem exec_rdNode_field {sel : BitVec 4} {f : NodeField} {s : State} (he : s.err = .ok)
    (hf : nodeField? sel = some f) (idx : Idx) :
    exec (.rdNode sel idx) s = finish (rdNodeBody f idx s) := by
  rw [exec_run (i := .rdNode sel idx) nofun he rfl, bodyOf, hf, Option.elim_some]

/-- RD_NODE at or beyond NODE_N (R152). -/
theorem exec_rdNode_range {sel : BitVec 4} {f : NodeField} {s : State} {idx : Idx} (he : s.err = .ok)
    (hf : nodeField? sel = some f) (hn : s.nodes.length ≤ idx.toNat) :
    exec (.rdNode sel idx) s = .next (raise .range s) := by
  rw [exec_rdNode_field he hf, rdNodeBody, List.getElem?_eq_none hn, finish_raised]

/-- RD_NODE of a node that is there (R152). -/
theorem exec_rdNode_node {s : State} {idx : Idx} {n : Node} (he : s.err = .ok)
    (hn : s.nodes[idx.toNat]? = some n) (sel : BitVec 4) (f : NodeField)
    (hf : nodeField? sel = some f) :
    exec (.rdNode sel idx) s = .next { s with res := readField f n } := by
  rw [exec_rdNode_field he hf, rdNodeBody, hn, finish_ret]

end Sys2Proof.Machine

open Sys2Proof Sys2Proof.Machine

/-- Settles O23, by whether `sel` names a field and whether the node is there, and then field by
field. -/
theorem rdNodeRule : Obligations.RdNodeRule := by
  intro sel i
  have hsome := nodeField?_isSome sel
  refine ⟨fun hsel => ?_, fun s he => ⟨fun hsel => ?_, fun hsel hi => ?_, fun y f hn => ?_,
    fun l r f hn => ?_⟩⟩
  · rw [BitVec.or_assoc]
    exact commonChecks_or (i := .rdNode sel i) 0x21 rfl (by decide) (decide_eq_true hsel) nofun
  · refine exec_rdNode_reserved he ?_ i
    rwa [decide_eq_false (BitVec.not_le.2 hsel), Option.isSome_eq_false_iff,
      Option.isNone_iff_eq_none] at hsome
  · rw [decide_eq_true hsel] at hsome
    obtain ⟨f, hf⟩ := Option.isSome_iff_exists.1 hsome
    exact exec_rdNode_range he hf hi
  · have hx := exec_rdNode_node he hn
    exact ⟨hx 0 .kind rfl, hx 1 .sym rfl, hx 2 .left rfl, hx 3 .right rfl, hx 4 .freqLo rfl,
      hx 5 .freqHi rfl⟩
  · have hx := exec_rdNode_node he hn
    exact ⟨hx 0 .kind rfl, hx 1 .sym rfl, hx 2 .left rfl, hx 3 .right rfl, hx 4 .freqLo rfl,
      hx 5 .freqHi rfl⟩

/-- Settles O24, by whether the slot is there. -/
theorem rdHeapRule : Obligations.RdHeapRule := by
  refine fun i => ⟨commonChecks_or (i := .rdHeap i) 0x24 rfl (by decide) rfl nofun,
    fun s he => ⟨fun hi => ?_, fun n hn => ?_⟩⟩
  · rw [exec_run (i := .rdHeap i) nofun he rfl, bodyOf, List.getElem?_eq_none hi, Option.elim_none,
      finish_raised, raise]
  · rw [exec_run (i := .rdHeap i) nofun he rfl, bodyOf, hn, Option.elim_some, finish_ret]
end

section
/-! SUPPORT. The heap property of the priority queue (R145 to R148, R156). A slot's weight is its key, and
one more than any key beyond HEAP_N, so that the property and the sift loops speak of numbers alone. -/

namespace Sys2Proof.Machine

/-! ### Weights of slots -/

/-- The key of slot `p` as a number; beyond HEAP_N a number above every key. -/
def slotWeight (key : Idx → Freq) (h : List Idx) (p : Nat) : Nat :=
  (h[p]?.map fun i => (key i).toNat).getD (2 ^ 40)

variable {key : Idx → Freq} {h : List Idx} {p q : Nat}

theorem slotWeight_of_getElem? {i : Idx} (hp : h[p]? = some i) :
    slotWeight key h p = (key i).toNat := by
  simp [slotWeight, hp]

theorem slotWeight_of_le (hp : h.length ≤ p) : slotWeight key h p = 2 ^ 40 := by
  simp [slotWeight, hp]

theorem slotWeight_le (key : Idx → Freq) (h : List Idx) (p : Nat) : slotWeight key h p ≤ 2 ^ 40 := by
  rcases Nat.lt_or_ge p h.length with hp | hp
  · rw [slotWeight_of_getElem? (List.getElem?_eq_getElem hp)]
    exact (BitVec.isLt _).le
  · exact (slotWeight_of_le hp).le

/-- A slot that weighs less than another is there. -/
theorem lt_length_of_slotWeight_lt (hw : slotWeight key h q < slotWeight key h p) : q < h.length := by
  by_contra hq
  have := slotWeight_le key h p
  rw [slotWeight_of_le (by omega)] at hw
  omega

/-- The comparison of R148 with a slot that is there compares weights. -/
theorem slotLt_iff (hp : p < h.length) :
    slotLt key h q p = true ↔ slotWeight key h q < slotWeight key h p := by
  rw [slotWeight_of_getElem? (List.getElem?_eq_getElem hp)]
  rcases Nat.lt_or_ge q h.length with hq | hq
  · rw [slotWeight_of_getElem? (List.getElem?_eq_getElem hq)]
    simp [slotLt, hp, hq, BitVec.lt_def]
  · have := (key h[p]).isLt
    have hbeyond : slotLt key h q p = false := by simp [slotLt, hq]
    rw [slotWeight_of_le hq, hbeyond]
    exact iff_of_false nofun (by omega)

theorem slotWeight_swapSlots (hp : p < h.length) (hq : q < h.length) (k : Nat) :
    slotWeight key (swapSlots h p q) k = if k = q then slotWeight key h p
      else if k = p then slotWeight key h q else slotWeight key h k := by
  rw [slotWeight, getElem?_swapSlots h hp hq]
  split
  · rfl
  · split <;> rfl

/-- The heap property in weights (R156). -/
theorem heapOrder_iff : Claims.HeapOrder key h ↔
    ∀ q, 0 < q → slotWeight key h ((q - 1) / 2) ≤ slotWeight key h q := by
  constructor
  · intro H q hq
    rcases Nat.lt_or_ge q h.length with hl | hl
    · have ha := List.getElem?_eq_getElem (l := h) (i := (q - 1) / 2) (by omega)
      have hb := List.getElem?_eq_getElem hl
      rw [slotWeight_of_getElem? ha, slotWeight_of_getElem? hb]
      exact H q _ _ hq ha hb
    · rw [slotWeight_of_le hl]
      exact slotWeight_le key h _
  · intro H q a b hq ha hb
    have := H q hq
    rwa [slotWeight_of_getElem? ha, slotWeight_of_getElem? hb] at this

/-- In a heap with the property slot 0 is a lightest slot (R156). -/
theorem slotWeight_zero_le (H : Claims.HeapOrder key h) (q : Nat) :
    slotWeight key h 0 ≤ slotWeight key h q := by
  induction q using Nat.strong_induction_on with
  | _ q ih =>
    rcases Nat.eq_zero_or_pos q with rfl | hq
    · rfl
    · exact (ih _ (by omega)).trans (heapOrder_iff.1 H q hq)

/-! ### The property but for one slot -/

/-- The heap property but for the slots in `loose`, whose weights are not compared with their parents';
around slot `p` the property holds between its parent and its children. -/
structure HeapOrderBut (key : Idx → Freq) (h : List Idx) (p : Nat) (loose : Nat → Prop) : Prop where
  edges : ∀ q, 0 < q → ¬ loose q → slotWeight key h ((q - 1) / 2) ≤ slotWeight key h q
  around : ∀ q, 0 < p → (q - 1) / 2 = p → slotWeight key h ((p - 1) / 2) ≤ slotWeight key h q

/-- Only slot `p` may weigh less than its parent: what sift-up keeps (R146). -/
abbrev OrderedUpTo (key : Idx → Freq) (h : List Idx) (p : Nat) : Prop :=
  HeapOrderBut key h p fun q => q = p

/-- Only the children of slot `p` may weigh less than their parent: what sift-down keeps (R148). -/
abbrev OrderedDownTo (key : Idx → Freq) (h : List Idx) (p : Nat) : Prop :=
  HeapOrderBut key h p fun q => (q - 1) / 2 = p

/-! ### Sift-up -/

/-- A pass of sift-up moves the loose slot to the parent (R146). -/
theorem OrderedUpTo.swap (H : OrderedUpTo key h p) (hp : p < h.length) (h0 : 0 < p)
    (hlt : slotWeight key h p < slotWeight key h ((p - 1) / 2)) :
    OrderedUpTo key (swapSlots h p ((p - 1) / 2)) ((p - 1) / 2) := by
  have hw := slotWeight_swapSlots (key := key) hp (q := (p - 1) / 2) (by omega)
  constructor
  · intro q hq hne
    rw [hw, hw, if_neg hne]
    by_cases hqp : q = p
    · rw [hqp, if_pos rfl, if_pos rfl]
      exact hlt.le
    have hedge := H.edges q hq hqp
    rw [if_neg hqp]
    by_cases hsibling : (q - 1) / 2 = (p - 1) / 2
    · rw [if_pos hsibling]
      rw [hsibling] at hedge
      exact hlt.le.trans hedge
    rw [if_neg hsibling]
    by_cases hchild : (q - 1) / 2 = p
    · rw [if_pos hchild]
      exact H.around q h0 hchild
    · rwa [if_neg hchild]
  · intro q h0' hq
    have hup := H.edges ((p - 1) / 2) h0' (by omega)
    rw [hw, hw, if_neg (by omega), if_neg (by omega), if_neg (by omega)]
    split
    · exact hup
    · have hedge := H.edges q (by omega) ‹_›
      rw [hq] at hedge
      exact hup.trans hedge

/-- Sift-up from the one loose slot leaves the heap property (R146). -/
theorem siftUp_order {n : Nat} (H : OrderedUpTo key h p) (hn : p ≤ n) (hp : p < h.length) :
    Claims.HeapOrder key (siftUp key n p h) := by
  induction n generalizing p h with
  | zero => exact heapOrder_iff.2 fun q hq => H.edges q hq (by omega)
  | succ n ih =>
    rw [siftUp]
    split
    · exact heapOrder_iff.2 fun q hq => H.edges q hq (by omega)
    · next h0 =>
      simp only [slotLt_iff (key := key) (q := p) (show (p - 1) / 2 < h.length by omega)]
      split
      · next hlt =>
        exact ih (H.swap hp (by omega) hlt) (by omega) (by rw [swapSlots_length]; omega)
      · next hle =>
        refine heapOrder_iff.2 fun q hq => ?_
        by_cases hqp : q = p
        · subst hqp
          exact Nat.le_of_not_lt hle
        · exact H.edges q hq hqp

/-- A slot that is not smaller than its parent, a tie included, stays (R145, R146). -/
theorem siftUp_stay (hlt : slotLt key h p ((p - 1) / 2) = false) (n : Nat) :
    siftUp key n p h = h := by
  cases n with
  | zero => rfl
  | succ n => simp [siftUp, hlt]

/-- A new last slot is the one loose slot of a heap with the property (R146). -/
theorem orderedUpTo_append (H : Claims.HeapOrder key h) (i : Idx) :
    OrderedUpTo key (h ++ [i]) h.length := by
  have hold : ∀ q, q < h.length → slotWeight key (h ++ [i]) q = slotWeight key h q := fun q hq => by
    simp [slotWeight, List.getElem?_append_left hq]
  have hbeyond : ∀ q, h.length < q → slotWeight key (h ++ [i]) q = 2 ^ 40 := fun q hq =>
    slotWeight_of_le (by simpa using hq)
  constructor
  · intro q hq hne
    rcases Nat.lt_or_gt_of_ne hne with hl | hl
    · rw [hold q hl, hold _ (by omega)]
      exact heapOrder_iff.1 H q hq
    · rw [hbeyond q hl]
      exact slotWeight_le _ _ _
  · intro q h0 hq
    rw [hbeyond q (by omega)]
    exact slotWeight_le _ _ _

/-! ### Sift-down -/

/-- The choice of a pass of sift-down by weights: the left child when it is lighter than slot `p`, then
the right child when it is lighter than that (R148). -/
theorem siftChoice_eq (hp : p < h.length) : siftChoice key h p =
    if slotWeight key h (2 * p + 1) < slotWeight key h p then
      if slotWeight key h (2 * p + 2) < slotWeight key h (2 * p + 1) then 2 * p + 2 else 2 * p + 1
    else if slotWeight key h (2 * p + 2) < slotWeight key h p then 2 * p + 2 else p := by
  simp only [siftChoice, slotLt_iff hp]
  split
  · next hl => simp only [slotLt_iff (lt_length_of_slotWeight_lt hl)]
  · simp only [slotLt_iff hp]

/-- A pass of sift-down stays or chooses a lighter child, and no child is lighter than its choice
(R148). -/
theorem siftChoice_spec (hp : p < h.length) :
    (siftChoice key h p = p ∨ 0 < siftChoice key h p ∧ (siftChoice key h p - 1) / 2 = p ∧
      slotWeight key h (siftChoice key h p) < slotWeight key h p) ∧
    ∀ q, 0 < q → (q - 1) / 2 = p →
      slotWeight key h (siftChoice key h p) ≤ slotWeight key h q := by
  rw [siftChoice_eq hp]
  constructor
  · split_ifs <;> omega
  · intro q h0 hq
    obtain rfl | rfl : q = 2 * p + 1 ∨ q = 2 * p + 2 := by omega
    · split_ifs <;> omega
    · split_ifs <;> omega

/-- A pass of sift-down moves the loose place to a lightest child (R148). -/
theorem OrderedDownTo.swap {c : Nat} (H : OrderedDownTo key h p) (h0 : 0 < c) (hc : (c - 1) / 2 = p)
    (hlt : slotWeight key h c < slotWeight key h p)
    (hmin : ∀ q, 0 < q → (q - 1) / 2 = p → slotWeight key h c ≤ slotWeight key h q) :
    OrderedDownTo key (swapSlots h p c) c := by
  have hcl := lt_length_of_slotWeight_lt hlt
  have hw := slotWeight_swapSlots (key := key) (p := p) (by omega) hcl
  constructor
  · intro q hq hne
    rw [hw, hw, if_neg hne]
    by_cases hqc : q = c
    · rw [hqc, hc, if_pos rfl, if_pos rfl]
      exact hlt.le
    rw [if_neg hqc]
    by_cases hsibling : (q - 1) / 2 = p
    · rw [if_pos hsibling, if_neg (by omega)]
      exact hmin q hq hsibling
    rw [if_neg hsibling]
    by_cases hqp : q = p
    · rw [if_pos hqp, hqp]
      exact H.around c (by omega) hc
    · rw [if_neg hqp]
      exact H.edges q hq hsibling
  · intro q _ hq
    have hedge := H.edges q (by omega) (by omega)
    rw [hq] at hedge
    rwa [hw, hw, hc, if_neg (by omega), if_pos rfl, if_neg (by omega), if_neg (by omega)]

/-- Sift-down from the one loose place leaves the heap property (R148). -/
theorem siftDown_order {n : Nat} (H : OrderedDownTo key h p) (hn : h.length ≤ p + n)
    (hp : p < h.length) : Claims.HeapOrder key (siftDown key n p h) := by
  induction n generalizing p h with
  | zero => omega
  | succ n ih =>
    obtain ⟨hchoice, hmin⟩ := siftChoice_spec (key := key) hp
    rw [siftDown]
    split
    · next hstay =>
      rw [hstay] at hmin
      refine heapOrder_iff.2 fun q hq => ?_
      by_cases hqp : (q - 1) / 2 = p
      · rw [hqp]
        exact hmin q hq hqp
      · exact H.edges q hq hqp
    · next hmove =>
      obtain ⟨h0, hc, hlt⟩ := hchoice.resolve_left hmove
      have := lt_length_of_slotWeight_lt hlt
      exact ih (H.swap h0 hc hlt hmin) (by rw [swapSlots_length]; omega) (by rwa [swapSlots_length])

/-- Slot 0 stays where no child is smaller, a tie included (R148). -/
theorem siftChoice_stay {z : Idx} (hz : ∀ c ∈ h.take 2, ¬ key c < key z) :
    siftChoice key (z :: h) 0 = 0 := by
  rcases h with _ | ⟨l, _ | ⟨r, rest⟩⟩
  · simp [siftChoice, slotLt]
  · have hl := hz l (by simp)
    simp [siftChoice, slotLt, hl]
  · have hl := hz l (by simp)
    have hr := hz r (by simp)
    simp [siftChoice, slotLt, hl, hr]

/-- Sift-down leaves the slots above its own (R148). -/
theorem siftDown_getElem?_of_lt {n k : Nat} (hk : k < p) : (siftDown key n p h)[k]? = h[k]? := by
  induction n generalizing p h with
  | zero => rfl
  | succ n ih =>
    rw [siftDown]
    split
    · rfl
    · next hmove =>
      rcases Nat.lt_or_ge p h.length with hp | hp
      · obtain ⟨h0, hc, hlt⟩ := (siftChoice_spec (key := key) hp).1.resolve_left hmove
        rw [ih (by omega), getElem?_swapSlots h hp (lt_length_of_slotWeight_lt hlt),
          if_neg (by omega), if_neg (by omega)]
      · exact absurd (by simp [siftChoice, slotLt, hp]) hmove

/-- Where the first pass of sift-down moves, the slot it chooses comes to slot 0 (R148). -/
theorem siftDown_head {n c : Nat} (hc : siftChoice key h 0 = c) (h0 : c ≠ 0) (hl : c < h.length) :
    (siftDown key (n + 1) 0 h).head? = h[c]? := by
  rw [siftDown, hc, if_neg h0, List.head?_eq_getElem?, siftDown_getElem?_of_lt (by omega),
    getElem?_swapSlots h (by omega) hl, if_neg (by omega), if_pos rfl]

/-! ### Extraction -/

/-- Extraction puts the last slot into slot 0 and sifts it down (R147). -/
theorem heapExtractMin_concat (key : Idx → Freq) (m z : Idx) (h : List Idx) :
    heapExtractMin key (m :: (h ++ [z])) = some (m, siftDown key (h.length + 1) 0 (z :: h)) := by
  simp [heapExtractMin]

/-- With the last slot in slot 0, a heap with the property has its one loose place there (R147). -/
theorem orderedDownTo_last {m z : Idx} (H : Claims.HeapOrder key (m :: (h ++ [z]))) :
    OrderedDownTo key (z :: h) 0 := by
  have hold : ∀ q, 0 < q → q ≤ h.length →
      slotWeight key (z :: h) q = slotWeight key (m :: (h ++ [z])) q := by
    intro q h0 hq
    obtain ⟨k, rfl⟩ := Nat.exists_eq_succ_of_ne_zero h0.ne'
    simp [slotWeight, List.getElem?_append_left (Nat.lt_of_succ_le hq)]
  constructor
  · intro q h0 hne
    rcases Nat.lt_or_ge h.length q with hl | hl
    · rw [slotWeight_of_le (p := q) (by simpa using hl)]
      exact slotWeight_le _ _ _
    · rw [hold q h0 hl, hold _ (by omega) (by omega)]
      exact heapOrder_iff.1 H q h0
  · exact fun q h0 => absurd h0 (by omega)

/-- Extraction keeps the heap property (R147, R156). -/
theorem heapExtractMin_order {m : Idx} {rest h' : List Idx} (H : Claims.HeapOrder key (m :: rest))
    (hx : heapExtractMin key (m :: rest) = some (m, h')) : Claims.HeapOrder key h' := by
  rcases List.eq_nil_or_concat' rest with rfl | ⟨h, z, rfl⟩
  · cases hx
    exact fun p a b _ ha => by simp at ha
  · rw [heapExtractMin_concat] at hx
    cases hx
    exact siftDown_order (orderedDownTo_last H) (by simp) (by simp)

/-- The node in slot 0 of a heap with the property has a least key (R156). -/
theorem head_key_le {m : Idx} {rest : List Idx} (H : Claims.HeapOrder key (m :: rest)) {i : Idx}
    (hi : i ∈ m :: rest) : key m ≤ key i := by
  obtain ⟨q, hq⟩ := List.mem_iff_getElem?.1 hi
  have := slotWeight_zero_le H q
  rwa [slotWeight_of_getElem? hq, slotWeight_of_getElem? List.getElem?_cons_zero] at this

end Sys2Proof.Machine

open Sys2Proof Sys2Proof.Machine

/-- Settles O46: the new slot is the one that may weigh less than its parent, and sift-up moves that
place to the root; a tie ends it in its first pass. -/
theorem heapInsertKeepsOrder : Obligations.HeapInsertKeepsOrder := by
  refine fun key h i => ⟨fun H => ⟨?_, heapInsert_perm key h i⟩, fun q hq hi => ?_⟩
  · exact siftUp_order (orderedUpTo_append H i) le_rfl (by simp)
  · obtain ⟨hlen, -⟩ := List.getElem?_eq_some_iff.1 hq
    refine siftUp_stay ?_ h.length
    simp [slotLt, List.getElem?_append_left hlen, hq, hi]

/-- Settles O47: slot 0 is a lightest slot, and the last slot moved there is the one place that sift-down
moves to the leaves; its first pass decides what comes to slot 0. -/
theorem heapExtractReturnsALeastKey : Obligations.HeapExtractReturnsALeastKey := by
  refine fun key h => ⟨fun H hne => ?_, fun m z => ⟨fun hstay => ?_, ?_, ?_⟩⟩
  · obtain ⟨m, rest, rfl⟩ := List.exists_cons_of_ne_nil hne
    obtain ⟨h', hx, hp⟩ := heapExtractMin_cons key m rest
    exact ⟨m, h', hx, rfl, fun i => head_key_le H, heapExtractMin_order H hx, hp.symm.cons m⟩
  · rw [heapExtractMin_concat, siftDown, if_pos (siftChoice_stay hstay)]
  · rintro l r rest rfl hlz hrl
    refine ⟨_, heapExtractMin_concat key m z _, siftDown_head (c := 1) ?_ (by decide) (by simp)⟩
    simp [siftChoice, slotLt, hlz, hrl]
  · rintro l r rest rfl hrz hrl
    refine ⟨_, heapExtractMin_concat key m z _, siftDown_head (c := 2) ?_ (by decide) (by simp)⟩
    by_cases hlz : key l < key z
    · simp [siftChoice, slotLt, hlz, hrl]
    · simp [siftChoice, slotLt, hlz, hrz]
end

section
/-! SUPPORT. BUILD by its passes (R141, R142, R144): seeding as insertions of the leaves, the merge loop as
NUNIQ − 1 passes, and the example of R149. -/

namespace Sys2Proof.Machine

/-- Seeding adds the leaves one after the other (R142). -/
theorem seed_eq (freq : Vector Word 256) :
    seed freq = (seedLeaves freq).foldl Builder.add ⟨[], []⟩ := by
  rw [seedLeaves, List.foldl_map, uniqueSyms, List.foldl_filter, seed]
  congr 1
  funext b y
  simp [seedOne]

/-- Each merge pass lowers HEAP_N by one (R141). -/
theorem iterate_mergeOne_heap (b : Builder) {k : Nat} (hk : k < b.heap.length) :
    (mergeOne^[k] b).heap.length = b.heap.length - k := by
  induction k with
  | zero => rfl
  | succ k ih =>
    have hprev := ih (by omega)
    have := (mergeOne_length (b := mergeOne^[k] b) (by omega)).2
    rw [Function.iterate_succ_apply']
    omega

/-- The merge loop makes HEAP_N − 1 passes, when its bound allows them (R144). -/
theorem mergeLoop_eq_iterate (n : Nat) (b : Builder) (hn : b.heap.length ≤ n + 1) :
    mergeLoop n b = mergeOne^[b.heap.length - 1] b := by
  induction n generalizing b with
  | zero => rw [mergeLoop, Nat.sub_eq_zero_of_le hn, Function.iterate_zero_apply]
  | succ n ih =>
    rw [mergeLoop]
    split
    · next hb =>
      have hlen := (mergeOne_length hb).2
      rw [ih _ (by omega), ← Function.iterate_succ_apply]
      congr 2
      omega
    · next hb => rw [Nat.sub_eq_zero_of_le (by omega), Function.iterate_zero_apply]

/-- BUILD makes NUNIQ − 1 merge passes after seeding (R141). -/
theorem buildTree_eq_iterate (freq : Vector Word 256) :
    buildTree freq = mergeOne^[(uniqueSyms freq).length - 1] (seed freq) := by
  rw [buildTree, mergeLoop_eq_iterate _ _ (Nat.le_succ _), seed_heap_length]

/-! ### The example of R149 -/

/-- The counts of the example of R149. -/
def IsTieExample (freq : Vector Word 256) : Prop :=
  ∀ y, tableAt freq y = if y = 0x41 ∨ y = 0x42 ∨ y = 0x43 then 1 else 0

/-- Its three leaves, of weight 1 each. -/
theorem IsTieExample.seedLeaves_eq {freq : Vector Word 256} (h : IsTieExample freq) :
    seedLeaves freq = [.leaf 0x41 1, .leaf 0x42 1, .leaf 0x43 1] := by
  have hu : uniqueSyms freq = [0x41, 0x42, 0x43] := by
    simp only [uniqueSyms, h _]
    decide
  simp [seedLeaves, hu, h _]

/-- Equal keys never move past each other, so seeding queues them in order (R145). -/
theorem IsTieExample.seed_eq {freq : Vector Word 256} (h : IsTieExample freq) :
    seed freq = ⟨[.leaf 0x41 1, .leaf 0x42 1, .leaf 0x43 1], [0, 1, 2]⟩ := by
  rw [Machine.seed_eq, h.seedLeaves_eq]
  decide

/-- Two merges: nodes 0 and 2, then node 1 and their parent. -/
theorem IsTieExample.buildTree_eq {freq : Vector Word 256} (h : IsTieExample freq) :
    buildTree freq = ⟨[.leaf 0x41 1, .leaf 0x42 1, .leaf 0x43 1, .internal 0 2 2, .internal 1 3 3],
      [4]⟩ := by
  rw [buildTree, h.seed_eq]
  decide

end Sys2Proof.Machine

open Sys2Proof Sys2Proof.Machine

/-- Settles O22, from what the loops do pass by pass and the cases of BUILD's pseudocode. -/
theorem buildRule : Obligations.BuildRule := by
  refine ⟨commonChecks (i := .build) rfl nofun, seed_eq, fun b l r h₁ h₂ e₁ e₂ => ?_,
    fun s => ⟨buildTree_eq_iterate s.freq, fun k hk => ?_⟩, fun s ⟨he, ha⟩ => ?_⟩
  · simp only [mergeOne, e₁, e₂]
    rfl
  · rw [State.nuniq, ← seed_heap_length] at hk ⊢
    exact iterate_mergeOne_heap _ hk
  · have hx := exec_run (i := .build) nofun he ha
    obtain ⟨h0, e⟩ | ⟨h0, hne, -⟩ | ⟨h0, hn, hh, root, hr, e⟩ := buildBody_cases s
    · rw [hx, bodyOf, e, finish_raised]
      exact ⟨fun _ => rfl, fun h => absurd h0 h⟩
    · exact ⟨fun h => absurd h h0, fun _ hn hh => absurd ⟨hn, hh⟩ hne⟩
    · rw [hx, bodyOf, e, finish_ret]
      exact ⟨fun h => absurd h h0, fun _ _ _ => ⟨root, hr, rfl⟩⟩

/-- Settles O48: the counts fix the leaves that are seeded, and BUILD runs on those three. -/
theorem tieBreakExample : Obligations.TieBreakExample := by
  intro s hready hn hh (hf : IsTieExample s.freq)
  refine ⟨hf.seed_eq, by decide, by decide, ?_⟩
  have h0 : s.nuniq ≠ 0 := by
    rw [State.nuniq, ← length_seedLeaves, hf.seedLeaves_eq]
    decide
  obtain ⟨-, -, -, -, hbuild⟩ := buildRule
  obtain ⟨root, hr, hx⟩ := (hbuild s hready).2 h0 hn hh
  rw [hf.buildTree_eq] at hr hx
  cases hr
  refine ⟨_, hx, rfl, rfl, ?_⟩
  simp [genCodes, walk, tableAt_tablePut]
end

section
/-! SUPPORT. What the shape of a tree says of its codes (R173): a node has one path from the root, paths
get no longer than the internal nodes allow, and every bit sequence leads to a leaf. -/

namespace Sys2Proof.Machine

/-! ### Paths -/

/-- The last bit of a path is taken at an internal node. -/
theorem followPath_concat {nodes : List Node} {i j : Idx} {p : List Bool} {b : Bool}
    (h : followPath nodes i (p ++ [b]) = some j) : ∃ k l r f,
    followPath nodes i p = some k ∧ nodes[k.toNat]? = some (.internal l r f) ∧
      j = if b then r else l := by
  induction p generalizing i with
  | nil =>
    obtain ⟨l, r, f, hi, hj⟩ := followPath_cons h
    cases hj
    exact ⟨i, l, r, f, rfl, hi, rfl⟩
  | cons c p ih =>
    obtain ⟨l, r, f, hi, h⟩ := followPath_cons h
    rw [followPath_internal hi]
    exact ih h

theorem branch_mem_children (l r : Idx) (f : Freq) (b : Bool) :
    (if b then r else l) ∈ (Node.internal l r f).children := by
  cases b <;> simp [Node.children]

/-! ### Bit sequences -/

/-- The infinite bit sequence `b` begins with the bits `p`. -/
def BeginsWith (b : Nat → Bool) (p : List Bool) : Prop := ∀ k (h : k < p.length), p[k] = b k

theorem BeginsWith.cons {b : Nat → Bool} {p : List Bool} (h : BeginsWith (fun k => b (k + 1)) p) :
    BeginsWith b (b 0 :: p) := by
  rintro (_ | k) hk
  · rfl
  · exact h k (Nat.lt_of_succ_lt_succ hk)

/-- Of two beginnings of a sequence the longer one begins with the shorter one. -/
theorem BeginsWith.isPrefix {b : Nat → Bool} {p q : List Bool} (hp : BeginsWith b p)
    (hq : BeginsWith b q) (hl : p.length ≤ q.length) : p <+: q :=
  List.prefix_iff_getElem.2 ⟨hl, fun k hk => (hp k hk).trans (hq k (hk.trans_le hl)).symm⟩

namespace Forest

variable {freq : Vector Word 256} {nodes : List Node} {roots : List Idx} {root : Idx}

/-! ### Leaves -/

/-- A leaf has an index below NUNIQ, and its symbol is the unique symbol of that rank (R142). -/
theorem of_leaf (h : Forest freq nodes roots) {i : Nat} {y : Byte} {f : Freq}
    (hi : nodes[i]? = some (.leaf y f)) : ∃ hu : i < (uniqueSyms freq).length,
    (uniqueSyms freq)[i] = y := by
  by_cases hu : i < (uniqueSyms freq).length
  · rw [h.leaf_of_lt hu] at hi
    cases hi
    exact ⟨hu, rfl⟩
  · obtain ⟨l, r, g, e, -⟩ := h.internal i (by omega) (List.getElem?_eq_some_iff.1 hi).1
    rw [hi] at e
    cases e

/-- A symbol has one leaf. -/
theorem leaf_unique (h : Forest freq nodes roots) {i j : Idx} {y : Byte} {f g : Freq}
    (hi : nodes[i.toNat]? = some (.leaf y f)) (hj : nodes[j.toNat]? = some (.leaf y g)) : i = j := by
  obtain ⟨hu, e⟩ := h.of_leaf hi
  obtain ⟨hv, e'⟩ := h.of_leaf hj
  exact BitVec.eq_of_toNat_eq ((nodup_uniqueSyms freq).getElem_inj_iff.1 (e.trans e'.symm))

/-- An internal node has an index from NUNIQ on. -/
theorem unique_le_internal (h : Forest freq nodes roots) {i : Nat} {l r : Idx} {f : Freq}
    (hi : nodes[i]? = some (.internal l r f)) : (uniqueSyms freq).length ≤ i := by
  by_contra hu
  rw [h.leaf_of_lt (by omega)] at hi
  cases hi

/-! ### Parents -/

/-- No node is a child twice, and no root is a child (R48 (c)). -/
theorem parents_nodup (h : Forest freq nodes roots) :
    (childIndices nodes ++ roots.map BitVec.toNat).Nodup :=
  h.parents.nodup_iff.2 List.nodup_range

/-- Two nodes of the arena share no child. -/
theorem children_disjoint (h : Forest freq nodes roots) {i j : Nat} {m n : Node}
    (hi : nodes[i]? = some m) (hj : nodes[j]? = some n) (hij : i ≠ j) :
    List.Disjoint m.children n.children := by
  wlog hlt : i < j generalizing i j m n
  · exact (this hj hi hij.symm (by omega)).symm
  obtain ⟨hc, -, -⟩ := List.nodup_append.1 h.parents_nodup
  obtain ⟨-, hd⟩ := List.nodup_flatMap.1 (List.Nodup.of_map _ hc)
  obtain ⟨hil, rfl⟩ := List.getElem?_eq_some_iff.1 hi
  obtain ⟨hjl, rfl⟩ := List.getElem?_eq_some_iff.1 hj
  exact List.pairwise_iff_getElem.1 hd i j hil hjl hlt

/-- The two children of an internal node differ. -/
theorem left_ne_right (h : Forest freq nodes roots) {i : Nat} {l r : Idx} {f : Freq}
    (hi : nodes[i]? = some (.internal l r f)) : l ≠ r := by
  obtain ⟨hc, -, -⟩ := List.nodup_append.1 h.parents_nodup
  obtain ⟨hd, -⟩ := List.nodup_flatMap.1 (List.Nodup.of_map _ hc)
  simpa [Node.children] using hd _ (List.mem_of_getElem? hi)

/-- A child stands on one branch of one internal node. -/
theorem branch_unique (h : Forest freq nodes roots) {i j l r l' r' : Idx} {f f' : Freq} {b b' : Bool}
    (hi : nodes[i.toNat]? = some (.internal l r f)) (hj : nodes[j.toNat]? = some (.internal l' r' f'))
    (e : (if b then r else l) = if b' then r' else l') : i = j ∧ b = b' := by
  obtain rfl : i = j := by
    by_contra hij
    refine List.disjoint_left.1 (h.children_disjoint hi hj fun e => hij (BitVec.eq_of_toNat_eq e))
      (branch_mem_children l r f b) ?_
    rw [e]
    exact branch_mem_children l' r' f' b'
  rw [hi] at hj
  cases hj
  have hlr := h.left_ne_right hi
  refine ⟨rfl, ?_⟩
  cases b <;> cases b'
  · rfl
  · exact absurd e hlr
  · exact absurd e.symm hlr
  · rfl

/-- The root is nobody's child. -/
theorem root_ne_branch (h : Forest freq nodes [root]) {i l r : Idx} {f : Freq}
    (hi : nodes[i.toNat]? = some (.internal l r f)) (b : Bool) : (if b then r else l) ≠ root := by
  obtain ⟨-, -, hd⟩ := List.nodup_append.1 h.parents_nodup
  intro e
  exact hd _ (List.mem_map_of_mem (List.mem_flatMap.2
    ⟨_, List.mem_of_getElem? hi, branch_mem_children l r f b⟩)) _
    (List.mem_map_of_mem List.mem_cons_self) (congrArg _ e)

/-- A node has one path from the root: from its end back, parent by parent. -/
theorem path_unique (h : Forest freq nodes [root]) {p q : List Bool} {j : Idx}
    (hp : followPath nodes root p = some j) (hq : followPath nodes root q = some j) : p = q := by
  induction p using List.reverseRecOn generalizing q j with
  | nil =>
    obtain rfl | ⟨q, b, rfl⟩ := q.eq_nil_or_concat'
    · rfl
    · obtain ⟨k, l, r, f, -, hk, rfl⟩ := followPath_concat hq
      cases hp
      exact absurd rfl (h.root_ne_branch hk b)
  | append_singleton p a ih =>
    obtain ⟨k, l, r, f, hpk, hk, rfl⟩ := followPath_concat hp
    obtain rfl | ⟨q, b, rfl⟩ := q.eq_nil_or_concat'
    · cases hq
      exact absurd rfl (h.root_ne_branch hk a)
    · obtain ⟨k', l', r', f', hqk, hk', e⟩ := followPath_concat hq
      obtain ⟨rfl, rfl⟩ := h.branch_unique hk hk' e
      rw [ih hpk hqk]

/-! ### Lengths and ends of paths -/

/-- A child has a smaller index than its parent (R154). -/
theorem branch_lt (h : Forest freq nodes roots) {i l r : Idx} {f : Freq}
    (hi : nodes[i.toNat]? = some (.internal l r f)) (b : Bool) :
    (if b then r else l).toNat < i.toNat := by
  obtain ⟨hl, hr⟩ := h.of_internal hi
  cases b
  · exact hl
  · exact hr

/-- A path takes each bit at an internal node, with ever smaller indices (R154). -/
theorem path_length_le (h : Forest freq nodes roots) {q : List Bool} {i j : Idx}
    (hq : followPath nodes i q = some j) : q.length ≤ i.toNat + 1 - (uniqueSyms freq).length := by
  induction q generalizing i with
  | nil => exact Nat.zero_le _
  | cons b q ih =>
    obtain ⟨l, r, f, hi, hq⟩ := followPath_cons hq
    have hlen := ih hq
    have hlt := h.branch_lt hi b
    have hu := h.unique_le_internal hi
    rw [List.length_cons]
    omega

/-- Every bit sequence leads from every node to a leaf. -/
theorem reaches_leaf (h : Forest freq nodes roots) (b : Nat → Bool) {i : Idx}
    (hi : i.toNat < nodes.length) : ∃ q j y f, BeginsWith b q ∧ followPath nodes i q = some j ∧
      nodes[j.toNat]? = some (.leaf y f) := by
  induction hn : i.toNat using Nat.strongRecOn generalizing i b with
  | ind n ih =>
    rcases hnode : nodes[i.toNat]? with _ | ⟨y, f⟩ | ⟨l, r, f⟩
    · rw [List.getElem?_eq_none_iff] at hnode
      omega
    · exact ⟨[], i, y, f, nofun, rfl, hnode⟩
    · have hlt := h.branch_lt hnode (b 0)
      obtain ⟨q, j, y, g, hb, hq, hj⟩ := ih _ (hn ▸ hlt) (fun k => b (k + 1)) (hlt.trans hi) rfl
      exact ⟨b 0 :: q, j, y, g, hb.cons, by rw [followPath_internal hnode, hq], hj⟩

end Forest

/-! ### The codes of phase TREE -/

namespace State.IsTree

variable {s : State}

/-- No code begins with another: its path would lead on from a leaf (R173 (b)). -/
theorem prefixFree (h : s.IsTree) {y z : Byte} (hy : tableAt s.code y ≠ [])
    (hz : tableAt s.code z ≠ []) (hp : tableAt s.code y <+: tableAt s.code z) : y = z := by
  obtain h1 | h2 : s.nuniq = 1 ∨ 2 ≤ s.nuniq := by have := h.nonempty; omega
  · obtain ⟨x, hx⟩ := List.length_eq_one_iff.1 h1
    have honly : ∀ w, tableAt s.code w ≠ [] → w = x := fun w hw => by
      simpa [hx] using (mem_uniqueSyms s.freq w).2 ((h.coded w).1 hw)
    rw [honly y hy, honly z hz]
  · obtain ⟨i, f, hi, hleaf⟩ := h.paths h2 y hy
    obtain ⟨j, g, hj, hleaf'⟩ := h.paths h2 z hz
    obtain ⟨q, hq⟩ := hp
    rw [← hq, followPath_append hi] at hj
    obtain ⟨-, rfl⟩ := followPath_leaf hleaf hj
    rw [hleaf] at hleaf'
    cases hleaf'
    rfl

/-- Codes that one bit sequence begins with are codes of one symbol. -/
theorem code_begins_unique (h : s.IsTree) {b : Nat → Bool} {y z : Byte}
    (hy : tableAt s.code y ≠ []) (hz : tableAt s.code z ≠ []) (hby : BeginsWith b (tableAt s.code y))
    (hbz : BeginsWith b (tableAt s.code z)) : z = y := by
  obtain hl | hl := Nat.le_total (tableAt s.code z).length (tableAt s.code y).length
  · exact h.prefixFree hz hy (hbz.isPrefix hby hl)
  · exact (h.prefixFree hy hz (hby.isPrefix hbz hl)).symm

/-- The path to a symbol's leaf is its code (R171). -/
theorem code_eq_path (h : s.IsTree) (h2 : 2 ≤ s.nuniq) {q : List Bool} {j : Idx} {y : Byte} {f : Freq}
    (hq : followPath s.nodes s.root q = some j) (hj : s.nodes[j.toNat]? = some (.leaf y f)) :
    tableAt s.code y ≠ [] ∧ tableAt s.code y = q := by
  have hy : tableAt s.code y ≠ [] :=
    (h.coded y).2 ((h.forest.exists_leaf_iff y).1 ⟨j.toNat, f, hj⟩)
  obtain ⟨i, g, hi, hleaf⟩ := h.paths h2 y hy
  obtain rfl := h.forest.leaf_unique hleaf hj
  exact ⟨hy, h.forest.path_unique hi hq⟩

/-- Every bit sequence begins with a code (R173 (d)). -/
theorem exists_code_begins (h : s.IsTree) (h2 : 2 ≤ s.nuniq) (b : Nat → Bool) :
    ∃ y, tableAt s.code y ≠ [] ∧ BeginsWith b (tableAt s.code y) := by
  obtain ⟨q, j, y, f, hb, hq, hj⟩ := h.forest.reaches_leaf b (h.forest.root_lt List.mem_cons_self)
  obtain ⟨hy, rfl⟩ := h.code_eq_path h2 hq hj
  exact ⟨y, hy, hb⟩

/-- No code is longer than NUNIQ − 1, the number of internal nodes (R173 (e)). -/
theorem code_length_le (h : s.IsTree) (h2 : 2 ≤ s.nuniq) (y : Byte) :
    (tableAt s.code y).length ≤ s.nuniq - 1 := by
  by_cases hy : tableAt s.code y = []
  · simp [hy]
  · obtain ⟨i, f, hi, -⟩ := h.paths h2 y hy
    have hlen : _ ≤ s.root.toNat + 1 - s.nuniq := h.forest.path_length_le hi
    have hroot := h.root
    have hsize := h.size
    omega

end State.IsTree

end Sys2Proof.Machine

open Sys2Proof Sys2Proof.Machine

/-- Settles O51: a path leads on from no leaf. -/
theorem codesArePrefixFree : Obligations.CodesArePrefixFree :=
  fun _ hs hp _ _ hy hz => (hs.tree hp).prefixFree hy hz

/-- Settles O52: following the bits from the root ends at a leaf, and the one path to that leaf is its
symbol's code. -/
theorem codesAreCompleteAndBounded : Obligations.CodesAreCompleteAndBounded := by
  intro s hs hp h2
  have ht := hs.tree hp
  refine ⟨fun b => ?_, fun y => ⟨ht.code_length_le h2 y, by have := nuniq_le s; omega⟩⟩
  obtain ⟨y, hy, hb⟩ := ht.exists_code_begins h2 b
  exact ⟨y, hy, hb, fun z hz hbz => ht.code_begins_unique hy hz hb hbz⟩
end

section
/-! SUPPORT. RD_CODELEN and RD_CODEBITS (R175, R176): the bits of a chunk of a code. -/

namespace Sys2Proof.Machine

/-- Writing `g 0`, `g 1`, … from bit 31 down leaves them there (R176). -/
theorem getLsbD_foldl_assignBit (g : Nat → Bool) {n j : Nat} (hn : n ≤ 32) (hj : j < 32) :
    ((List.range n).foldl (fun v k => assignBit v (31 - k) (g k)) (0 : Word)).getLsbD (31 - j) =
      if j < n then g j else false := by
  induction n with
  | zero => simp
  | succ n ih =>
    rw [List.range_succ, List.foldl_append, List.foldl_cons, List.foldl_nil,
      getLsbD_assignBit _ _ _ _ (by omega), ih (by omega)]
    obtain rfl | hne := eq_or_ne j n
    · simp
    · rw [if_neg (by omega)]
      exact if_congr (by omega) rfl rfl

/-- Bit 31 − j of a chunk is its code bit `j`, 0 beyond the code's end (R176). -/
theorem getLsbD_codeChunk (code : List Bool) (c : BitVec 3) {j : Nat} (hj : j < 32) :
    (codeChunk code c).getLsbD (31 - j) = code.getD (32 * c.toNat + j) false := by
  rw [codeChunk, getLsbD_foldl_assignBit (fun k => code.getD (32 * c.toNat + k) false) le_rfl hj,
    if_pos hj]

end Sys2Proof.Machine

open Sys2Proof Sys2Proof.Machine

/-- Settles O25: the checks of R275, then the length or a chunk of the code, bit by bit. -/
theorem rdCodeLenAndRdCodeBitsRules : Obligations.RdCodeLenAndRdCodeBitsRules := by
  refine fun y c => ⟨commonChecks_or (i := .rdCodeLen y) 0x22 rfl (by decide) rfl nofun, ?_,
    fun s he => ⟨?_, codeChunk (tableAt s.code y) c, ?_, fun j hj => getLsbD_codeChunk _ c hj⟩⟩
  · rw [BitVec.or_assoc]
    exact commonChecks_or (i := .rdCodeBits y c) 0x23 rfl (by decide) rfl nofun
  · rw [exec_run (i := .rdCodeLen y) nofun he rfl, bodyOf, finish_ret]
  · rw [exec_run (i := .rdCodeBits y c) nofun he rfl, bodyOf, finish_ret]
end

section
/-! SUPPORT. The bit engines (R185 to R194): the bytes a bit sequence is packed into, what successive
GET_BITs have read, and what the writer and reader commands leave alone. -/

namespace Sys2Proof.Machine

/-! ### Command sequences -/

/-- A command sequence that goes through hands its last state to what follows it. -/
theorem execAll_append {is : List Instr} {s t : State} (h : execAll is s = .next t) (js : List Instr) :
    execAll (is ++ js) s = execAll js t := by
  induction is generalizing s with
  | nil => cases h; rfl
  | cons i is ih =>
    rw [execAll] at h
    rw [List.cons_append, execAll]
    cases hi : exec i s with
    | next u => rw [hi] at h; exact ih h
    | fault f => rw [hi] at h; cases h
    | refused r => rw [hi] at h; cases h

/-- One more command at the end of a sequence that goes through. -/
theorem execAll_concat {is : List Instr} {i : Instr} {s t u : State} (h : execAll is s = .next t)
    (hi : exec i t = .next u) : execAll (is ++ [i]) s = .next u := by
  rw [execAll_append h, execAll, hi]
  rfl

/-! ### Writer -/

theorem exec_putBit {s : State} (he : s.err = .ok) (b : Bool) :
    exec (.putBit b) s = .next { putBit b s with res := 0 } := by
  rw [exec_run (i := .putBit b) nofun he rfl, bodyOf, finish_ret]

theorem exec_flush {s : State} (he : s.err = .ok) :
    exec .flush s = .next { flushWriter s with res := 0 } := by
  rw [exec_run (i := .flush) nofun he rfl, bodyOf, finish_ret]

/-- A put before the eighth bit (R187). -/
theorem putBit_before_eighth {s : State} (h : s.wcnt ≠ 7#3) (b : Bool) :
    putBit b s = { s with wacc := assignBit s.wacc (7 - s.wcnt.toNat) b, wcnt := s.wcnt + 1 } :=
  if_neg h

/-- The put of the eighth bit appends the byte (R187). -/
theorem putBit_eighth {s : State} (h : s.wcnt = 7#3) (b : Bool) :
    putBit b s = { snkAppend (assignBit s.wacc (7 - s.wcnt.toNat) b) s with wacc := 0, wcnt := 0 } :=
  if_pos h

theorem flushWriter_empty {s : State} (h : s.wcnt = 0) : flushWriter s = s := if_pos h

/-- A flush with bits pending appends WACC (R189). -/
theorem flushWriter_pending {s : State} (h : s.wcnt ≠ 0) :
    flushWriter s = { snkAppend s.wacc s with wacc := 0, wcnt := 0 } := if_neg h

/-- Byte `j` of a bit sequence: bits 8j, 8j + 1, … from bit 7 down, 0 beyond the last one (R190). -/
def packedByte (bits : List Bool) (j : Nat) : Byte :=
  BitVec.ofFnLE fun k : Fin 8 => bits.getD (8 * j + (7 - k.val)) false

theorem getLsbD_packedByte (bits : List Bool) (j : Nat) {k : Nat} (hk : k < 8) :
    (packedByte bits j).getLsbD k = bits.getD (8 * j + (7 - k)) false := by
  simp [packedByte, hk]

/-- A byte beyond the end of the sequence is 0. -/
theorem packedByte_beyond {bits : List Bool} {j : Nat} (h : bits.length ≤ 8 * j) :
    packedByte bits j = 0 := by
  refine BitVec.eq_of_getLsbD_eq fun k hk => ?_
  rw [getLsbD_packedByte _ _ hk, List.getD_eq_default _ _ (by omega)]
  exact BitVec.getLsbD_zero.symm

/-- A complete byte does not depend on the bits that follow. -/
theorem packedByte_append {bits : List Bool} {j : Nat} (h : 8 * (j + 1) ≤ bits.length)
    (more : List Bool) : packedByte (bits ++ more) j = packedByte bits j := by
  refine BitVec.eq_of_getLsbD_eq fun k hk => ?_
  rw [getLsbD_packedByte _ _ hk, getLsbD_packedByte _ _ hk, List.getD_append _ _ _ _ (by omega)]

/-- The complete bytes stay when a bit is added. -/
theorem map_packedByte_concat (bits : List Bool) (b : Bool) :
    (List.range (bits.length / 8)).map (packedByte (bits ++ [b])) =
      (List.range (bits.length / 8)).map (packedByte bits) :=
  List.map_congr_left fun j hj => packedByte_append (by have := List.mem_range.1 hj; omega) [b]

/-- One more bit goes to its place in the last byte (R187, R190). -/
theorem packedByte_concat (bits : List Bool) (b : Bool) :
    packedByte (bits ++ [b]) (bits.length / 8) =
      assignBit (packedByte bits (bits.length / 8)) (7 - bits.length % 8) b := by
  refine BitVec.eq_of_getLsbD_eq fun k hk => ?_
  rw [getLsbD_assignBit _ _ _ _ (by omega), getLsbD_packedByte _ _ hk, getLsbD_packedByte _ _ hk]
  obtain hlt | heq | hgt := lt_trichotomy (8 * (bits.length / 8) + (7 - k)) bits.length
  · rw [if_neg (by omega), List.getD_append _ _ _ _ hlt]
  · rw [if_pos (by omega), heq, List.getD_append_right _ _ _ _ le_rfl, Nat.sub_self]
    rfl
  · rw [if_neg (by omega), List.getD_eq_default _ _ (by simp; omega),
      List.getD_eq_default _ _ hgt.le]

/-- The writer has taken `bits` since the sink held `out`: the complete bytes are in the sink, the bits
that are left are in WACC, from bit 7 down (R187). -/
structure HasWritten (out : List Byte) (bits : List Bool) (t : State) : Prop where
  err : t.err = .ok
  wcnt : t.wcnt.toNat = bits.length % 8
  wacc : t.wacc = packedByte bits (bits.length / 8)
  snk : t.snk = out ++ (List.range (bits.length / 8)).map (packedByte bits)

/-- An empty writer has taken no bit. -/
theorem HasWritten.nil {s : State} (he : s.err = .ok) (hw : s.WriterInv) (hn : s.wcnt = 0) :
    HasWritten s.snk [] s where
  err := he
  wcnt := by rw [hn]; rfl
  wacc := by
    rw [packedByte_beyond (Nat.zero_le _)]
    refine BitVec.eq_of_getLsbD_eq fun k hk => (hw k ?_).trans BitVec.getLsbD_zero.symm
    rw [hn]
    exact hk
  snk := (List.append_nil _).symm

/-- A PUT_BIT adds its bit (R187, R188). -/
theorem HasWritten.concat {out : List Byte} {bits : List Bool} {t : State}
    (h : HasWritten out bits t) (b : Bool) :
    HasWritten out (bits ++ [b]) { putBit b t with res := 0 } := by
  have hbyte : assignBit t.wacc (7 - t.wcnt.toNat) b = packedByte (bits ++ [b]) (bits.length / 8) := by
    rw [packedByte_concat, h.wacc, h.wcnt]
  have hlen : (bits ++ [b]).length = bits.length + 1 := List.length_append
  have hcnt := h.wcnt
  by_cases h7 : t.wcnt = 7#3
  · have hmod : bits.length % 8 = 7 := by rw [← hcnt, h7]; rfl
    have hdiv : (bits ++ [b]).length / 8 = bits.length / 8 + 1 := by omega
    rw [putBit_eighth h7, hbyte]
    refine ⟨h.err, ?_, ?_, ?_⟩
    · show 0 = _
      omega
    · exact (packedByte_beyond (by omega)).symm
    · rw [hdiv, List.range_succ, List.map_append, map_packedByte_concat, ← List.append_assoc, ← h.snk]
      rfl
  · have hne : t.wcnt.toNat ≠ 7 := fun e => h7 (BitVec.eq_of_toNat_eq e)
    have hdiv : (bits ++ [b]).length / 8 = bits.length / 8 := by omega
    rw [putBit_before_eighth h7, hbyte]
    refine ⟨h.err, ?_, ?_, ?_⟩
    · show (t.wcnt + 1#3).toNat = _
      rw [BitVec.toNat_add_of_lt (by show t.wcnt.toNat + 1 < 8; omega)]
      show t.wcnt.toNat + 1 = _
      omega
    · rw [hdiv]
    · rw [hdiv, map_packedByte_concat]
      exact h.snk

/-- PUT_BITs from an empty writer (R190). -/
theorem execAll_putBit {s : State} (he : s.err = .ok) (hw : s.WriterInv) (hn : s.wcnt = 0)
    (bits : List Bool) :
    ∃ t, execAll (bits.map .putBit) s = .next t ∧ HasWritten s.snk bits t := by
  induction bits using List.reverseRecOn with
  | nil => exact ⟨s, rfl, .nil he hw hn⟩
  | append_singleton bits b ih =>
    obtain ⟨t, ht, h⟩ := ih
    rw [List.map_append]
    exact ⟨_, execAll_concat ht (exec_putBit h.err b), h.concat b⟩

/-- A flush completes the packed bytes (R189, R190). -/
theorem HasWritten.flush {out : List Byte} {bits : List Bool} {t : State}
    (h : HasWritten out bits t) :
    (flushWriter t).snk = out ++ (List.range ((bits.length + 7) / 8)).map (packedByte bits) := by
  have hcnt := h.wcnt
  by_cases h0 : t.wcnt = 0
  · have hmod : bits.length % 8 = 0 := by rw [← hcnt, h0]; rfl
    have hdiv : (bits.length + 7) / 8 = bits.length / 8 := by omega
    rw [flushWriter_empty h0, h.snk, hdiv]
  · have hne : t.wcnt.toNat ≠ 0 := fun e => h0 (BitVec.eq_of_toNat_eq e)
    have hdiv : (bits.length + 7) / 8 = bits.length / 8 + 1 := by omega
    rw [flushWriter_pending h0, hdiv, List.range_succ, List.map_append, ← List.append_assoc, ← h.snk,
      h.wacc]
    rfl

/-! ### Reader -/

theorem exec_getBit {s : State} (he : s.err = .ok) :
    exec .getBit s = .next { (getBit s).2 with res := bitResult (getBit s).1 } := by
  rw [exec_run (i := .getBit) nofun he rfl, bodyOf, finish_ret]

/-- Bit `i` of a byte sequence is in byte i / 8, counted from its bit 7 down (R66, R194). -/
theorem getElem?_flatMap_byteBits (l : List Byte) (i : Nat) :
    (l.flatMap byteBits)[i]? = l[i / 8]?.map fun v => v.getLsbD (7 - i % 8) := by
  induction l generalizing i with
  | nil => rfl
  | cons v l ih =>
    rw [List.flatMap_cons]
    by_cases hi : i < 8
    · rw [List.getElem?_append_left (by rwa [byteBits_length]), Nat.div_eq_of_lt hi,
        Nat.mod_eq_of_lt hi]
      simp [byteBits, hi]
    · rw [List.getElem?_append_right (by rw [byteBits_length]; omega), byteBits_length, ih,
        show i / 8 = (i - 8) / 8 + 1 by omega, show i % 8 = (i - 8) % 8 by omega,
        List.getElem?_cons_succ]

/-- A fresh reader has delivered `i` bits of `src`: it has pulled the bytes of these bits and none
ahead, and it holds what is left of the last one (R192, R194). Past the end of `src` it holds
nothing. -/
structure HasRead (src : List Byte) (i : Nat) (t : State) : Prop where
  err : t.err = .ok
  pulled : t.src = src.drop ((i + 7) / 8)
  rcnt : t.rcnt.val = 8 * min src.length ((i + 7) / 8) - i
  bits : readerBits t = (src.flatMap byteBits).drop i

theorem HasRead.zero {s : State} (he : s.err = .ok) (hr : s.rcnt = 0) (hs : s.reos = false) :
    HasRead s.src 0 s where
  err := he
  pulled := rfl
  rcnt := by simp [hr]
  bits := by simp [readerBits, bufferedBits, hr, hs]

/-- The next bit is bit `i`. -/
theorem HasRead.getBit_fst {src : List Byte} {i : Nat} {t : State} (h : HasRead src i t) :
    (getBit t).1 = src[i / 8]?.map fun v => v.getLsbD (7 - i % 8) := by
  rw [(getBit_readerBits t).1, h.bits, List.head?_drop, getElem?_flatMap_byteBits]

/-- At a latched end of stream every bit has been delivered. -/
theorem HasRead.length_le_of_latched {src : List Byte} {i : Nat} {t : State} (h : HasRead src i t)
    (hr : t.rcnt = 0) (he : t.reos = true) : src.length ≤ i / 8 := by
  have hnone := h.getBit_fst
  rw [getBit_latched hr he] at hnone
  simpa using hnone.symm

/-- A GET_BIT reads one bit more, by the four cases of R192. -/
theorem HasRead.succ {src : List Byte} {i : Nat} {t : State} (h : HasRead src i t) (v : Word) :
    HasRead src (i + 1) { (getBit t).2 with res := v } := by
  have hcnt := h.rcnt
  have hsrc := h.pulled
  suffices hmoved : (getBit t).2.src = src.drop ((i + 1 + 7) / 8) ∧
      (getBit t).2.rcnt.val = 8 * min src.length ((i + 1 + 7) / 8) - (i + 1) by
    refine ⟨by simpa using h.err, hmoved.1, hmoved.2, ?_⟩
    rw [← List.tail_drop, ← h.bits]
    exact (getBit_readerBits t).2
  by_cases hr : t.rcnt = 0
  · have hr0 : t.rcnt.val = 0 := congrArg Fin.val hr
    cases he : t.reos with
    | true =>
      have hall := h.length_le_of_latched hr he
      rw [getBit_latched hr he, hsrc, hr0]
      exact ⟨by rw [List.drop_of_length_le (by omega), List.drop_of_length_le (by omega)], by omega⟩
    | false =>
      cases hs : t.src with
      | nil =>
        have hall : src.length ≤ (i + 7) / 8 := List.drop_eq_nil_iff.1 (hsrc.symm.trans hs)
        rw [getBit_eos hr he hs]
        exact ⟨by rw [List.drop_of_length_le (by omega)]; exact hs, by show t.rcnt.val = _; omega⟩
      | cons b rest =>
        have hcons : src.drop ((i + 7) / 8) = b :: rest := hsrc.symm.trans hs
        have hlt : (i + 7) / 8 < src.length := by
          by_contra hle
          rw [List.drop_of_length_le (by omega)] at hcons
          cases hcons
        have hnext : (i + 1 + 7) / 8 = (i + 7) / 8 + 1 := by omega
        rw [getBit_pull hr he hs, hnext, ← List.tail_drop, hcons]
        exact ⟨rfl, by show 7 = _; omega⟩
  · have hpos : t.rcnt.val ≠ 0 := fun e => hr (Fin.ext e)
    have hsame : (i + 1 + 7) / 8 = (i + 7) / 8 := by omega
    rw [getBit_buffered hr, hsame]
    exact ⟨hsrc, by show t.rcnt.val - 1 = _; omega⟩

/-- GET_BITs on a fresh reader (R194). -/
theorem execAll_getBit {s : State} (he : s.err = .ok) (hr : s.rcnt = 0) (hs : s.reos = false)
    (i : Nat) : ∃ t, execAll (List.replicate i .getBit) s = .next t ∧ HasRead s.src i t := by
  induction i with
  | zero => exact ⟨s, rfl, .zero he hr hs⟩
  | succ i ih =>
    obtain ⟨t, ht, h⟩ := ih
    rw [List.replicate_succ']
    exact ⟨_, execAll_concat ht (exec_getBit h.err), h.succ _⟩

/-! ### Frames -/

/-- Only the writer and the sink differ (R185). -/
def SameButWriter (s u : State) : Prop :=
  u = { s with wacc := u.wacc, wcnt := u.wcnt, snk := u.snk, snkCount := u.snkCount }

/-- Only the writer, the sink and the source differ: all that ENC_RUN can do before its end (R213). -/
def SameButWriterAndSource (s u : State) : Prop :=
  u = { s with wacc := u.wacc, wcnt := u.wcnt, snk := u.snk, snkCount := u.snkCount, src := u.src,
               srcCount := u.srcCount }

/-- Only the reader and the source differ (R185). -/
def SameButReader (s u : State) : Prop :=
  u = { s with rbuf := u.rbuf, rcnt := u.rcnt, reos := u.reos, src := u.src, srcCount := u.srcCount }

/-- Only the reader, the source, the sink and REMAIN differ: all that DEC_RUN can do before its end
(R218). -/
def SameButReaderSinkAndRemain (s u : State) : Prop :=
  u = { s with rbuf := u.rbuf, rcnt := u.rcnt, reos := u.reos, src := u.src, srcCount := u.srcCount,
               snk := u.snk, snkCount := u.snkCount, remain := u.remain }

theorem sameButWriter_putBits (bs : List Bool) (s : State) : SameButWriter s (putBits bs s) := by
  obtain ⟨a, n, k, h⟩ := putBits_form bs s
  rw [h]
  rfl

theorem ReaderMoved.sameButReader {s u : State} (h : ReaderMoved s u) : SameButReader s u := by
  obtain ⟨b, n, e, p, r, -, rfl⟩ := h
  rfl

theorem Decoded.sameBut {s u : State} (h : Decoded s u) : SameButReaderSinkAndRemain s u := by
  obtain ⟨ys, b, n, e, p, r, -, rfl⟩ := h
  rfl

theorem wrInit_frame (s : State) : (bodyOf .wrInit s).Ends (SameButWriter s) := rfl

theorem putBit_frame (b : Bool) (s : State) : (bodyOf (.putBit b) s).Ends (SameButWriter s) :=
  sameButWriter_putBits [b] s

theorem putSym_frame (y : Byte) (s : State) : (bodyOf (.putSym y) s).Ends (SameButWriter s) := by
  rw [bodyOf]
  by_cases hy : tableAt s.code y = []
  · rw [putSym_noCode hy]
    rfl
  · rw [putSym_ok hy]
    exact sameButWriter_putBits _ s

theorem flush_frame (s : State) : (bodyOf .flush s).Ends (SameButWriter s) := by
  obtain ⟨a, n, k, h⟩ := flushWriter_form s
  rw [bodyOf, h]
  rfl

theorem encRun_frame (s : State) : (bodyOf .encRun s).Ends (SameButWriterAndSource s) := by
  obtain ⟨a, n, k, p, r, -, e | e⟩ := encLoop_form s.src s rfl <;> rw [bodyOf, e] <;> rfl

theorem rdInit_frame (s : State) : (bodyOf .rdInit s).Ends (SameButReader s) := rfl

theorem getBit_frame (s : State) : (bodyOf .getBit s).Ends (SameButReader s) :=
  (readerMoved_getBit s).sameButReader

theorem decSym_frame (s : State) : (bodyOf .decSym s).Ends (SameButReader s) := by
  obtain ⟨y, u, e, m⟩ | ⟨u, e | e, m⟩ | e := decSym_ends s <;> rw [bodyOf, e]
  · exact m.sameButReader
  · exact m.sameButReader
  · exact m.sameButReader
  · exact Res.ends_stuck _ _

theorem decRun_frame (s : State) : (bodyOf .decRun s).Ends (SameButReaderSinkAndRemain s) := by
  obtain ⟨u, m, e | e | e⟩ | e := decLoop_ends s.remain.toNat s <;> rw [bodyOf, e]
  · exact m.sameBut
  · exact m.sameBut
  · exact m.sameBut
  · exact Res.ends_stuck _ _

/-- What a command leaves alone whose body changes only the writer and the sink (R185). -/
theorem exec_sameButWriter {i : Instr} {s t : State} (h : exec i s = .next t)
    (hb : (bodyOf i s).Ends (SameButWriter s)) (hi : i ≠ .reset) : t =
      { s with wacc := t.wacc, wcnt := t.wcnt, snk := t.snk, snkCount := t.snkCount, res := t.res,
               err := t.err } := by
  obtain ⟨u, v, e, hu, rfl⟩ := exec_ends h hb hi rfl
  rw [hu]

/-- What a command leaves alone whose body changes only the reader and the source (R185). -/
theorem exec_sameButReader {i : Instr} {s t : State} (h : exec i s = .next t)
    (hb : (bodyOf i s).Ends (SameButReader s)) (hi : i ≠ .reset) : t =
      { s with rbuf := t.rbuf, rcnt := t.rcnt, reos := t.reos, src := t.src, srcCount := t.srcCount,
               res := t.res, err := t.err } := by
  obtain ⟨u, v, e, hu, rfl⟩ := exec_ends h hb hi rfl
  rw [hu]

end Sys2Proof.Machine

open Sys2Proof Sys2Proof.Machine

/-- Settles O36, from what each of the bodies leaves alone. -/
theorem bitEnginesFrame : Obligations.BitEnginesFrame := by
  intro i s t h
  refine ⟨?_, ?_, ?_, ?_⟩
  · rintro (rfl | rfl | ⟨b, rfl⟩ | ⟨y, rfl⟩)
    · exact exec_sameButWriter h (wrInit_frame s) nofun
    · exact exec_sameButWriter h (flush_frame s) nofun
    · exact exec_sameButWriter h (putBit_frame b s) nofun
    · exact exec_sameButWriter h (putSym_frame y s) nofun
  · rintro rfl
    obtain ⟨u, v, e, hu, rfl⟩ := exec_ends h (encRun_frame s) nofun rfl
    rw [hu]
  · rintro (rfl | rfl | rfl)
    · exact exec_sameButReader h (rdInit_frame s) nofun
    · exact exec_sameButReader h (getBit_frame s) nofun
    · exact exec_sameButReader h (decSym_frame s) nofun
  · rintro rfl
    obtain ⟨u, v, e, hu, rfl⟩ := exec_ends h (decRun_frame s) nofun rfl
    rw [hu]

/-- Settles O53: each PUT_BIT puts its bit into the packed bytes, and FLUSH appends the last of them. -/
theorem writerLaw : Obligations.WriterLaw := by
  intro s bits he hw hn
  obtain ⟨t, ht, h⟩ := execAll_putBit he hw hn bits
  refine ⟨t, _, (List.range ((bits.length + 7) / 8)).map (packedByte bits), ht, exec_flush h.err,
    h.flush, by simp, fun j k hj hk => ?_, ?_, h.wcnt⟩
  · rw [List.getElem_map, List.getElem_range, getLsbD_packedByte _ _ (by omega),
      Nat.sub_sub_self (by omega)]
  · rw [← List.map_take, List.take_range, Nat.min_eq_left (by omega)]
    exact h.snk

/-- Settles O54: each GET_BIT delivers the next of the source's bits and pulls a byte only for the first
of its eight. -/
theorem readerLaw : Obligations.ReaderLaw := by
  intro s i he hr hs
  obtain ⟨t, ht, h⟩ := execAll_getBit he hr hs i
  have hnext := h.succ (bitResult (getBit t).1)
  rw [List.replicate_succ']
  refine ⟨_, execAll_concat ht (exec_getBit h.err), fun hi => ⟨hnext.pulled, ?_⟩,
    fun hi => ⟨?_, ?_⟩⟩
  · show bitResult (getBit t).1 = _
    rw [h.getBit_fst, List.getElem?_eq_getElem hi]
    rfl
  · rw [hnext.pulled, List.drop_of_length_le (by omega)]
  · show bitResult (getBit t).1 = _
    rw [h.getBit_fst, List.getElem?_eq_none hi]
    rfl

/-- Settles O26: the checks of R275, then one put, by whether it is the eighth. -/
theorem putBitRule : Obligations.PutBitRule := by
  refine fun b => ⟨commonChecks_or (i := .putBit b) 0x31 rfl (by decide) rfl nofun, fun s he =>
    ⟨assignBit s.wacc (7 - s.wcnt.toNat) b, ?_, fun k hk hne => ?_, fun h7 => ?_, fun h7 => ?_⟩⟩
  · rw [getLsbD_assignBit _ _ _ _ (by omega), if_pos rfl]
  · rw [getLsbD_assignBit _ _ _ _ (by omega), if_neg hne]
  · rw [exec_putBit he, putBit_before_eighth h7]
  · rw [exec_putBit he, putBit_eighth h7, snkAppend]

/-- Settles O27: the checks of R275, then a flush, by whether bits are pending. -/
theorem flushRule : Obligations.FlushRule := by
  refine ⟨commonChecks (i := .flush) rfl nofun, fun s he => ⟨fun h0 => ?_, fun h0 => ?_⟩⟩
  · rw [exec_flush he, flushWriter_empty h0]
  · rw [exec_flush he, flushWriter_pending h0, snkAppend]

/-- Settles O28: the checks of R275, then the writer or the reader emptied and 0 returned. -/
theorem wrInitAndRdInitRules : Obligations.WrInitAndRdInitRules := by
  refine ⟨commonChecks (i := .wrInit) rfl nofun, commonChecks (i := .rdInit) rfl nofun,
    fun s he => ⟨?_, ?_⟩⟩
  · rw [exec_run (i := .wrInit) nofun he rfl, bodyOf, finish_ret]
  · rw [exec_run (i := .rdInit) nofun he rfl, bodyOf, finish_ret]

/-- Settles O29: the checks of R275, then the four cases of `get_bit()`. -/
theorem getBitRule : Obligations.GetBitRule := by
  refine ⟨commonChecks (i := .getBit) rfl nofun, fun s he => ⟨fun n hn hr => ?_, fun hr hs => ?_,
    fun hr hs hsrc => ?_, fun v rest hr hs hsrc => ?_⟩⟩ <;> rw [exec_getBit he]
  · have hne : s.rcnt ≠ 0 := by rw [hr]; exact Fin.ne_of_val_ne (Nat.succ_ne_zero n)
    rw [getBit_buffered hne]
    simp [deliverBit, hr, bitResult]
  · rw [getBit_latched hr hs, bitResult]
  · rw [getBit_eos hr hs hsrc, bitResult]
  · rw [getBit_pull hr hs hsrc]
    rfl
end

section
/-! SUPPORT. The code writer (R210 to R213): what PUT_SYM and the loop of ENC_RUN write, and the run-level
commands over the source beside the step-level command for one byte. -/

namespace Sys2Proof.Machine

/-! ### What the writer does not look at -/

/-- `s` with another RES (R22). -/
def withRes (v : Word) (s : State) : State := { s with res := v }

/-- `s` with another source and SRC_COUNT (R38, R46). -/
def withSource (src : List Byte) (n : Word) (s : State) : State :=
  { s with src := src, srcCount := n }

theorem putBit_withRes (v : Word) (b : Bool) (s : State) :
    putBit b (withRes v s) = withRes v (putBit b s) := by
  by_cases h : s.wcnt = 7#3 <;> simp [putBit, withRes, snkAppend, h]

theorem putBit_withSource (src : List Byte) (n : Word) (b : Bool) (s : State) :
    putBit b (withSource src n s) = withSource src n (putBit b s) := by
  by_cases h : s.wcnt = 7#3 <;> simp [putBit, withSource, snkAppend, h]

theorem putBits_withSource (src : List Byte) (n : Word) (bs : List Bool) (s : State) :
    putBits bs (withSource src n s) = withSource src n (putBits bs s) :=
  putBits_mapState (putBit_withSource src n) bs s

/-! ### PUT_SYM -/

/-- PUT_BITs of a bit sequence, RES being 0 already (R188). -/
theorem execAll_putBits {s : State} (he : s.err = .ok) (bits : List Bool) :
    execAll (bits.map .putBit) (withRes 0 s) = .next (withRes 0 (putBits bits s)) := by
  induction bits generalizing s with
  | nil => rfl
  | cons b bits ih =>
    rw [List.map_cons, execAll, exec_putBit (s := withRes 0 s) he b, putBit_withRes]
    exact ih ((putBit_err b s).trans he)

/-- PUT_SYM of a symbol without a code writes nothing (R212). -/
theorem exec_putSym_noCode {y : Byte} {s : State} (hs : s.Ready .treeOnly)
    (h : tableAt s.code y = []) : exec (.putSym y) s = .next { s with err := .noCode } := by
  rw [exec_run (i := .putSym y) nofun hs.1 hs.2, bodyOf, putSym_noCode h]
  rfl

/-- PUT_SYM writes the bits of the code (R212). -/
theorem exec_putSym_code {y : Byte} {s : State} (hs : s.Ready .treeOnly)
    (h : tableAt s.code y ≠ []) :
    exec (.putSym y) s = .next (withRes 0 (putBits (tableAt s.code y) s)) := by
  rw [exec_run (i := .putSym y) nofun hs.1 hs.2, bodyOf, putSym_ok h]
  rfl

/-! ### The loop of ENC_RUN -/

/-- A byte without a code ends the loop, pulled and not written (R213). -/
theorem encLoop_noCode {b : Byte} (rest : List Byte) {s : State} (h : tableAt s.code b = []) :
    encLoop (b :: rest) s = .raised .noCode (withSource rest (s.srcCount + 1) s) := by
  simp [encLoop, putSym, h, withSource]

/-- A byte with a code is pulled and written, and the loop goes on (R213). -/
theorem encLoop_code {b : Byte} (rest : List Byte) {s : State} (h : tableAt s.code b ≠ []) :
    encLoop (b :: rest) s =
      encLoop rest (withSource rest (s.srcCount + 1) (putBits (tableAt s.code b) s)) := by
  rw [← putBits_withSource]
  simp [encLoop, putSym, h, withSource]

/-- The loop writes the codes of the bytes at the front of the source as long as they have one, and goes
on with the rest (R213). -/
theorem encLoop_append (pre post : List Byte) (s : State) (hs : s.src = pre ++ post)
    (hc : ∀ b ∈ pre, tableAt s.code b ≠ []) : encLoop (pre ++ post) s = encLoop post
      (withSource post (s.srcCount + BitVec.ofNat 32 pre.length)
        (putBits (pre.flatMap (tableAt s.code)) s)) := by
  induction pre generalizing s with
  | nil =>
    obtain rfl : s.src = post := hs
    simp [withSource]
  | cons b pre ih =>
    obtain ⟨hb, hc⟩ := List.forall_mem_cons.1 hc
    have hcode : (withSource (pre ++ post) (s.srcCount + 1) (putBits (tableAt s.code b) s)).code =
        s.code := putBits_code _ s
    rw [List.cons_append, encLoop_code _ hb, ih _ rfl (by rwa [hcode]), hcode, putBits_withSource,
      ← putBits_append, List.length_cons, ← count_succ]
    rfl

/-! ### A run over the source and its steps -/

/-- A faulted block lets a sequence without RESET pass (R273). -/
theorem execAll_faulted {is : List Instr} {s : State} (he : s.err ≠ .ok) (h : ∀ i ∈ is, i ≠ .reset) :
    execAll is s = .next s := by
  induction is with
  | nil => rfl
  | cons i is ih =>
    obtain ⟨hi, h⟩ := List.forall_mem_cons.1 h
    rw [execAll, exec_faulted hi he]
    exact ih h

/-- The loop of a run-level command beside the step-level command for one byte (R126, R210, R213): each
refuses the same bytes with the error `e` and does `act` with the others, and neither the refusal nor
`act` looks at the source or at RES. -/
structure RunOverSource (loop : List Byte → State → Res Word) (cmd : Byte → Instr) (adm : Admission)
    (refuses : Byte → State → Prop) (act : Byte → State → State) (e : Err) : Prop where
  loop_nil : ∀ s, loop [] s = .ret 0 s
  loop_refused : ∀ b rest s, refuses b s →
    loop (b :: rest) s = .raised e (withSource rest (s.srcCount + 1) s)
  loop_done : ∀ b rest s, ¬ refuses b s →
    loop (b :: rest) s = loop rest (withSource rest (s.srcCount + 1) (act b s))
  cmd_refused : ∀ b s, s.Ready adm → refuses b s → exec (cmd b) s = .next (raise e s)
  cmd_done : ∀ b s, s.Ready adm → ¬ refuses b s → exec (cmd b) s = .next (withRes 0 (act b s))
  noReset : ∀ b, cmd b ≠ .reset
  fault : e ≠ .ok
  refuses_blind : ∀ b src n v s, refuses b (withSource src n (withRes v s)) ↔ refuses b s
  act_blind : ∀ b src n v s,
    act b (withSource src n (withRes v s)) = withSource src n (withRes v (act b s))
  act_ready : ∀ b s, s.Ready adm → (act b s).Ready adm

/-- The run and its steps, with the host moving the bytes, go to states that differ in the source and RES
alone, also when one of the steps faults (R210). -/
theorem RunOverSource.steps {loop : List Byte → State → Res Word} {cmd : Byte → Instr}
    {adm : Admission} {refuses : Byte → State → Prop} {act : Byte → State → State} {e : Err}
    (h : RunOverSource loop cmd adm refuses act e) (src : List Byte) (n : Word) (bs : List Byte)
    {s t : State} (hs : s.Ready adm) (ht : finish (loop bs s) = .next t) (v : Word) :
    ∃ w, execAll (bs.map cmd) (withSource src n (withRes v s)) =
      .next (withSource src n (withRes w t)) := by
  induction bs generalizing s v with
  | nil =>
    rw [h.loop_nil] at ht
    cases ht
    exact ⟨v, rfl⟩
  | cons b rest ih =>
    rw [List.map_cons, execAll]
    by_cases hb : refuses b s
    · rw [h.loop_refused b rest s hb] at ht
      cases ht
      rw [h.cmd_refused b (withSource src n (withRes v s)) hs ((h.refuses_blind b src n v s).2 hb)]
      refine ⟨v, execAll_faulted h.fault fun i hi => ?_⟩
      obtain ⟨c, -, rfl⟩ := List.mem_map.1 hi
      exact h.noReset c
    · rw [h.loop_done b rest s hb] at ht
      rw [h.cmd_done b (withSource src n (withRes v s)) hs (mt (h.refuses_blind b src n v s).1 hb),
        h.act_blind]
      exact ih (s := withSource rest (s.srcCount + 1) (act b s)) (h.act_ready b s hs) ht 0

/-- FT_SCAN and its FT_COUNTs (R126). -/
theorem runOverSource_ftScan : RunOverSource scanLoop .ftCount .freqOnly
    (fun b s => tableAt s.freq b = 0xFFFFFFFF#32)
    (fun b s => { s with freq := tablePut s.freq b (tableAt s.freq b + 1) }) .countOvf where
  loop_nil := fun _ => rfl
  loop_refused := fun _ rest _ hb => scanLoop_overflow rest hb
  loop_done := fun _ rest _ hb => scanLoop_counted rest hb
  cmd_refused := fun b s hs hb => by
    rw [exec_run (i := .ftCount b) nofun hs.1 hs.2, bodyOf, countOne_overflow hb]
    rfl
  cmd_done := fun b s hs hb => by
    rw [exec_run (i := .ftCount b) nofun hs.1 hs.2, bodyOf, countOne_ok hb]
    rfl
  noReset := nofun
  fault := nofun
  refuses_blind := fun _ _ _ _ _ => Iff.rfl
  act_blind := fun _ _ _ _ _ => rfl
  act_ready := fun _ _ hs => hs

/-- ENC_RUN and its PUT_SYMs (R213). -/
theorem runOverSource_encRun : RunOverSource encLoop .putSym .treeOnly
    (fun b s => tableAt s.code b = []) (fun b s => putBits (tableAt s.code b) s) .noCode where
  loop_nil := fun _ => rfl
  loop_refused := fun _ rest _ hb => encLoop_noCode rest hb
  loop_done := fun _ rest _ hb => encLoop_code rest hb
  cmd_refused := fun _ _ hs hb => exec_putSym_noCode hs hb
  cmd_done := fun _ _ hs hb => exec_putSym_code hs hb
  noReset := nofun
  fault := nofun
  refuses_blind := fun _ _ _ _ _ => Iff.rfl
  act_blind := fun b src n v s => by
    rw [putBits_withSource, putBits_mapState (putBit_withRes v)]
    rfl
  act_ready := fun b s hs =>
    ⟨(putBits_err _ s).trans hs.1, by rw [putBits_phase]; exact hs.2⟩

end Sys2Proof.Machine

open Sys2Proof Sys2Proof.Machine

/-- Settles O30: by whether the symbol has a code; from the first PUT_BIT on RES is 0. -/
theorem putSymRule : Obligations.PutSymRule := by
  refine fun y => ⟨commonChecks_or (i := .putSym y) 0x32 rfl (by decide) rfl nofun, fun s hs =>
    ⟨exec_putSym_noCode hs, fun h => ⟨_, exec_putSym_code hs h, ?_⟩⟩⟩
  obtain ⟨b, bits, hc⟩ := List.exists_cons_of_ne_nil h
  rw [hc, List.map_cons, execAll, exec_putBit hs.1 b]
  exact execAll_putBits (by rw [putBit_err]; exact hs.1) bits

/-- Settles O31: the loop writes the bytes that have codes, the whole source in the first case, and in the
second it stops at the next byte. -/
theorem encRunRule : Obligations.EncRunRule := by
  refine ⟨commonChecks (i := .encRun) rfl nofun, fun s hs => ?_⟩
  rw [exec_run (i := .encRun) nofun hs.1 hs.2, bodyOf]
  refine ⟨fun hc => ?_, fun pre b post hsrc hc hb => ?_⟩
  · have h := encLoop_append s.src [] s (List.append_nil _).symm hc
    rw [List.append_nil] at h
    rw [h]
    rfl
  · rw [hsrc, encLoop_append pre (b :: post) s hsrc hc, encLoop_noCode]
    · rw [finish_raised, ← count_add]
      rfl
    · rw [withSource, putBits_code]
      exact hb
end

section
/-! SUPPORT. The code reader (R216 to R219): `dec_sym()` by the bits ahead of the reader and the paths of
the tree, and DEC_RUN beside its DEC_SYMs. -/

namespace Sys2Proof.Machine

/-- A block that runs a command of phase TREE holds a tree (R48 (c)). -/
theorem State.Inv.tree_of_ready {s : State} (h : s.Inv) (hr : s.Ready .treeOnly) : s.IsTree :=
  h.tree (of_decide_eq_true hr.2)

/-! ### Gets -/

/-- The next bit is there (R192). -/
theorem getBit_of_cons {s : State} {b : Bool} {bs : List Bool} (h : readerBits s = b :: bs) :
    getBit s = (some b, (getBit s).2) ∧ readerBits (getBit s).2 = bs := by
  obtain ⟨h1, h2⟩ := getBit_readerBits s
  rw [h] at h1 h2
  exact ⟨Prod.ext h1 rfl, h2⟩

/-- No bit is left (R192). -/
theorem getBit_of_nil {s : State} (h : readerBits s = []) : getBit s = (none, (getBit s).2) := by
  have h1 := (getBit_readerBits s).1
  rw [h] at h1
  exact Prod.ext h1 rfl

/-- Gets use up the bits ahead (R194). -/
theorem readerBits_skipBits (n : Nat) (s : State) :
    readerBits (skipBits n s) = (readerBits s).drop n := by
  induction n generalizing s with
  | zero => rfl
  | succ n ih => rw [skipBits, ih, (getBit_readerBits s).2, List.drop_tail]

theorem skipBits_add (m n : Nat) (s : State) : skipBits (m + n) s = skipBits n (skipBits m s) := by
  induction m generalizing s with
  | zero => rw [Nat.zero_add, skipBits]
  | succ m ih => rw [Nat.succ_add, skipBits, ih, skipBits]

/-- An internal root starts the walk (R216). -/
theorem decSym_internal {s : State} {l r : Idx} {f : Freq}
    (hr : s.nodes[s.root.toNat]? = some (.internal l r f)) :
    decSym s = decWalk (bitsLeft s) s.root s := by
  rw [decSym, hr]

/-! ### What the reader does not look at -/

/-- `s` with other values in what the decoder writes beside the reader: SNK, SNK_COUNT, REMAIN and RES. -/
def withOutput (snk : List Byte) (n r v : Word) (s : State) : State :=
  { s with snk := snk, snkCount := n, remain := r, res := v }

section
variable (snk : List Byte) (n r v : Word)

/-- A get does not look at the output (R192). -/
theorem getBit_withOutput (s : State) :
    getBit (withOutput snk n r v s) = ((getBit s).1, withOutput snk n r v (getBit s).2) := by
  by_cases h : s.rcnt = 0
  · cases he : s.reos <;> cases hs : s.src <;>
      simp [getBit, srcPull, deliverBit, withOutput, h, he, hs]
  · simp [getBit, deliverBit, withOutput, h]

theorem skipBits_withOutput (k : Nat) (s : State) :
    skipBits k (withOutput snk n r v s) = withOutput snk n r v (skipBits k s) := by
  induction k generalizing s with
  | zero => rfl
  | succ k ih => rw [skipBits, getBit_withOutput, ih, skipBits]

/-- Each case of the walk turns on a node and on a get. -/
theorem decWalk_withOutput (k : Nat) (c : Idx) (s : State) :
    decWalk k c (withOutput snk n r v s) = (decWalk k c s).mapState (withOutput snk n r v) := by
  have hnodes : ∀ s, (withOutput snk n r v s).nodes = s.nodes := fun _ => rfl
  fun_induction decWalk k c s with
  | case1 k c s hc => rw [decWalk, hnodes, hc]; rfl
  | case2 k c s y f hc => rw [decWalk, hnodes, hc]; rfl
  | case3 k c s l q f hc u hg => rw [decWalk, hnodes, hc, getBit_withOutput, hg]; rfl
  | case4 c s l q f hc b u hg => rw [decWalk, hnodes, hc, getBit_withOutput, hg]; rfl
  | case5 c s l q f hc b u hg k ih => rw [decWalk, hnodes, hc, getBit_withOutput, hg]; exact ih

/-- DEC_SYM's procedure does not look at the output (R216). -/
theorem decSym_withOutput (s : State) :
    decSym (withOutput snk n r v s) = (decSym s).mapState (withOutput snk n r v) := by
  fun_cases decSym s with
  | case5 l w u hr =>
    exact (decSym_internal (s := withOutput snk n r v s) hr).trans (decWalk_withOutput ..)
  | _ =>
    rw [decSym, getBit_withOutput]
    simp_all [withOutput]

end

/-! ### Paths of the tree -/

/-- The beginning of a path leads to a node from which the rest goes on. -/
theorem followPath_split {nodes : List Node} {i j : Idx} {p q : List Bool}
    (h : followPath nodes i (p ++ q) = some j) :
    ∃ k, followPath nodes i p = some k ∧ followPath nodes k q = some j := by
  induction p generalizing i with
  | nil => exact ⟨i, rfl, h⟩
  | cons b p ih =>
    obtain ⟨l, r, f, hi, h⟩ := followPath_cons h
    rw [followPath_internal hi]
    exact ih h

/-- When the bits ahead begin with a path from `c` to a leaf, the walk returns its symbol and has used
them up (R216). -/
theorem decWalk_leaf {p : List Bool} {k : Nat} {c j : Idx} {y : Byte} {f : Freq} {s : State}
    (hp : followPath s.nodes c p = some j) (hj : s.nodes[j.toNat]? = some (.leaf y f))
    (hb : p <+: readerBits s) (hk : p.length ≤ k) :
    decWalk k c s = .ret y (skipBits p.length s) := by
  induction p generalizing c k s with
  | nil =>
    cases hp
    rw [decWalk, hj]
    rfl
  | cons b p ih =>
    obtain ⟨l, r, g, hc, hp⟩ := followPath_cons hp
    obtain ⟨k, rfl⟩ : ∃ m, k = m + 1 := ⟨k - 1, by rw [List.length_cons] at hk; omega⟩
    obtain ⟨bs, hbs⟩ := hb
    obtain ⟨hg, hrest⟩ := getBit_of_cons hbs.symm
    rw [decWalk, hc, hg]
    refine ih ?_ ?_ ⟨bs, hrest.symm⟩ (Nat.le_of_succ_le_succ hk)
    · rwa [getBit_nodes]
    · rwa [getBit_nodes]

/-- When the bits ahead are a path from `c` to an internal node, the walk uses them up and meets the end
of the stream (R216). -/
theorem decWalk_trunc {p : List Bool} {k : Nat} {c j l r : Idx} {f : Freq} {s : State}
    (hp : followPath s.nodes c p = some j) (hj : s.nodes[j.toNat]? = some (.internal l r f))
    (hb : readerBits s = p) (hk : p.length ≤ k) :
    decWalk k c s = .raised .trunc (skipBits (p.length + 1) s) := by
  induction p generalizing c k s with
  | nil =>
    cases hp
    rw [decWalk, hj, getBit_of_nil hb]
    rfl
  | cons b p ih =>
    obtain ⟨l, r, g, hc, hp⟩ := followPath_cons hp
    obtain ⟨k, rfl⟩ : ∃ m, k = m + 1 := ⟨k - 1, by rw [List.length_cons] at hk; omega⟩
    obtain ⟨hg, hrest⟩ := getBit_of_cons hb
    rw [decWalk, hc, hg]
    refine ih ?_ ?_ hrest (Nat.le_of_succ_le_succ hk)
    · rwa [getBit_nodes]
    · rwa [getBit_nodes]

/-! ### DEC_SYM in phase TREE -/

section
variable {s : State}

namespace State.IsTree

/-- A proper beginning of a code is a path to an internal node (R171). -/
theorem path_in_code (h : s.IsTree) (h2 : 2 ≤ s.nuniq) {y : Byte} {p : List Bool}
    (hp : p <+: tableAt s.code y) (hne : p ≠ tableAt s.code y) : ∃ j l r f,
    followPath s.nodes s.root p = some j ∧ s.nodes[j.toNat]? = some (.internal l r f) := by
  obtain ⟨_ | ⟨b, q⟩, hq⟩ := hp
  · exact absurd ((List.append_nil p).symm.trans hq) hne
  · have hy : tableAt s.code y ≠ [] := by
      rw [← hq]
      exact List.append_ne_nil_of_right_ne_nil p nofun
    obtain ⟨i, g, hi, -⟩ := h.paths h2 y hy
    rw [← hq] at hi
    obtain ⟨j, hj, hrest⟩ := followPath_split hi
    obtain ⟨l, r, f, hn, -⟩ := followPath_cons hrest
    exact ⟨j, l, r, f, hj, hn⟩

/-- With one unique symbol the root is its leaf (R143). -/
theorem single_root (h : s.IsTree) (h1 : s.nuniq = 1) {y : Byte} (hy : tableAt s.code y ≠ []) :
    ∃ f, s.nodes[s.root.toNat]? = some (.leaf y f) := by
  obtain ⟨j, f, hj⟩ := (h.forest.exists_leaf_iff y).2 ((h.coded y).1 hy)
  have hlt := (List.getElem?_eq_some_iff.1 hj).1
  have hsize := h.size
  have hroot := h.root
  rw [show s.root.toNat = j by omega]
  exact ⟨f, hj⟩

/-- With one unique symbol every code is one bit (R172). -/
theorem single_codes_length (h : s.IsTree) (h1 : s.nuniq = 1) {ys : List Byte}
    (hc : ∀ y ∈ ys, tableAt s.code y ≠ []) : (ys.flatMap (tableAt s.code)).length = ys.length := by
  rw [List.length_flatMap, List.map_congr_left fun y hy => by rw [h.degenerate h1 y (hc y hy)]]
  simp

/-- With one unique symbol or more than one (R143). -/
theorem one_or_more (h : s.IsTree) : s.nuniq = 1 ∨ 2 ≤ s.nuniq := by
  have := h.nonempty
  omega

/-- The bits ahead begin with a code: its symbol is next, and its bits are used up (R216). -/
theorem decSym_code (h : s.IsTree) {y : Byte} (hy : tableAt s.code y ≠ [])
    (hb : tableAt s.code y <+: readerBits s) :
    decSym s = .ret y (skipBits (tableAt s.code y).length s) := by
  obtain h1 | h2 := h.one_or_more
  · obtain ⟨f, hr⟩ := h.single_root h1 hy
    have hcode := h.degenerate h1 y hy
    rw [hcode] at hb ⊢
    obtain ⟨bs, hbs⟩ := hb
    rw [decSym, hr, (getBit_of_cons hbs.symm).1]
    rfl
  · obtain ⟨l, r, f, hr⟩ := h.forest.internal_root h.size h2
    obtain ⟨i, g, hi, hleaf⟩ := h.paths h2 y hy
    rw [decSym_internal hr]
    exact decWalk_leaf hi hleaf hb (hb.length_le.trans (readerBits_length_le s))

/-- The bits ahead end inside a code: the decoder uses them up and meets the end of the stream (R216). -/
theorem decSym_trunc (h : s.IsTree) {y : Byte} (hb : readerBits s <+: tableAt s.code y)
    (hne : readerBits s ≠ tableAt s.code y) :
    decSym s = .raised .trunc (skipBits ((readerBits s).length + 1) s) := by
  obtain h1 | h2 := h.one_or_more
  · have hy : tableAt s.code y ≠ [] := fun e => hne ((List.prefix_nil.1 (e ▸ hb)).trans e.symm)
    obtain ⟨f, hr⟩ := h.single_root h1 hy
    rw [h.degenerate h1 y hy] at hb hne
    have hnil : readerBits s = [] := by simpa [List.prefix_cons_iff, hne] using hb
    rw [decSym, hr, getBit_of_nil hnil, hnil]
    rfl
  · obtain ⟨l, r, f, hr⟩ := h.forest.internal_root h.size h2
    obtain ⟨j, l', r', f', hj, hn⟩ := h.path_in_code h2 hb hne
    rw [decSym_internal hr]
    exact decWalk_trunc hj hn rfl (readerBits_length_le s)

/-- A 1 bit in the degenerate tree (R216). -/
theorem decSym_badCode (h : s.IsTree) (h1 : s.nuniq = 1) {bs : List Bool}
    (hb : readerBits s = true :: bs) : decSym s = .raised .badCode (skipBits 1 s) := by
  obtain ⟨y, f, hr⟩ := h.forest.single_leaf (by have := h.size; omega)
  rw [decSym, hr, (getBit_of_cons hb).1]
  rfl

end State.IsTree

end

/-! ### DEC_RUN in phase TREE -/

/-- `s` after the symbols `ys` have been decoded: their codes used up, the symbols appended, REMAIN lowered
by their number (R218). -/
def afterSymbols (ys : List Byte) (s : State) : State :=
  withOutput (s.snk ++ ys) (s.snkCount + BitVec.ofNat 32 ys.length)
    (s.remain - BitVec.ofNat 32 ys.length) s.res
    (skipBits (ys.flatMap (tableAt s.code)).length s)

theorem afterSymbols_nil (s : State) : afterSymbols [] s = s := by
  simp [afterSymbols, withOutput, skipBits]

theorem afterSymbols_code (ys : List Byte) (s : State) : (afterSymbols ys s).code = s.code :=
  skipBits_code _ s

/-- What one pass of the loop does with a symbol it decoded. -/
theorem afterSymbols_singleton (y : Byte) (s : State) : afterSymbols [y] s =
    { snkAppend y (skipBits (tableAt s.code y).length s) with
      remain := (skipBits (tableAt s.code y).length s).remain - 1 } := by
  simp [afterSymbols, withOutput, snkAppend]

/-- One symbol, then the others. -/
theorem afterSymbols_cons (y : Byte) (ys : List Byte) (s : State) :
    afterSymbols (y :: ys) s = afterSymbols ys (afterSymbols [y] s) := by
  rw [afterSymbols, afterSymbols, afterSymbols_code, afterSymbols, skipBits_withOutput, ← skipBits_add]
  simp [withOutput, BitVec.sub_sub, BitVec.ofNat_add, BitVec.add_assoc, BitVec.add_comm (1#32)]

/-- Gets after the symbols. -/
theorem skipBits_afterSymbols (k : Nat) (ys : List Byte) (s : State) :
    skipBits k (afterSymbols ys s) =
      { skipBits ((ys.flatMap (tableAt s.code)).length + k) s with
        snk := s.snk ++ ys, snkCount := s.snkCount + BitVec.ofNat 32 ys.length,
        remain := s.remain - BitVec.ofNat 32 ys.length } := by
  rw [afterSymbols, skipBits_withOutput, ← skipBits_add, withOutput]
  simp

/-- RES stays in the loop, so only the reader and what R218 names differ. -/
theorem afterSymbols_eq (ys : List Byte) (s : State) : afterSymbols ys s =
    { skipBits (ys.flatMap (tableAt s.code)).length s with
      snk := s.snk ++ ys, snkCount := s.snkCount + BitVec.ofNat 32 ys.length,
      remain := s.remain - BitVec.ofNat 32 ys.length } :=
  skipBits_afterSymbols 0 ys s

/-- The codes of the symbols have been used up. -/
theorem readerBits_afterSymbols (ys : List Byte) (s : State) :
    readerBits (afterSymbols ys s) = (readerBits s).drop (ys.flatMap (tableAt s.code)).length :=
  readerBits_skipBits _ s

theorem nuniq_afterSymbols (ys : List Byte) (s : State) : (afterSymbols ys s).nuniq = s.nuniq :=
  congrArg (fun f => (uniqueSyms f).length) (skipBits_freq _ s)

theorem State.IsTree.keeps_afterSymbols {s : State} (h : s.IsTree) (ys : List Byte) :
    (afterSymbols ys s).IsTree :=
  h.of_same (skipBits_freq _ s)
    ⟨skipBits_phase _ s, skipBits_nodes _ s, skipBits_root _ s, skipBits_heap _ s, skipBits_code _ s⟩

/-- The loop decodes the symbols whose codes come next and goes on (R218). -/
theorem State.IsTree.decLoop_codes {s : State} (h : s.IsTree) {ys : List Byte}
    (hc : ∀ y ∈ ys, tableAt s.code y ≠ []) (hb : ys.flatMap (tableAt s.code) <+: readerBits s)
    (n : Nat) : decLoop (ys.length + n) s = decLoop n (afterSymbols ys s) := by
  induction ys generalizing s with
  | nil => rw [List.length_nil, Nat.zero_add, afterSymbols_nil]
  | cons y ys ih =>
    obtain ⟨hy, hc⟩ := List.forall_mem_cons.1 hc
    obtain ⟨rest, hrest⟩ := hb
    rw [List.flatMap_cons, List.append_assoc] at hrest
    rw [List.length_cons, Nat.succ_add, decLoop, h.decSym_code hy ⟨_, hrest⟩, Res.bind_ret,
      ← afterSymbols_singleton, afterSymbols_cons y ys s]
    refine ih (h.keeps_afterSymbols [y]) (by rwa [afterSymbols_code]) ⟨rest, ?_⟩
    rw [readerBits_afterSymbols, afterSymbols_code, ← hrest, List.flatMap_singleton, List.drop_left]

/-- The loop stops where a symbol it still owes cannot be decoded, with what it has decoded (R219). -/
theorem State.IsTree.decLoop_raised {s : State} (h : s.IsTree) {ys : List Byte}
    (hc : ∀ y ∈ ys, tableAt s.code y ≠ []) (hb : ys.flatMap (tableAt s.code) <+: readerBits s)
    {n k : Nat} (hn : ys.length < n) {e : Err}
    (he : decSym (afterSymbols ys s) = .raised e (skipBits k (afterSymbols ys s))) :
    decLoop n s = .raised e (skipBits k (afterSymbols ys s)) := by
  obtain ⟨m, rfl⟩ : ∃ m, n = ys.length + (m + 1) := ⟨n - ys.length - 1, by omega⟩
  rw [h.decLoop_codes hc hb, decLoop, he, Res.bind_raised]

/-! ### DEC_RUN and its DEC_SYMs -/

theorem exec_decSym_ret {s u : State} {y : Byte} (hs : s.Ready .treeOnly) (h : decSym s = .ret y u) :
    exec .decSym s = .next (withRes (y.setWidth 32) u) := by
  rw [exec_run (i := .decSym) nofun hs.1 hs.2, bodyOf, h]
  rfl

theorem exec_decSym_raised {s u : State} {e : Err} (hs : s.Ready .treeOnly)
    (h : decSym s = .raised e u) : exec .decSym s = .next (raise e u) := by
  rw [exec_run (i := .decSym) nofun hs.1 hs.2, bodyOf, h]
  rfl

/-- A move of the reader leaves what the frame of R275 looks at. -/
theorem ReaderMoved.ready {s u : State} {adm : Admission} (h : ReaderMoved s u) (hs : s.Ready adm) :
    u.Ready adm := by
  obtain ⟨b, n, e, p, r, -, rfl⟩ := h
  exact hs

/-- A move of the reader leaves the sink and REMAIN. -/
theorem ReaderMoved.output {s u : State} (h : ReaderMoved s u) :
    u.snk = s.snk ∧ u.remain = s.remain := by
  obtain ⟨b, n, e, p, r, -, rfl⟩ := h
  exact ⟨rfl, rfl⟩

/-- The results of successive DEC_SYMs from `s` are the symbols `ys` (R217). -/
def SymbolsResult (ys : List Byte) (s : State) : Prop :=
  ∀ k (h : k < ys.length), ∃ v,
    execAll (List.replicate (k + 1) .decSym) s = .next v ∧ v.res = ys[k].setWidth 32

theorem SymbolsResult.cons {y : Byte} {ys : List Byte} {s t : State} (hx : exec .decSym s = .next t)
    (hy : t.res = y.setWidth 32) (h : SymbolsResult ys t) : SymbolsResult (y :: ys) s := by
  rintro (_ | k) hk
  · exact ⟨t, by rw [List.replicate_succ, execAll, hx]; rfl, hy⟩
  · obtain ⟨v, hv, hres⟩ := h k (Nat.lt_of_succ_lt_succ hk)
    exact ⟨v, by rw [List.replicate_succ, execAll, hx]; exact hv, hres⟩

/-- DEC_RUN's loop and as many DEC_SYMs go to states that differ in the sink, REMAIN and RES alone, also
when one of the DEC_SYMs faults; the loop has appended the results (R210). -/
theorem decLoop_steps (snk : List Byte) (c r : Word) (n : Nat) {s t : State} (hs : s.Ready .treeOnly)
    (ht : finish (decLoop n s) = .next t) (v : Word) : ∃ w ys,
    execAll (List.replicate n .decSym) (withOutput snk c r v s) = .next (withOutput snk c r w t) ∧
    t.snk = s.snk ++ ys ∧ t.remain = s.remain - BitVec.ofNat 32 ys.length ∧
    SymbolsResult ys (withOutput snk c r v s) := by
  induction n generalizing s v with
  | zero =>
    cases ht
    exact ⟨v, [], rfl, (List.append_nil _).symm, (BitVec.sub_zero _).symm, nofun⟩
  | succ n ih =>
    rw [List.replicate_succ, execAll]
    have hw : (withOutput snk c r v s).Ready .treeOnly := hs
    have hd := decSym_withOutput snk c r v s
    obtain ⟨y, u, e, m⟩ | ⟨u, e, m⟩ | e := decSym_ends s
    · rw [e, Res.mapState_ret] at hd
      rw [decLoop, e, Res.bind_ret] at ht
      have hx := exec_decSym_ret hw hd
      have hu : State.Ready .treeOnly { snkAppend y u with remain := u.remain - 1 } := m.ready hs
      obtain ⟨w, ys, hrun, hsnk, hrem, hres⟩ := ih hu ht (y.setWidth 32)
      obtain ⟨hs1, hr1⟩ := m.output
      refine ⟨w, y :: ys, by rw [hx]; exact hrun, ?_, ?_, .cons hx rfl hres⟩
      · simp [hsnk, hs1]
      · rw [hrem, hr1, List.length_cons, Nat.add_comm, BitVec.ofNat_add, ← BitVec.sub_sub]
        rfl
    · obtain ⟨f, hf, e⟩ : ∃ f, f ≠ .ok ∧ decSym s = .raised f u := by
        obtain e | e := e
        · exact ⟨.trunc, nofun, e⟩
        · exact ⟨.badCode, nofun, e⟩
      rw [e, Res.mapState_raised] at hd
      rw [decLoop, e, Res.bind_raised, finish_raised] at ht
      cases ht
      obtain ⟨hs1, hr1⟩ := m.output
      rw [exec_decSym_raised hw hd]
      refine ⟨v, [], execAll_faulted hf fun i hi => ?_, ?_, ?_, nofun⟩
      · rw [List.eq_of_mem_replicate hi]
        nofun
      · simp [hs1]
      · simp [hr1]
    · rw [decLoop, e] at ht
      cases ht

end Sys2Proof.Machine

open Sys2Proof Sys2Proof.Machine

/-- Settles O32, by the path of the code that comes next. -/
theorem decSymRule : Obligations.DecSymRule := by
  refine ⟨commonChecks (i := .decSym) rfl nofun, fun s hs hr => ?_⟩
  have ht := hs.tree_of_ready hr
  refine ⟨fun y hy hb => ?_, fun y hb hne => ?_, fun h1 hb => ?_⟩
  · exact exec_decSym_ret hr (ht.decSym_code hy hb)
  · exact exec_decSym_raised hr (ht.decSym_trunc hb hne)
  · obtain ⟨bs, hbs⟩ := List.head?_eq_some_iff.1 hb
    exact exec_decSym_raised hr (ht.decSym_badCode h1 hbs)

/-- Settles O33: the loop decodes the symbols whose codes come first; then it has done, or the next
`dec_sym()` raises its error. -/
theorem decRunRule : Obligations.DecRunRule := by
  refine ⟨commonChecks (i := .decRun) rfl nofun, fun s hs hr ys hc => ?_⟩
  have ht := hs.tree_of_ready hr
  have hat := ht.keeps_afterSymbols ys
  rw [exec_run (i := .decRun) nofun hr.1 hr.2, bodyOf]
  refine ⟨fun hn hb => ?_, fun y rest hn hb hp hne => ?_, fun rest h1 hn hb => ?_⟩
  · have hrem : BitVec.ofNat 32 ys.length = s.remain := by
      rw [hn, BitVec.ofNat_toNat, BitVec.setWidth_eq]
    have hend := ht.decLoop_codes hc hb 0
    rw [Nat.add_zero, hn, decLoop, afterSymbols_eq, hrem, BitVec.sub_self] at hend
    rw [hend]
    rfl
  · have hrest : readerBits (afterSymbols ys s) = rest := by
      rw [readerBits_afterSymbols, hb, List.drop_left]
    have htrunc := hat.decSym_trunc (y := y) (by rwa [hrest, afterSymbols_code])
      (by rwa [hrest, afterSymbols_code])
    rw [ht.decLoop_raised hc ⟨rest, hb.symm⟩ hn htrunc, skipBits_afterSymbols, hrest, hb,
      List.length_append]
    rfl
  · have hrest : readerBits (afterSymbols ys s) = true :: rest := by
      rw [readerBits_afterSymbols, hb, List.drop_left]
    have hbad := hat.decSym_badCode (by rwa [nuniq_afterSymbols]) hrest
    rw [ht.decLoop_raised hc ⟨_, hb.symm⟩ hn hbad, skipBits_afterSymbols,
      ht.single_codes_length h1 hc]
    rfl

/-- Settles O41: each pass of a run does what the step-level command does in a state that differs in what
the host moves. -/
theorem runLevelEqualsStepLevel : Obligations.RunLevelEqualsStepLevel := by
  refine fun s t => ⟨fun hs h => ?_, fun hs h => ?_, fun hs h => ?_⟩
  · rw [exec_run (i := .ftScan) nofun hs.1 hs.2] at h
    obtain ⟨w, hw⟩ := runOverSource_ftScan.steps s.src s.srcCount s.src hs h s.res
    exact ⟨_, hw, rfl⟩
  · rw [exec_run (i := .encRun) nofun hs.1 hs.2] at h
    obtain ⟨w, hw⟩ := runOverSource_encRun.steps s.src s.srcCount s.src hs h s.res
    exact ⟨_, hw, rfl⟩
  · rw [exec_run (i := .decRun) nofun hs.1 hs.2] at h
    obtain ⟨w, ys, hrun, hsnk, hrem, hres⟩ :=
      decLoop_steps s.snk s.snkCount s.remain s.remain.toNat hs h s.res
    exact ⟨_, ys, hrun, rfl, hsnk, hrem, hres⟩
end

section
/-! SUPPORT. The bits of what the encoder appends (R190, R214, R220). -/

namespace Sys2Proof.Machine

/-- Puts into an empty writer (R190). -/
theorem hasWritten_putBits {s : State} (he : s.err = .ok) (hw : s.WriterInv) (hn : s.wcnt = 0)
    (bits : List Bool) : HasWritten s.snk bits (putBits bits s) := by
  induction bits using List.reverseRecOn with
  | nil => exact .nil he hw hn
  | append_singleton bits b ih =>
    rw [putBits_append]
    obtain ⟨herr, hcnt, hacc, hsnk⟩ := ih.concat b
    exact ⟨herr, hcnt, hacc, hsnk⟩

/-- The packed bytes of a bit sequence, with the bits of a last byte that is not full set to 0 (R190). -/
def packedBytes (bits : List Bool) : List Byte :=
  (List.range ((bits.length + 7) / 8)).map (packedByte bits)

/-- The packed bytes, read bit by bit, begin with the sequence (R195). -/
theorem prefix_packedBytes (bits : List Bool) : bits <+: (packedBytes bits).flatMap byteBits := by
  refine List.prefix_iff_getElem?.2 fun i hi => ?_
  rw [getElem?_flatMap_byteBits, packedBytes, List.getElem?_map, List.getElem?_range (by omega),
    Option.map_some, Option.map_some, getLsbD_packedByte _ _ (by omega),
    show 8 * (i / 8) + (7 - (7 - i % 8)) = i by omega, List.getD_eq_getElem _ _ hi]

/-- Encoder law: ENC_RUN and FLUSH append the packed bits of the codes of the source (R214). -/
theorem encRun_flush {e : State} (hr : e.Ready .treeOnly) (hw : e.WriterInv) (hn : e.wcnt = 0)
    (hc : ∀ y ∈ e.src, tableAt e.code y ≠ []) : ∃ e', execAll [.encRun, .flush] e = .next e' ∧
      e'.snk = e.snk ++ packedBytes (e.src.flatMap (tableAt e.code)) := by
  have henc := (encRunRule.2 e hr).1 hc
  obtain ⟨herr, hcnt, hacc, hsnk⟩ := hasWritten_putBits hr.1 hw hn (e.src.flatMap (tableAt e.code))
  exact ⟨_, execAll_concat (is := [.encRun]) (execAll_concat (is := []) rfl henc) (exec_flush herr),
    HasWritten.flush ⟨herr, hcnt, hacc, hsnk⟩⟩

/-- A fresh reader whose source begins with the packed bytes of a bit sequence will deliver that sequence
first (R194, R195). -/
theorem prefix_readerBits {d : State} {bits : List Bool} {extra : List Byte} (hr : d.rcnt = 0)
    (he : d.reos = false) (hs : d.src = packedBytes bits ++ extra) : bits <+: readerBits d := by
  have h : readerBits d = (packedBytes bits).flatMap byteBits ++ extra.flatMap byteBits := by
    simp [readerBits, bufferedBits, hr, he, hs]
  rw [h]
  exact (prefix_packedBytes bits).trans (List.prefix_append _ _)

end Sys2Proof.Machine

open Sys2Proof Sys2Proof.Machine

/-- Settles O55: the bytes that ENC_RUN and FLUSH append begin with the bits of the codes, and DEC_RUN
decodes them. -/
theorem decoderLaw : Obligations.DecoderLaw := by
  intro e he hr hn hlen hfreq
  have hc : ∀ y ∈ e.src, tableAt e.code y ≠ [] := fun y hy =>
    ((he.tree_of_ready hr).coded y).2 (hfreq y hy)
  obtain ⟨e', hrun, hsnk⟩ := encRun_flush hr he.writer hn hc
  refine ⟨e', _, hrun, hsnk, fun d extra hd hdr _ _ _ hcode hrcnt hreos hrem hsrc => ?_⟩
  have hb := prefix_readerBits hrcnt hreos hsrc
  rw [← hcode] at hc hb
  have hcount : e.src.length = d.remain.toNat := by
    rw [hrem, BitVec.toNat_ofNat, Nat.mod_eq_of_lt hlen]
  exact ⟨_, (decRunRule.2 d hd hdr e.src hc).1 hcount hb, rfl, (skipBits_err _ d).trans hdr.1, rfl⟩
end

section
/-! SUPPORT. The container (R231, R241, R242): the fields of the header as the host reads them back, and
the byte sequences whose reading succeeds. -/

namespace Sys2Proof.Machine

/-! ### Fields -/

/-- The four bytes of a word, put together again (R67). -/
theorem word_of_bytes (v : Word) :
    v.extractLsb' 24 8 ++ v.extractLsb' 16 8 ++ v.extractLsb' 8 8 ++ v.extractLsb' 0 8 = v := by
  rw [BitVec.extractLsb'_append_extractLsb'_eq_extractLsb' (by decide),
    BitVec.extractLsb'_append_extractLsb'_eq_extractLsb' (by decide),
    BitVec.extractLsb'_append_extractLsb'_eq_extractLsb' (by decide)]
  exact BitVec.extractLsb'_eq_self

theorem takeLe32_le32 (v : Word) (rest : List Byte) : takeLe32 (le32 v ++ rest) = some (v, rest) :=
  congrArg (fun w => some (w, rest)) (word_of_bytes v)

theorem takeLe16_le16 (n : BitVec 16) (rest : List Byte) :
    takeLe16 (le16 n ++ rest) = some (n, rest) := by
  have hn : n.extractLsb' 8 8 ++ n.extractLsb' 0 8 = n := by
    rw [BitVec.extractLsb'_append_extractLsb'_eq_extractLsb' (by decide)]
    exact BitVec.extractLsb'_eq_self
  exact congrArg (fun w => some (w, rest)) hn

theorem takePairs_pairBytes (pairs : List (Byte × Word)) (rest : List Byte) :
    takePairs pairs.length (pairs.flatMap pairBytes ++ rest) = some (pairs, rest) := by
  induction pairs with
  | nil => rfl
  | cons q pairs ih =>
    rw [List.flatMap_cons, List.append_assoc, List.length_cons]
    simp only [pairBytes, List.cons_append, takePairs, takeLe32_le32, ih]

theorem takeMagic_magicBytes (p : Config.Params) (rest : List Byte) :
    takeMagic p (magicBytes p ++ rest) = .ok rest := by
  cases h : p.magicEn with
  | false => simp [takeMagic, magicBytes, h]
  | true =>
    have hlen : p.magicValue.toList.length = 4 := Vector.length_toList
    simp [takeMagic, magicBytes, h, hlen]

theorem takeHeader_fields (total : Word) {n : BitVec 16} {pairs : List (Byte × Word)}
    (payload : List Byte) (hn : n.toNat = pairs.length) (hne : pairs ≠ []) :
    takeHeader (le32 total ++ (le16 n ++ (pairs.flatMap pairBytes ++ payload))) =
      .ok ⟨total, pairs, payload⟩ := by
  have h0 : n ≠ 0 := by
    rintro rfl
    exact hne (List.length_eq_zero_iff.1 hn.symm)
  simp only [takeHeader, takeLe32_le32, takeLe16_le16, hn, takePairs_pairBytes, h0, if_false]

/-- A container that begins with a header of as many pairs as it says is read back (R236, R242). -/
theorem parseContainer_header (p : Config.Params) (total : Word) {n : BitVec 16}
    {pairs : List (Byte × Word)} (payload : List Byte) (hn : n.toNat = pairs.length)
    (hne : pairs ≠ []) :
    parseContainer p (headerBytes p total n pairs ++ payload) = .ok ⟨total, pairs, payload⟩ := by
  simp only [parseContainer, headerBytes, List.append_assoc, takeMagic_magicBytes]
  exact takeHeader_fields total payload hn hne

theorem length_magicBytes (p : Config.Params) :
    (magicBytes p).length = if p.magicEn then 4 else 0 := by
  cases h : p.magicEn <;> simp [magicBytes, h]

theorem length_flatMap_pairBytes (pairs : List (Byte × Word)) :
    (pairs.flatMap pairBytes).length = 5 * pairs.length := by
  induction pairs with
  | nil => rfl
  | cons q pairs ih =>
    rw [List.flatMap_cons, List.length_append, ih, List.length_cons]
    simp only [pairBytes, le32, List.length_cons, List.length_nil]
    omega

/-! ### Which byte sequences are containers -/

theorem takeLe32_of_le {c : List Byte} (h : 4 ≤ c.length) : ∃ v, takeLe32 c = some (v, c.drop 4) := by
  match c, h with
  | _ :: _ :: _ :: _ :: _, _ => exact ⟨_, rfl⟩

theorem takeLe32_of_lt {c : List Byte} (h : c.length < 4) : takeLe32 c = none := by
  match c, h with
  | [], _ | [_], _ | [_, _], _ | [_, _, _], _ => rfl

theorem toNat_append_bytes (a b : Byte) : (b ++ a).toNat = a.toNat + 256 * b.toNat := by
  rw [toNat_append_add]
  omega

theorem takeLe16_of_le {c : List Byte} (h : 2 ≤ c.length) : ∃ n, takeLe16 c = some (n, c.drop 2) ∧
    n.toNat = (c.getD 0 0).toNat + 256 * (c.getD 1 0).toNat := by
  match c, h with
  | a :: b :: _, _ => exact ⟨_, rfl, toNat_append_bytes a b⟩

theorem takeLe16_of_lt {c : List Byte} (h : c.length < 2) : takeLe16 c = none := by
  match c, h with
  | [], _ | [_], _ => rfl

theorem takePairs_of_le {n : Nat} {c : List Byte} (h : 5 * n ≤ c.length) :
    ∃ r, takePairs n c = some r := by
  induction n generalizing c with
  | zero => exact ⟨_, rfl⟩
  | succ n ih =>
    cases c with
    | nil => exact absurd h (by simp)
    | cons y c =>
      rw [List.length_cons] at h
      obtain ⟨v, hv⟩ := takeLe32_of_le (c := c) (by omega)
      obtain ⟨r, hr⟩ := ih (c := c.drop 4) (by rw [List.length_drop]; omega)
      simp only [takePairs, hv, hr]
      exact ⟨_, rfl⟩

theorem takePairs_of_lt {n : Nat} {c : List Byte} (h : c.length < 5 * n) : takePairs n c = none := by
  induction n generalizing c with
  | zero => exact absurd h (Nat.not_lt_zero _)
  | succ n ih =>
    cases c with
    | nil => rfl
    | cons y c =>
      rw [List.length_cons] at h
      by_cases hc : c.length < 4
      · simp only [takePairs, takeLe32_of_lt hc]
      · obtain ⟨v, hv⟩ := takeLe32_of_le (c := c) (by omega)
        simp only [takePairs, hv, ih (c := c.drop 4) (by rw [List.length_drop]; omega)]

/-- The unique entry count, in bytes 4 and 5 of a header without its signature (R231). -/
def entryCount (c : List Byte) : Nat := (c.getD 4 0).toNat + 256 * (c.getD 5 0).toNat

/-- The headers that the host accepts (R242). -/
theorem takeHeader_ok_iff (c : List Byte) : (∃ k, takeHeader c = .ok k) ↔
    6 ≤ c.length ∧ entryCount c ≠ 0 ∧ 6 + 5 * entryCount c ≤ c.length := by
  have hdrop (k : Nat) : (c.drop k).length = c.length - k := List.length_drop
  by_cases h4 : c.length < 4
  · simp only [takeHeader, takeLe32_of_lt h4, reduceCtorEq, exists_false, false_iff]
    omega
  obtain ⟨v, hv⟩ := takeLe32_of_le (Nat.le_of_not_lt h4)
  by_cases h6 : c.length < 6
  · simp only [takeHeader, hv, takeLe16_of_lt (c := c.drop 4) (by rw [hdrop]; omega), reduceCtorEq,
      exists_false, false_iff]
    omega
  obtain ⟨n, h16, hn⟩ := takeLe16_of_le (c := c.drop 4) (by rw [hdrop]; omega)
  rw [List.drop_drop] at h16
  have hcount : n.toNat = entryCount c := by
    rw [hn, entryCount]
    simp
  have h0 : n = 0 ↔ entryCount c = 0 := by
    rw [← hcount, ← BitVec.toNat_inj]
    rfl
  by_cases hp : c.length < 6 + 5 * entryCount c
  · simp only [takeHeader, hv, h16, hcount,
      takePairs_of_lt (c := c.drop 6) (n := entryCount c) (by rw [hdrop]; omega), reduceCtorEq,
      exists_false, false_iff]
    omega
  · obtain ⟨r, hr⟩ := takePairs_of_le (c := c.drop 6) (n := entryCount c) (by rw [hdrop]; omega)
    simp only [takeHeader, hv, h16, hcount, hr, h0]
    split
    · next hz => simp [hz]
    · next hz =>
      simp only [Except.ok.injEq, exists_eq', true_iff]
      omega

/-- The signature, when there is one, is taken off (R241). -/
theorem takeMagic_ok_iff (p : Config.Params) (c r : List Byte) : takeMagic p c = .ok r ↔
    (p.magicEn = true → c.take 4 = p.magicValue.toList) ∧ r = c.drop (if p.magicEn then 4 else 0) := by
  cases h : p.magicEn with
  | false => simp [takeMagic, h, eq_comm]
  | true =>
    have hlen : p.magicValue.toList.length = 4 := Vector.length_toList
    by_cases h4 : c.length < 4
    · have hne : c.take 4 ≠ p.magicValue.toList := fun e => by
        have := congrArg List.length e
        rw [hlen, List.length_take] at this
        omega
      simp [takeMagic, h, h4, hne]
    · by_cases hs : c.take 4 = p.magicValue.toList <;> simp [takeMagic, h, h4, hs, eq_comm]

/-- The containers that the host accepts (R241, R242). -/
theorem parseContainer_ok_iff (p : Config.Params) (c : List Byte) :
    (∃ k, parseContainer p c = .ok k) ↔ (p.magicEn = true → c.take 4 = p.magicValue.toList) ∧
      ∃ k, takeHeader (c.drop (if p.magicEn then 4 else 0)) = .ok k := by
  rw [parseContainer]
  cases h : takeMagic p c with
  | error e =>
    have hsig : ¬ (p.magicEn = true → c.take 4 = p.magicValue.toList) := fun hs => by
      rw [(takeMagic_ok_iff p c _).2 ⟨hs, rfl⟩] at h
      cases h
    simp [hsig]
  | ok r =>
    obtain ⟨hs, rfl⟩ := (takeMagic_ok_iff p c r).1 h
    exact (and_iff_right hs).symm

/-- The containers that the host accepts, by their lengths and their unique entry count (R241, R242). -/
theorem accepts_iff (p : Config.Params) (c : List Byte) :
    let m := if p.magicEn then 4 else 0
    let n := (c.getD (m + 4) 0).toNat + 256 * (c.getD (m + 5) 0).toNat
    (∃ k, parseContainer p c = .ok k) ↔
      (p.magicEn = true → c.take 4 = p.magicValue.toList) ∧ m + 6 ≤ c.length ∧ n ≠ 0 ∧
        m + 6 + 5 * n ≤ c.length := by
  intro m n
  have hn : entryCount (c.drop m) = n := by
    simp [entryCount, n]
  rw [parseContainer_ok_iff, takeHeader_ok_iff, hn, List.length_drop]
  refine and_congr_right fun _ => ?_
  omega

end Sys2Proof.Machine

open Sys2Proof Sys2Proof.Machine

/-- Settles O56: each field of the header is read back where it was written. -/
theorem headerReadsBack : Obligations.HeaderReadsBack := by
  intro p total n pairs payload
  refine ⟨?_, fun hn hne => ⟨?_, parseContainer_header p total payload hn hne⟩⟩
  · rw [headerBytes, List.append_assoc (magicBytes p)]
    rfl
  · rw [headerBytes, List.length_append, List.length_append, List.length_append, length_magicBytes,
      length_flatMap_pairBytes, hn]
    rfl
end

section
/-! SUPPORT. The host's programs (R235 to R244): what its moves, its reads and its reports do, and how
compress and decompress end after the moves they make. -/

namespace Sys2Proof.Machine

/-! ### Moves -/

theorem runMoves_cons {m : HostMove} {s t : State} (h : hostMove m s = .next t) (ms : List HostMove) :
    runMoves (m :: ms) s = runMoves ms t := by
  rw [runMoves, h]

/-- Moves that go through hand their last state to what follows them. -/
theorem runMoves_append {as : List HostMove} {s t : State} (h : runMoves as s = .next t)
    (bs : List HostMove) : runMoves (as ++ bs) s = runMoves bs t := by
  induction as generalizing s with
  | nil => cases h; rfl
  | cons m as ih =>
    cases hm : hostMove m s with
    | next u =>
      rw [runMoves_cons hm] at h
      rw [List.cons_append, runMoves_cons hm, ih h]
    | fault f => rw [runMoves, hm] at h; cases h
    | refused r => rw [runMoves, hm] at h; cases h

/-- `s` after a bus write that was accepted (R63). -/
def written (s : State) : State := { s with resp := .written }

/-- A command that the host issues is written, decoded and run (R23, R98). -/
theorem hostMove_issue {i : Instr} (hw : i.wf = true) (s : State) :
    hostMove (issue i) s = exec i (written s) :=
  (hostMove_cmd (encode i) s).trans (writeCmd_ok (decode_encode hw) _)

/-- A command that the host issues and that runs to its end (R275). -/
theorem hostMove_issue_run {i : Instr} {s : State} (hw : i.wf = true) (hi : i ≠ .reset)
    (he : s.err = .ok) (ha : (admissionOf i).admits s.phase = true) :
    hostMove (issue i) s = finish (bodyOf i (written s)) :=
  (hostMove_issue hw s).trans (exec_run (s := written s) hi he ha)

theorem hostMove_reset (s : State) : hostMove (issue .reset) s = .next (Claims.afterReset s) :=
  hostMove_issue (i := .reset) rfl s

theorem hostDo_next {ms : List HostMove} {s t : State} (h : runMoves ms s = .next t) :
    hostDo ms s = .done () t := by
  rw [hostDo, h]

@[simp] theorem HostResult.bind_done {α β : Type} (v : α) (s : State) (k : α → State → HostResult β) :
    (HostResult.done v s).bind k = k v s := rfl

/-! ### Reads and reports -/

/-- `s` after a bus read that returned `v` (R65). -/
def answered (v : Word) (s : State) : State := { s with resp := .data v }

theorem answered_answered (v w : Word) (s : State) : answered v (answered w s) = answered v s := rfl

/-- No register shows the answer to the last access. -/
theorem readReg_answered (v : Word) (s : State) (r : Reg) : readReg (answered v s) r = readReg s r := by
  cases r <;> rfl

/-- The host reads a register without side effect (R65). -/
theorem hostRead_eq (r : Reg) (s : State) :
    hostRead r s = .done (readReg s r) (answered (readReg s r) s) := by
  cases r <;> rfl

/-- RESET, then the report (R244). -/
theorem giveUp_eq {α : Type} (e : HostError) (s : State) :
    (giveUp e s : HostResult α) = .failed e (Claims.afterReset s) := by
  rw [giveUp, hostDo_next (runMoves_cons (hostMove_reset s) []), HostResult.bind_done]

theorem errField_statusReg (s : State) : errField (statusReg s) = s.err.code :=
  (statusReg_fields s).1

theorem Err.code_eq_zero_iff (e : Err) : e.code = 0 ↔ e = .ok := by
  cases e <;> decide

theorem Err.code_eq_trunc_iff (e : Err) : e.code = Err.trunc.code ↔ e = .trunc := by
  cases e <;> decide

theorem unlessFaulted_ok {α : Type} (k : State → HostResult α) {s : State} (h : s.err = .ok) :
    unlessFaulted k s = k (answered (statusReg s) s) := by
  rw [unlessFaulted, hostRead_eq, HostResult.bind_done, readReg, errField_statusReg,
    if_pos ((Err.code_eq_zero_iff _).2 h)]

theorem unlessFaulted_faulted {α : Type} (k : State → HostResult α) {s : State} (h : s.err ≠ .ok) :
    unlessFaulted k s = .failed (reportOf s.err.code) (Claims.afterReset s) := by
  rw [unlessFaulted, hostRead_eq, HostResult.bind_done, readReg, errField_statusReg,
    if_neg (mt (Err.code_eq_zero_iff _).1 h), giveUp_eq]
  rfl

theorem reportOf_internal {e : Err} (h : 5 ≤ e.code.toNat) : reportOf e.code = .internal e.code :=
  if_neg fun h1 => by
    rw [h1] at h
    exact absurd h (by decide)

/-! ### The frequency table of the header -/

/-- The pairs of the header: the symbols among `ys` that were counted, with their counts (R236). -/
def pairsOf (freq : Vector Word 256) (ys : List Byte) : List (Byte × Word) :=
  (ys.filter fun y => tableAt freq y ≠ 0).map fun y => (y, tableAt freq y)

theorem pairsOf_cons (freq : Vector Word 256) (y : Byte) (ys : List Byte) :
    pairsOf freq (y :: ys) =
      if tableAt freq y ≠ 0 then (y, tableAt freq y) :: pairsOf freq ys else pairsOf freq ys := by
  rw [pairsOf, List.filter_cons]
  simp only [decide_eq_true_eq]
  split <;> rfl

/-- `s` after an FT_READ that gave `v` and the host's read of it. -/
def sawCount (v : Word) (s : State) : State := { s with res := v, resp := .data v }

/-- An FT_READ and a read of RES (R125, R236). -/
theorem hostDo_ftRead (y : Byte) {s : State} (he : s.err = .ok) :
    hostDo [issue (.ftRead y)] s = .done () (withRes (tableAt s.freq y) (written s)) :=
  hostDo_next (runMoves_cons ((hostMove_issue (i := .ftRead y) rfl s).trans
    (exec_run (i := .ftRead y) (s := written s) nofun he rfl)) [])

/-- The host reads the counted pairs in order; what is left of it in the state is the last count read
(R236). -/
theorem readPairs_eq (ys : List Byte) {s : State} (he : s.err = .ok) :
    readPairs ys s = .done (pairsOf s.freq ys)
      (ys.getLast?.elim s fun y => sawCount (tableAt s.freq y) s) := by
  induction ys generalizing s with
  | nil => rfl
  | cons y ys ih =>
    rw [readPairs, hostDo_ftRead y he, HostResult.bind_done, hostRead_eq, HostResult.bind_done,
      ih (s := answered _ (withRes (tableAt s.freq y) (written s))) he,
      HostResult.bind_done, pairsOf_cons]
    cases ys <;> rfl

/-- The last count that is read is that of symbol 255. -/
theorem readPairs_allSyms (v : Word) {s : State} (he : s.err = .ok) :
    readPairs allSyms (answered v s) =
      .done (pairsOf s.freq allSyms) (sawCount (tableAt s.freq 255) s) := by
  have hlast : allSyms.getLast? = some 255 := by decide
  rw [readPairs_eq allSyms (s := answered v s) he, hlast]
  rfl

/-! ### How compress ends -/

section

variable {p : Config.Params} {count emit : List HostMove} {s t u : State}

/-- The header that compress writes for the state after BUILD (R236). -/
def headerOf (p : Config.Params) (t : State) : List Byte :=
  headerBytes p (totalLoReg t) ((nuniqReg t).setWidth 16) (pairsOf t.freq allSyms)

/-- An error up to BUILD is reported after RESET (R238, R244). -/
theorem compressBy_faulted (h : runMoves (issue .reset :: count ++ [issue .build]) s = .next t)
    (he : t.err ≠ .ok) :
    compressBy p count emit s = .failed (reportOf t.err.code) (Claims.afterReset t) := by
  rw [compressBy, hostDo_next h, HostResult.bind_done, unlessFaulted_faulted _ he]

/-- A total that no header holds is refused after RESET (R239). -/
theorem compressBy_tooLong (h : runMoves (issue .reset :: count ++ [issue .build]) s = .next t)
    (he : t.err = .ok) (hhi : totalHiReg t ≠ 0) :
    compressBy p count emit s = .failed .tooLong (Claims.afterReset t) := by
  rw [compressBy, hostDo_next h, HostResult.bind_done, unlessFaulted_ok _ he, hostRead_eq,
    HostResult.bind_done]
  exact (if_pos hhi).trans (giveUp_eq _ _)

/-- With the total in the header's field compress reads the header and makes the moves that encode
(R235, R236). -/
theorem compressBy_encodes (h : runMoves (issue .reset :: count ++ [issue .build]) s = .next t)
    (he : t.err = .ok) (hhi : totalHiReg t = 0)
    (hu : runMoves (emit ++ [issue .flush]) (sawCount (tableAt t.freq 255) t) = .next u) :
    compressBy p count emit s =
      unlessFaulted (fun s' => .done (headerOf p t ++ s'.snk.drop s.snk.length) s') u := by
  simp only [compressBy, hostDo_next h, hostDo_next hu, HostResult.bind_done, unlessFaulted_ok _ he,
    hostRead_eq, answered_answered, readReg_answered, readPairs_allSyms _ he]
  exact if_neg (not_not.2 hhi)

end

/-! ### How decompress ends -/

section

variable {p : Config.Params} {c : List Byte} {k : Container} {s t : State}
  (hk : parseContainer p c = .ok k) (h : runMoves (decompressMoves k) s = .next t)

include hk h

/-- Without an error decompress returns what the sink received (R240). -/
theorem decompress_done (he : t.err = .ok) :
    decompress p c s = .done (t.snk.drop s.snk.length) (answered (statusReg t) t) := by
  rw [decompress, hk]
  simp only [hostDo_next h, HostResult.bind_done, hostRead_eq, readReg, errField_statusReg, he]
  rfl

/-- A payload that ends too early is reported with REMAIN (R219, R240). -/
theorem decompress_truncated (he : t.err = .trunc) :
    decompress p c s = .failed (.truncated t.remain) (answered t.remain t) := by
  rw [decompress, hk]
  simp only [hostDo_next h, HostResult.bind_done, hostRead_eq, readReg, errField_statusReg, he]
  rfl

/-- Any other error is reported after RESET (R244). -/
theorem decompress_faulted (he : t.err ≠ .ok) (htr : t.err ≠ .trunc) :
    decompress p c s = .failed (reportOf t.err.code) (Claims.afterReset t) := by
  rw [decompress, hk]
  simp only [hostDo_next h, HostResult.bind_done, hostRead_eq, readReg, errField_statusReg,
    mt (Err.code_eq_zero_iff _).1 he, mt (Err.code_eq_trunc_iff _).1 htr, if_false, giveUp_eq]
  rfl

end

/-- A container that is not read is reported before any command (R242). -/
theorem decompress_formatError {p : Config.Params} {c : List Byte} {cause : FormatCause}
    (h : parseContainer p c = .error cause) (s : State) :
    decompress p c s = .failed (.format cause) s := by
  rw [decompress, h]

/-! ### The empty input -/

/-- Counting nothing leaves the block reset, and BUILD refuses it (R238). -/
theorem runMoves_count_nothing (s : State) :
    runMoves (issue .reset :: [.attach [], issue .ftScan] ++ [issue .build]) s =
      .next { Claims.afterReset s with src := [], err := .empty } := by
  have hzero : (written { Claims.afterReset s with src := [] }).nuniq = 0 :=
    congrArg List.length uniqueSyms_zero
  have hscan : hostMove (issue .ftScan) { Claims.afterReset s with src := [] } =
      .next { Claims.afterReset s with src := [] } :=
    hostMove_issue_run (i := .ftScan) rfl nofun rfl rfl
  have hbuild : hostMove (issue .build) { Claims.afterReset s with src := [] } =
      .next { Claims.afterReset s with src := [], err := .empty } := by
    rw [hostMove_issue_run (i := .build) rfl nofun rfl rfl, bodyOf, buildBody, if_pos hzero]
    rfl
  rw [List.cons_append, runMoves_cons (hostMove_reset s), List.cons_append, runMoves_cons rfl,
    List.cons_append, runMoves_cons hscan, List.nil_append, runMoves_cons hbuild]
  rfl

/-- compress of an empty input is EmptyInputError, and the block is left reset (R238). -/
theorem compress_nil (p : Config.Params) (s : State) : compress p [] s = .failed .emptyInput
    { State.reset with snk := s.snk, host := s.host, resp := .written } :=
  compressBy_faulted (runMoves_count_nothing s) nofun

end Sys2Proof.Machine

open Sys2Proof Sys2Proof.Machine

/-- Settles O57: which containers are read, and how the two sequences end after their moves. -/
theorem hostReportsEmptyInputAndFormatErrors : Obligations.HostReportsEmptyInputAndFormatErrors := by
  intro p c s m n
  refine ⟨accepts_iff p c, fun cause h => decompress_formatError h s, compress_nil p s,
    fun e => reportOf_internal, fun k t hk h => ⟨decompress_done hk h, decompress_truncated hk h,
      decompress_faulted hk h⟩, fun count emit t h => ⟨compressBy_faulted h, compressBy_tooLong h,
      fun u he hhi hu herr => ?_⟩, giveUp_eq .io s⟩
  rw [compressBy_encodes h he hhi hu, unlessFaulted_faulted _ herr]
end

section
/-! SUPPORT. The block under the host's sequences (R235, R240): counting or loading a table and BUILD take
a reset block to a tree whose codes depend on the counts alone (R151). -/

namespace Sys2Proof.Machine

/-! ### The counts of an input -/

/-- The table that counts an input (R126). -/
def countsOf (input : List Byte) : Vector Word 256 :=
  Vector.ofFn fun i => BitVec.ofNat 32 (input.count (BitVec.ofNat 8 i.val))

theorem tableAt_countsOf (input : List Byte) (y : Byte) :
    tableAt (countsOf input) y = BitVec.ofNat 32 (input.count y) := by
  simp [tableAt, countsOf]

/-- No byte occurs more often than a count can say (R123). -/
def CountsFit (input : List Byte) : Prop := ∀ y, input.count y < 2 ^ 32

theorem countsFit_of_length {input : List Byte} (h : input.length < 2 ^ 32) : CountsFit input :=
  fun _ => List.count_le_length.trans_lt h

theorem CountsFit.toNat {input : List Byte} (h : CountsFit input) (y : Byte) :
    (tableAt (countsOf input) y).toNat = input.count y := by
  rw [tableAt_countsOf, BitVec.toNat_ofNat, Nat.mod_eq_of_lt (h y)]

theorem CountsFit.counted_iff {input : List Byte} (h : CountsFit input) (y : Byte) :
    tableAt (countsOf input) y ≠ 0 ↔ y ∈ input := by
  rw [← List.count_pos_iff, ← h.toNat, Nat.pos_iff_ne_zero, ne_eq, ne_eq, ← BitVec.toNat_inj]
  rfl

/-- The unique symbols are the bytes of the input (R233). -/
theorem CountsFit.uniqueSyms_eq {input : List Byte} (h : CountsFit input) :
    uniqueSyms (countsOf input) = allSyms.filter (· ∈ input) :=
  List.filter_congr fun y _ => decide_eq_decide.2 (h.counted_iff y)

theorem CountsFit.uniqueSyms_ne_nil {input : List Byte} (h : CountsFit input) (hne : input ≠ []) :
    uniqueSyms (countsOf input) ≠ [] := by
  obtain ⟨y, rest, rfl⟩ := List.exists_cons_of_ne_nil hne
  exact List.ne_nil_of_mem ((mem_uniqueSyms _ y).2 ((h.counted_iff y).2 List.mem_cons_self))

/-- The counts of all the bytes that may occur add up to the length. -/
theorem sum_counts {input ys : List Byte} (hn : ys.Nodup) (hm : ∀ y, y ∈ ys) :
    (ys.map fun y => input.count y).sum = input.length := by
  rw [← List.sum_toFinset _ hn]
  simpa using Multiset.sum_count_eq_card (m := (input : Multiset Byte)) (s := ys.toFinset)
    fun y _ => List.mem_toFinset.2 (hm y)

/-- TOTAL of an input's counts is its length (R32, R233). -/
theorem CountsFit.countSum_eq {input : List Byte} (h : CountsFit input) :
    countSum (countsOf input) = input.length := by
  rw [countSum, List.map_congr_left fun y _ => h.toNat y]
  exact sum_counts nodup_allSyms mem_allSyms

/-! ### Before BUILD -/

/-- The block has counted `freq` since RESET and nothing else, and the sink holds `out`. -/
structure Counting (out : List Byte) (freq : Vector Word 256) (t : State) : Prop where
  inv : t.Inv
  err : t.err = .ok
  phase : t.phase = .freq
  counts : t.freq = freq
  wcnt : t.wcnt = 0
  snk : t.snk = out

theorem counting_afterReset (s : State) :
    Counting s.snk (Vector.replicate 256 0) (Claims.afterReset s) :=
  ⟨resetBlock_inv (written s), rfl, rfl, rfl, rfl, rfl⟩

section

variable {out : List Byte} {freq : Vector Word 256} {t : State}

theorem Counting.attach (h : Counting out freq t) (bytes : List Byte) :
    Counting out freq { t with src := bytes } :=
  ⟨hostMove_keeps_inv (m := .attach bytes) h.inv rfl, h.err, h.phase, h.counts, h.wcnt, h.snk⟩

/-- LOADF sets one count (R99, R124). -/
theorem Counting.loadF (h : Counting out freq t) (y : Byte) (c : Word) :
    ∃ u, runMoves (Stmt.loadF y c).moves t = .next u ∧ Counting out (tablePut freq y c) u := by
  have harg : hostMove (.write 4 Reg.arg.offset c) t = .next { written t with arg := c } := rfl
  have hload : hostMove (issue (.ftLoad y)) { written t with arg := c } =
      .next { written t with arg := c, freq := tablePut t.freq y c, res := 0 } :=
    hostMove_issue_run (i := .ftLoad y) (s := { written t with arg := c }) rfl nofun h.err
      (decide_eq_true h.phase)
  refine ⟨_, (runMoves_cons harg _).trans (runMoves_cons hload []), ?_⟩
  exact ⟨hostMove_keeps_inv (hostMove_keeps_inv h.inv harg) hload, h.err, h.phase,
    congrArg (tablePut · y c) h.counts, h.wcnt, h.snk⟩

/-- A table with the counts of the pairs put into it, one after the other. -/
def loaded (freq : Vector Word 256) (pairs : List (Byte × Word)) : Vector Word 256 :=
  pairs.foldl (fun f q => tablePut f q.1 q.2) freq

/-- The host loads the pairs of a header (R240). -/
theorem Counting.loadPairs (h : Counting out freq t) (pairs : List (Byte × Word)) :
    ∃ u, runMoves (pairs.flatMap fun q => (Stmt.loadF q.1 q.2).moves) t = .next u ∧
      Counting out (loaded freq pairs) u := by
  induction pairs generalizing freq t with
  | nil => exact ⟨t, rfl, h⟩
  | cons q pairs ih =>
    obtain ⟨u, hu, hc⟩ := h.loadF q.1 q.2
    obtain ⟨v, hv, hd⟩ := ih hc
    exact ⟨v, by rw [List.flatMap_cons, runMoves_append hu, hv], hd⟩

/-- A table with pairs of `freq` put into it agrees with `freq` at their symbols. -/
theorem tableAt_loaded_pairsOf (base : Vector Word 256) (ys : List Byte) (y : Byte) :
    tableAt (loaded base (pairsOf freq ys)) y =
      if y ∈ ys ∧ tableAt freq y ≠ 0 then tableAt freq y else tableAt base y := by
  induction ys generalizing base with
  | nil => simp [loaded, pairsOf]
  | cons z ys ih =>
    rw [pairsOf_cons]
    by_cases hz : tableAt freq z = 0
    · rw [if_neg (not_not.2 hz), ih]
      by_cases hy : y = z
      · simp [hy, hz]
      · simp [hy]
    · rw [if_pos hz]
      refine (ih (tablePut base z (tableAt freq z))).trans ?_
      rw [tableAt_tablePut]
      by_cases hy : y = z
      · rw [hy, if_pos rfl, ite_self, if_pos ⟨List.mem_cons_self, hz⟩]
      · simp [hy]

/-- Loading all the pairs of a table into a cleared one gives the table back (R236, R240). -/
theorem loaded_pairsOf (freq : Vector Word 256) :
    loaded (Vector.replicate 256 0) (pairsOf freq allSyms) = freq := by
  refine table_ext fun y => ?_
  rw [tableAt_loaded_pairsOf, tableAt_replicate]
  split
  · rfl
  · next hy => exact (not_not.1 fun h0 => hy ⟨mem_allSyms y, h0⟩).symm

/-! ### FT_SCAN -/

/-- FT_SCAN completes only where every count fits (R126). -/
theorem counts_fit_of_scanLoop {bs : List Byte} {s u : State} {v : Word}
    (h : scanLoop bs s = .ret v u) (y : Byte) : (tableAt s.freq y).toNat + bs.count y < 2 ^ 32 := by
  induction bs generalizing s with
  | nil => exact (tableAt s.freq y).isLt
  | cons b bs ih =>
    by_cases hb : tableAt s.freq b = 0xFFFFFFFF#32
    · rw [scanLoop_overflow bs hb] at h
      cases h
    · rw [scanLoop_counted bs hb] at h
      have hroom : (tableAt s.freq b).toNat + 1 < 2 ^ 32 := by
        have : (tableAt s.freq b).toNat ≠ 0xFFFFFFFF := fun e => hb (BitVec.eq_of_toNat_eq e)
        omega
      rw [← counted_add_count hroom]
      exact ih h

/-- FT_SCAN of an input whose counts fit (R126). -/
theorem Counting.scan (h : Counting out (Vector.replicate 256 0) t) (hfit : CountsFit t.src) :
    ∃ u, hostMove (issue .ftScan) t = .next u ∧ Counting out (countsOf t.src) u := by
  have hzero (y : Byte) : (tableAt t.freq y).toNat = 0 := by
    rw [h.counts, tableAt_replicate]
    rfl
  obtain ⟨f, hf, hl⟩ := scanLoop_append t.src [] (written t) (List.append_nil _).symm
    fun y => by
      show (tableAt t.freq y).toNat + _ < _
      rw [hzero, Nat.zero_add]
      exact hfit y
  have hcount : f = countsOf t.src := table_ext fun y => BitVec.eq_of_toNat_eq (by
    rw [hf, hfit.toNat]
    show (tableAt t.freq y).toNat + _ = _
    rw [hzero, Nat.zero_add])
  rw [List.append_nil] at hl
  have hm := hostMove_issue_run (i := .ftScan) rfl nofun h.err (decide_eq_true h.phase)
  rw [bodyOf, show (written t).src = t.src from rfl, hl, scanLoop, finish_ret] at hm
  exact ⟨_, hm, hostMove_keeps_inv h.inv hm, h.err, h.phase, hcount, h.wcnt, h.snk⟩

/-- FT_SCAN of an input with a count that does not fit raises an error (R126). -/
theorem Counting.scan_overflow (h : Counting out (Vector.replicate 256 0) t)
    (hfit : ¬ CountsFit t.src) :
    ∃ u, hostMove (issue .ftScan) t = .next u ∧ u.err = .countOvf := by
  have hm := hostMove_issue_run (i := .ftScan) rfl nofun h.err (decide_eq_true h.phase)
  rw [bodyOf] at hm
  obtain ⟨f, p, r, -, e | e⟩ := scanLoop_form (written t).src (written t) rfl
  · refine absurd (fun y => ?_) hfit
    exact (Nat.le_add_left _ _).trans_lt (counts_fit_of_scanLoop e y)
  · rw [e] at hm
    exact ⟨_, hm, rfl⟩

/-! ### BUILD -/

/-- The code table that BUILD makes of a table of counts (R151, R171). -/
def builtCode (freq : Vector Word 256) : Vector (List Bool) 256 :=
  genCodes (buildTree freq).nodes ((buildTree freq).heap.headD 0)

/-- BUILD has completed with the counts `freq`, no bit has been put, and the sink holds `out`. -/
structure Built (out : List Byte) (freq : Vector Word 256) (t : State) : Prop where
  inv : t.Inv
  err : t.err = .ok
  phase : t.phase = .tree
  counts : t.freq = freq
  code : t.code = builtCode freq
  wcnt : t.wcnt = 0
  snk : t.snk = out

theorem Counting.build (h : Counting out freq t) (hne : uniqueSyms freq ≠ []) :
    ∃ u, hostMove (issue .build) t = .next u ∧ Built out freq u := by
  obtain ⟨hn, hh, -, -⟩ := h.inv.freq h.phase
  have h0 : (written t).nuniq ≠ 0 := fun e => hne (by
    rw [← h.counts]
    exact List.length_eq_zero_iff.1 e)
  obtain ⟨-, -, -, -, hbuild⟩ := buildRule
  obtain ⟨root, hr, hx⟩ := (hbuild (written t) ⟨h.err, decide_eq_true h.phase⟩).2 h0 hn hh
  have hm := (hostMove_issue (i := .build) rfl t).trans hx
  refine ⟨_, hm, hostMove_keeps_inv h.inv hm, h.err, rfl, h.counts, ?_, h.wcnt, h.snk⟩
  rw [builtCode, ← h.counts]
  show genCodes (buildTree t.freq).nodes root = _
  rw [show (buildTree t.freq).heap = [root] from hr]
  rfl

/-- BUILD in a faulted block is refused (R273). -/
theorem hostMove_build_faulted {t : State} (h : t.err ≠ .ok) :
    hostMove (issue .build) t = .next (written t) :=
  (hostMove_issue (i := .build) rfl t).trans (exec_faulted nofun h)

theorem Built.nuniq (h : Built out freq t) : t.nuniq = (uniqueSyms freq).length := by
  rw [State.nuniq, h.counts]

theorem Built.coded_iff (h : Built out freq t) (y : Byte) :
    tableAt (builtCode freq) y ≠ [] ↔ tableAt freq y ≠ 0 := by
  rw [← h.code, ← h.counts]
  exact (h.inv.tree h.phase).coded y

end

/-! ### The first pass of compress -/

/-- compress counts the input and builds its tree (R235). -/
theorem runMoves_count {input : List Byte} (hfit : CountsFit input) (hne : input ≠ []) (s : State) :
    ∃ t, runMoves (issue .reset :: [.attach input, issue .ftScan] ++ [issue .build]) s = .next t ∧
      Built s.snk (countsOf input) t := by
  obtain ⟨u, hu, hc⟩ := ((counting_afterReset s).attach input).scan hfit
  obtain ⟨t, ht, hb⟩ := hc.build (hfit.uniqueSyms_ne_nil hne)
  refine ⟨t, ?_, hb⟩
  rw [List.cons_append, runMoves_cons (hostMove_reset s), List.cons_append, runMoves_cons rfl,
    List.cons_append, runMoves_cons hu, List.nil_append, runMoves_cons ht, runMoves]

/-- With a count that does not fit the first pass ends faulted (R126). -/
theorem runMoves_count_overflow {input : List Byte} (hfit : ¬ CountsFit input) (s : State) :
    ∃ t, runMoves (issue .reset :: [.attach input, issue .ftScan] ++ [issue .build]) s = .next t ∧
      t.err = .countOvf := by
  obtain ⟨u, hu, he⟩ := ((counting_afterReset s).attach input).scan_overflow hfit
  refine ⟨written u, ?_, he⟩
  rw [List.cons_append, runMoves_cons (hostMove_reset s), List.cons_append, runMoves_cons rfl,
    List.cons_append, runMoves_cons hu, List.nil_append,
    runMoves_cons (hostMove_build_faulted (by rw [he]; decide)), runMoves]

end Sys2Proof.Machine
end

section
/-! SUPPORT. The round trip (R233, R250, R252): the container that compress writes, in terms of the input
alone, and its reading by decompress. -/

namespace Sys2Proof.Machine

/-! ### The container -/

/-- The bits of an input's encoding (R214). -/
def encodedBits (input : List Byte) : List Bool :=
  input.flatMap (tableAt (builtCode (countsOf input)))

/-- The header that compress writes (R231, R236). -/
def headerFor (p : Config.Params) (input : List Byte) : List Byte :=
  headerBytes p (BitVec.ofNat 32 input.length)
    (BitVec.ofNat 16 (uniqueSyms (countsOf input)).length) (pairsOf (countsOf input) allSyms)

/-- The container of an input (R230, R233). -/
def containerFor (p : Config.Params) (input : List Byte) : List Byte :=
  headerFor p input ++ packedBytes (encodedBits input)

theorem length_pairsOf (freq : Vector Word 256) :
    (pairsOf freq allSyms).length = (uniqueSyms freq).length := by
  rw [pairsOf, List.length_map, uniqueSyms]

theorem CountsFit.pairs_ne_nil {input : List Byte} (h : CountsFit input) (hne : input ≠ []) :
    pairsOf (countsOf input) allSyms ≠ [] := by
  rw [← List.length_pos_iff, length_pairsOf, List.length_pos_iff]
  exact h.uniqueSyms_ne_nil hne

/-- The host reads the container of an input back field by field. -/
theorem parseContainer_containerFor (p : Config.Params) {input : List Byte} (hfit : CountsFit input)
    (hne : input ≠ []) : parseContainer p (containerFor p input) =
      .ok ⟨BitVec.ofNat 32 input.length, pairsOf (countsOf input) allSyms,
        packedBytes (encodedBits input)⟩ := by
  have hle := length_uniqueSyms_le (countsOf input)
  refine parseContainer_header p _ _ ?_ (hfit.pairs_ne_nil hne)
  rw [length_pairsOf, BitVec.toNat_ofNat]
  exact Nat.mod_eq_of_lt (by omega)

/-! ### compress -/

section

variable {out : List Byte} {freq : Vector Word 256} {input : List Byte} {t : State}

/-- Reads of the host and a new source leave the tree (R70, R286). -/
theorem Built.access (h : Built out freq t) (v : Word) (bytes : List Byte) (r : BusResponse) :
    Built out freq { t with res := v, src := bytes, resp := r } :=
  ⟨h.inv.of_same h.inv.writer {} fun _ => rfl, h.err, h.phase, h.counts, h.code, h.wcnt, h.snk⟩

/-- ENC_RUN puts the bits of the codes of the source (R213, R214). -/
theorem Built.encRun (h : Built out freq t) (hc : ∀ y ∈ t.src, tableAt freq y ≠ 0) :
    ∃ u, hostMove (issue .encRun) t = .next u ∧
      HasWritten out (t.src.flatMap (tableAt (builtCode freq))) u ∧ u.code = builtCode freq := by
  have hw : Built out freq (written t) := h.access t.res t.src .written
  have hcode : ∀ y ∈ t.src, tableAt t.code y ≠ [] := fun y hy => by
    rw [h.code]
    exact (h.coded_iff y).2 (hc y hy)
  have hput := hasWritten_putBits hw.err hw.inv.writer hw.wcnt (t.src.flatMap (tableAt t.code))
  rw [hw.snk, h.code] at hput
  obtain ⟨herr, hcnt, hacc, hsnk⟩ := hput
  have hx := (encRunRule.2 (written t) ⟨hw.err, decide_eq_true hw.phase⟩).1 hcode
  rw [hw.code] at hx
  exact ⟨_, (hostMove_issue (i := .encRun) rfl t).trans hx, ⟨herr, hcnt, hacc, hsnk⟩,
    (putBits_code _ (written t)).trans h.code⟩

/-- FLUSH completes the bytes of what was written (R189, R190). -/
theorem HasWritten.hostFlush {bits : List Bool} (h : HasWritten out bits t) :
    ∃ u, hostMove (issue .flush) t = .next u ∧ u.err = .ok ∧ u.code = t.code ∧
      u.snk = out ++ packedBytes bits := by
  have hw : HasWritten out bits (written t) := ⟨h.err, h.wcnt, h.wacc, h.snk⟩
  exact ⟨_, (hostMove_issue (i := .flush) rfl t).trans (exec_flush hw.err),
    (flushWriter_err (written t)).trans h.err, flushWriter_code (written t), hw.flush⟩

/-- The second pass of compress appends the packed bits of the codes (R214, R235). -/
theorem Built.encode (h : Built out freq t) (hc : ∀ y ∈ input, tableAt freq y ≠ 0) :
    ∃ u, runMoves ([.attach input, issue .encRun] ++ [issue .flush]) t = .next u ∧ u.err = .ok ∧
      u.code = builtCode freq ∧
      u.snk = out ++ packedBytes (input.flatMap (tableAt (builtCode freq))) := by
  obtain ⟨e, he, hput, hcode⟩ := (h.access t.res input t.resp).encRun hc
  obtain ⟨u, hu, herr, hc', hsnk⟩ := hput.hostFlush
  refine ⟨u, ?_, herr, hc'.trans hcode, hsnk⟩
  rw [List.cons_append, runMoves_cons rfl, List.cons_append, runMoves_cons he, List.nil_append,
    runMoves_cons hu, runMoves]

/-- TOTAL of a built input (R32). -/
theorem Built.total_toNat (h : Built out (countsOf input) t) (hfit : CountsFit input) :
    (totalLoReg t).toNat + 2 ^ 32 * (totalHiReg t).toNat = input.length := by
  rw [← hfit.countSum_eq, ← h.counts, ← toNat_total]
  exact toNat_eq_lo_add_hi t.total

/-- The header that compress reads from the block is the input's (R236). -/
theorem Built.headerOf_eq (h : Built out (countsOf input) t) (hlen : input.length < 2 ^ 32)
    (p : Config.Params) : headerOf p t = headerFor p input := by
  have htotal := h.total_toNat (countsFit_of_length hlen)
  have hlo : totalLoReg t = BitVec.ofNat 32 input.length := BitVec.eq_of_toNat_eq (by
    rw [BitVec.toNat_ofNat]
    omega)
  have hle := length_uniqueSyms_le (countsOf input)
  have hn : (nuniqReg t).setWidth 16 = BitVec.ofNat 16 (uniqueSyms (countsOf input)).length :=
    BitVec.eq_of_toNat_eq (by
      rw [nuniqReg, h.nuniq]
      simp only [BitVec.toNat_setWidth, BitVec.toNat_ofNat]
      omega)
  rw [headerOf, headerFor, hlo, hn, h.counts]

end

/-- compress of an input that a container can describe (R235). -/
theorem compress_done (p : Config.Params) {input : List Byte} (hne : input ≠ [])
    (hlen : input.length < 2 ^ 32) (s : State) : ∃ t,
      compress p input s = .done (containerFor p input) t ∧ t.err = .ok ∧
        t.code = builtCode (countsOf input) := by
  have hfit := countsFit_of_length hlen
  obtain ⟨t, ht, hb⟩ := runMoves_count hfit hne s
  have htotal := hb.total_toNat hfit
  have hhi : totalHiReg t = 0 := BitVec.eq_of_toNat_eq (by
    show (totalHiReg t).toNat = 0
    omega)
  obtain ⟨u, hu, herr, hcode, hsnk⟩ := (hb.access (tableAt t.freq 255) t.src
    (.data (tableAt t.freq 255))).encode (input := input) fun y => (hfit.counted_iff y).2
  refine ⟨answered (statusReg u) u, ?_, herr, hcode⟩
  rw [compress, compressBy_encodes ht hb.err hhi hu, unlessFaulted_ok _ herr]
  show HostResult.done (headerOf p t ++ u.snk.drop s.snk.length) _ = _
  rw [hsnk, List.drop_left, hb.headerOf_eq hlen p, containerFor, encodedBits]

/-- compress completes only on an input that a container can describe (R238, R239). -/
theorem bounds_of_compress_done {p : Config.Params} {input c : List Byte} {s t : State}
    (h : compress p input s = .done c t) : input ≠ [] ∧ input.length < 2 ^ 32 := by
  have hne : input ≠ [] := by
    rintro rfl
    rw [compress_nil] at h
    cases h
  refine ⟨hne, ?_⟩
  by_cases hfit : CountsFit input
  · obtain ⟨u, hu, hb⟩ := runMoves_count hfit hne s
    have htotal := hb.total_toNat hfit
    by_cases hhi : totalHiReg u = 0
    · have hlt := (totalLoReg u).isLt
      rw [hhi, show (0 : Word).toNat = 0 from rfl] at htotal
      omega
    · rw [compress, compressBy_tooLong hu hb.err hhi] at h
      cases h
  · obtain ⟨u, hu, he⟩ := runMoves_count_overflow hfit s
    rw [compress, compressBy_faulted hu (by rw [he]; decide)] at h
    cases h

/-! ### decompress -/

section

variable {out : List Byte} {freq : Vector Word 256} {input : List Byte} {t : State}

/-- DEC_RUN on a fresh reader decodes what the same tree encoded (R220). -/
theorem Built.decRun (h : Built out freq t) (hc : ∀ y ∈ input, tableAt freq y ≠ 0)
    (hlen : input.length < 2 ^ 32) (hrem : t.remain = BitVec.ofNat 32 input.length)
    (hrcnt : t.rcnt = 0) (hreos : t.reos = false)
    (hsrc : t.src = packedBytes (input.flatMap (tableAt (builtCode freq)))) :
    ∃ u, hostMove (issue .decRun) t = .next u ∧ u.err = .ok ∧ u.snk = out ++ input := by
  have hw : Built out freq (written t) := h.access t.res t.src .written
  have hcode : ∀ y ∈ input, tableAt (written t).code y ≠ [] := fun y hy => by
    rw [hw.code]
    exact (h.coded_iff y).2 (hc y hy)
  have hcount : input.length = (written t).remain.toNat := by
    show _ = t.remain.toNat
    rw [hrem, BitVec.toNat_ofNat, Nat.mod_eq_of_lt hlen]
  have hbits : input.flatMap (tableAt (written t).code) <+: readerBits (written t) := by
    rw [hw.code]
    exact prefix_readerBits (extra := []) hrcnt hreos (hsrc.trans (List.append_nil _).symm)
  have hx := (decRunRule.2 (written t) hw.inv ⟨hw.err, decide_eq_true hw.phase⟩ input hcode).1
    hcount hbits
  exact ⟨_, (hostMove_issue (i := .decRun) rfl t).trans hx, (skipBits_err _ _).trans hw.err,
    congrArg (· ++ input) h.snk⟩

/-- `t` after the moves of decompress from BUILD to DEC_RUN (R240). -/
def readyToDecode (n : Word) (payload : List Byte) (t : State) : State :=
  { written t with res := 0, remain := n, src := payload, rbuf := 0, rcnt := 0, reos := false }

/-- The reader, REMAIN and the source are no part of the tree. -/
theorem Built.readyToDecode (h : Built out freq t) (n : Word) (payload : List Byte) :
    Built out freq (readyToDecode n payload t) :=
  ⟨h.inv.of_same h.inv.writer {} fun _ => rfl, h.err, h.phase, h.counts, h.code, h.wcnt, h.snk⟩

/-- The moves of decompress after BUILD (R240). -/
theorem Built.decode (h : Built out freq t) (hc : ∀ y ∈ input, tableAt freq y ≠ 0)
    (hlen : input.length < 2 ^ 32) : ∃ u,
      runMoves [.write 4 Reg.remain.offset (BitVec.ofNat 32 input.length),
        .attach (packedBytes (input.flatMap (tableAt (builtCode freq)))), issue .rdInit,
        issue .decRun] t = .next u ∧ u.err = .ok ∧ u.snk = out ++ input := by
  have hset (n : Word) : hostMove (.write 4 Reg.remain.offset n) t =
      .next { written t with remain := n } := rfl
  have hattach (n : Word) (payload : List Byte) :
      hostMove (.attach payload) { written t with remain := n } =
        .next { written t with remain := n, src := payload } := rfl
  have hinit (n : Word) (payload : List Byte) :
      hostMove (issue .rdInit) { written t with remain := n, src := payload } =
        .next (Machine.readyToDecode n payload t) :=
    hostMove_issue_run (s := { written t with remain := n, src := payload }) rfl nofun h.err rfl
  obtain ⟨u, hu, herr, hsnk⟩ := (h.readyToDecode (BitVec.ofNat 32 input.length)
    (packedBytes (input.flatMap (tableAt (builtCode freq))))).decRun hc hlen rfl rfl rfl rfl
  refine ⟨u, ?_, herr, hsnk⟩
  rw [runMoves_cons (hset _), runMoves_cons (hattach _ _), runMoves_cons (hinit _ _),
    runMoves_cons hu, runMoves]

end

/-- decompress of the container of an input (R240). -/
theorem decompress_containerFor (p : Config.Params) {input : List Byte} (hne : input ≠ [])
    (hlen : input.length < 2 ^ 32) (s : State) :
    ∃ t, decompress p (containerFor p input) s = .done input t ∧ t.err = .ok := by
  have hfit := countsFit_of_length hlen
  obtain ⟨l, hl, hload⟩ := (counting_afterReset s).loadPairs (pairsOf (countsOf input) allSyms)
  rw [loaded_pairsOf] at hload
  obtain ⟨b, hb, hbuilt⟩ := hload.build (hfit.uniqueSyms_ne_nil hne)
  obtain ⟨t, ht, herr, hsnk⟩ := hbuilt.decode (fun y => (hfit.counted_iff y).2) hlen
  have hmoves : runMoves (decompressMoves ⟨BitVec.ofNat 32 input.length,
      pairsOf (countsOf input) allSyms, packedBytes (encodedBits input)⟩) s = .next t := by
    rw [decompressMoves, List.cons_append, runMoves_cons (hostMove_reset s), runMoves_append hl,
      runMoves_cons hb]
    exact ht
  refine ⟨answered (statusReg t) t, ?_, herr⟩
  rw [decompress_done (parseContainer_containerFor p hfit hne) hmoves herr, hsnk, List.drop_left]

/-! ### The size of the payload -/

theorem length_packedBytes (bits : List Bool) : (packedBytes bits).length = (bits.length + 7) / 8 := by
  rw [packedBytes, List.length_map, List.length_range]

/-- Beyond the encoded length the bits of the payload are 0 (R190, R233). -/
theorem getLsbD_packedBytes_beyond {bits : List Bool} {q : Nat} (hq : bits.length ≤ q) :
    ((packedBytes bits).getD (q / 8) 0).getLsbD (7 - q % 8) = false := by
  by_cases hj : q / 8 < (packedBytes bits).length
  · rw [List.getD_eq_getElem _ _ hj]
    simp only [packedBytes, List.getElem_map, List.getElem_range]
    rw [getLsbD_packedByte _ _ (by omega), List.getD_eq_default _ _ (by omega)]
  · rw [List.getD_eq_default _ _ (Nat.le_of_not_lt hj)]
    exact BitVec.getLsbD_zero

/-- The encoded length is the sum of the code lengths (R214). -/
theorem length_encodedBits (input : List Byte) : (encodedBits input).length =
    Claims.payloadBits (builtCode (countsOf input)) input := by
  rw [encodedBits, List.length_flatMap, Claims.payloadBits]

/-- The pairs of the header are the distinct bytes in ascending order with their counts (R233). -/
theorem CountsFit.pairsOf_eq {input : List Byte} (h : CountsFit input) :
    pairsOf (countsOf input) allSyms =
      (allSyms.filter (· ∈ input)).map fun y => (y, BitVec.ofNat 32 (input.count y)) := by
  rw [← h.uniqueSyms_eq]
  exact List.map_congr_left fun y _ => congrArg (y, ·) (tableAt_countsOf input y)

/-! ### One byte repeated -/

/-- With one unique symbol its code is the bit 0 (R172). -/
theorem Built.single_code {out : List Byte} {freq : Vector Word 256} {t : State} {y : Byte}
    (h : Built out freq t) (h1 : uniqueSyms freq = [y]) : tableAt (builtCode freq) y = [false] := by
  have hy : tableAt (builtCode freq) y ≠ [] :=
    (h.coded_iff y).2 ((mem_uniqueSyms freq y).1 (h1 ▸ List.mem_cons_self))
  have hn : t.nuniq = 1 := by
    rw [h.nuniq, h1]
    rfl
  rw [← h.code] at hy ⊢
  exact (h.inv.tree h.phase).degenerate hn y hy

theorem filter_allSyms_eq (y : Byte) : allSyms.filter (· = y) = [y] := by
  rw [List.filter_eq, List.count_eq_one_of_mem nodup_allSyms (mem_allSyms y)]
  rfl

theorem replicate_ne_nil {k : Nat} (y : Byte) (hk : 1 ≤ k) : List.replicate k y ≠ [] :=
  mt (List.replicate_eq_nil_iff y).1 (by omega)

/-- 0 bits pack into 0 bytes (R190). -/
theorem packedBytes_replicate_false (k : Nat) :
    packedBytes (List.replicate k false) = List.replicate ((k + 7) / 8) 0 := by
  have hbyte (j : Nat) : packedByte (List.replicate k false) j = 0 :=
    BitVec.eq_of_getLsbD_eq fun i hi => by
      rw [getLsbD_packedByte _ _ hi, List.getD_eq_getElem?_getD,
        List.getElem?_getD_replicate_default_eq]
      exact BitVec.getLsbD_zero.symm
  rw [packedBytes, List.length_replicate, List.map_congr_left fun j _ => hbyte j, List.map_const',
    List.length_range]

section

variable {k : Nat} (y : Byte) (hk : 1 ≤ k) (hlt : k < 2 ^ 32)

include hk hlt

theorem uniqueSyms_replicate : uniqueSyms (countsOf (List.replicate k y)) = [y] := by
  have hfit : CountsFit (List.replicate k y) := countsFit_of_length (by rwa [List.length_replicate])
  rw [hfit.uniqueSyms_eq, ← filter_allSyms_eq y]
  refine List.filter_congr fun z _ => decide_eq_decide.2 ?_
  rw [List.mem_replicate]
  exact and_iff_right (by omega)

/-- The encoding of one byte repeated is as many 0 bits (R252). -/
theorem encodedBits_replicate : encodedBits (List.replicate k y) = List.replicate k false := by
  have hfit : CountsFit (List.replicate k y) := countsFit_of_length (by rwa [List.length_replicate])
  obtain ⟨t, -, ht⟩ := runMoves_count hfit (replicate_ne_nil y hk) State.reset
  rw [encodedBits, List.flatMap_replicate, ht.single_code (uniqueSyms_replicate y hk hlt),
    List.flatten_replicate_singleton]

/-- The container of one byte repeated: one pair, and 0 bytes (R252). -/
theorem containerFor_replicate (p : Config.Params) : containerFor p (List.replicate k y) =
    headerBytes p (BitVec.ofNat 32 k) 1 [(y, BitVec.ofNat 32 k)] ++
      List.replicate ((k + 7) / 8) 0 := by
  have hu := uniqueSyms_replicate y hk hlt
  have hpairs : pairsOf (countsOf (List.replicate k y)) allSyms = [(y, BitVec.ofNat 32 k)] := by
    have h : pairsOf (countsOf (List.replicate k y)) allSyms =
      (uniqueSyms (countsOf (List.replicate k y))).map
        fun z => (z, tableAt (countsOf (List.replicate k y)) z) := rfl
    rw [h, hu, List.map_singleton, tableAt_countsOf, List.count_replicate_self]
  rw [containerFor, headerFor, encodedBits_replicate y hk hlt, packedBytes_replicate_false, hpairs, hu,
    List.length_replicate]
  rfl

end

end Sys2Proof.Machine

open Sys2Proof Sys2Proof.Machine

/-- Settles O60: the tree of decompress comes from the counts that compress wrote, so its codes are those
that compress used. -/
theorem compressThenDecompress : Obligations.CompressThenDecompress := by
  refine fun p input s => ⟨fun hne hlen => ?_, fun h => ⟨_, h ▸ compress_nil p s⟩⟩
  obtain ⟨t, ht, herr, -⟩ := compress_done p hne hlen s
  exact ⟨_, t, ht, herr, decompress_containerFor p hne hlen⟩

/-- Settles O58: the container is that of the input, and its payload packs the codes. -/
theorem containerSizeAccounting : Obligations.ContainerSizeAccounting := by
  intro p input c s t h
  obtain ⟨hne, hlen⟩ := bounds_of_compress_done h
  have hfit := countsFit_of_length hlen
  obtain ⟨u, hu, -, hcode⟩ := compress_done p hne hlen s
  rw [hu] at h
  cases h
  have hparse := parseContainer_containerFor p hfit hne
  rw [hfit.pairsOf_eq] at hparse
  rw [hcode, ← length_encodedBits]
  refine ⟨_, hparse, ?_, List.length_pos_iff.2 hne, rfl, length_packedBytes _,
    fun q _ hq => getLsbD_packedBytes_beyond hq⟩
  rw [BitVec.toNat_ofNat, Nat.mod_eq_of_lt hlen]

/-- Settles O59: the one code is the bit 0. -/
theorem degenerateAlphabetPayload : Obligations.DegenerateAlphabetPayload := by
  intro p y k s hk hlt
  have hne := replicate_ne_nil y hk
  have hlen : (List.replicate k y).length < 2 ^ 32 := by rwa [List.length_replicate]
  rw [← containerFor_replicate y hk hlt p]
  obtain ⟨t, ht, -⟩ := compress_done p hne hlen s
  obtain ⟨u, hu, -⟩ := decompress_containerFor p hne hlen s
  exact ⟨⟨t, ht⟩, u, hu⟩
end

section
/-! SUPPORT. The faulted block (R273): what a write to CMD does there. -/

namespace Sys2Proof.Machine

/-- A faulted block takes no word but RESET's, legal or not (R273). -/
theorem writeCmd_faulted {w : Word} {s : State} (he : s.err ≠ .ok) (hw : w ≠ 0x01000000#32) :
    writeCmd w s = .next s := by
  cases hd : decode w with
  | ok i =>
    have hi : i ≠ .reset := by
      rintro rfl
      exact hw (encode_of_decode hd).symm
    rw [writeCmd_ok hd, exec_faulted hi he]
  | error r => rw [writeCmd_error hd, illegalWord, if_pos he]

theorem writeCmd_encode {i : Instr} (hw : i.wf = true) (s : State) : writeCmd (encode i) s = exec i s :=
  writeCmd_ok (decode_encode hw) s

end Sys2Proof.Machine

open Sys2Proof Sys2Proof.Machine

/-- Settles O12: the frame of R275 and the illegal word refuse, RESET runs outside the frame, and the other
accesses do not look at ERR. -/
theorem faultedBlockRefusesAllButReset : Obligations.FaultedBlockRefusesAllButReset := fun s he =>
  ⟨fun _ hw => writeCmd_faulted he hw, writeCmd_encode (i := .reset) rfl s, fun _ => rfl, fun _ => rfl,
    fun _ ho => hostMove_read_aligned ho s⟩
end

section
/-! SUPPORT. The inspection commands (R286): their bodies end in the state they started in. -/

namespace Sys2Proof.Machine

theorem rdNode_frame (sel : BitVec 4) (idx : Idx) (s : State) :
    (bodyOf (.rdNode sel idx) s).Ends (· = s) := by
  rw [bodyOf]
  cases nodeField? sel with
  | none => rfl
  | some f =>
    rw [Option.elim_some, rdNodeBody]
    split <;> rfl

theorem rdHeap_frame (idx : Idx) (s : State) : (bodyOf (.rdHeap idx) s).Ends (· = s) := by
  rw [bodyOf]
  cases s.heap[idx.toNat]? <;> rfl

/-- What a command leaves alone whose body changes nothing (R286). -/
theorem exec_inspects {i : Instr} {s t : State} (h : exec i s = .next t)
    (hb : (bodyOf i s).Ends (· = s)) (hi : i ≠ .reset) : t = { s with res := t.res, err := t.err } := by
  obtain ⟨u, v, e, rfl, rfl⟩ := exec_ends h hb hi rfl
  rfl

end Sys2Proof.Machine

open Sys2Proof Sys2Proof.Machine

/-- Settles O34, from what each of the bodies leaves alone. -/
theorem inspectionFrame : Obligations.InspectionFrame := by
  rintro i s t (⟨y, rfl⟩ | ⟨sel, idx, rfl⟩ | ⟨idx, rfl⟩ | ⟨y, rfl⟩ | ⟨y, c, rfl⟩) h
  · exact exec_inspects h rfl nofun
  · exact exec_inspects h (rdNode_frame sel idx s) nofun
  · exact exec_inspects h (rdHeap_frame idx s) nofun
  · exact exec_inspects h rfl nofun
  · exact exec_inspects h rfl nofun
end

section
/-! SUPPORT. Commands that raise (R271, R272): the error is the frame's or the body's, what the body has
kept at its raise point, and where ERR_EMPTY and ERR_BAD_CODE come from. -/

namespace Sys2Proof.Machine

/-- No body writes RES: a command that completes writes it at its end (R22). -/
theorem bodyOf_keeps_res (i : Instr) (s : State) : (bodyOf i s).Ends fun u => u.res = s.res := by
  cases i with
  | nop | reset | ftRead | rdCodeLen | rdCodeBits | ftClear | ftLoad | wrInit | rdInit => rfl
  | ftCount y => exact (ftCount_frame y s).mono fun _ hu => by rw [hu]
  | ftScan => exact (ftScan_frame s).mono fun _ hu => by rw [hu]
  | build => exact (build_frame s).mono fun _ hu => by rw [hu]
  | rdNode sel idx => exact (rdNode_frame sel idx s).mono fun _ hu => by rw [hu]
  | rdHeap idx => exact (rdHeap_frame idx s).mono fun _ hu => by rw [hu]
  | putBit b => exact (putBit_frame b s).mono fun _ hu => by rw [hu]
  | putSym y => exact (putSym_frame y s).mono fun _ hu => by rw [hu]
  | flush => exact (flush_frame s).mono fun _ hu => by rw [hu]
  | encRun => exact (encRun_frame s).mono fun _ hu => by rw [hu]
  | getBit => exact (getBit_frame s).mono fun _ hu => by rw [hu]
  | decSym => exact (decSym_frame s).mono fun _ hu => by rw [hu]
  | decRun => exact (decRun_frame s).mono fun _ hu => by rw [hu]

/-- BUILD raises before it has changed anything, and on an empty table alone (R141). -/
theorem buildBody_raised {s u : State} {e : Err} (h : buildBody s = .raised e u) :
    u = s ∧ s.nuniq = 0 := by
  obtain ⟨h0, e'⟩ | ⟨-, -, e'⟩ | ⟨-, -, -, r, -, e'⟩ := buildBody_cases s <;> rw [e'] at h <;> cases h
  exact ⟨rfl, h0⟩

/-- At its raise point a body has kept the tree and the phase: FT_CLEAR does not raise, and BUILD raises
first of all. -/
theorem bodyOf_raised_sameTree {i : Instr} {s u : State} {e : Err} (h : bodyOf i s = .raised e u) :
    SameTree s u := by
  by_cases hc : i = .ftClear
  · subst hc
    cases h
  by_cases hb : i = .build
  · subst hb
    obtain ⟨rfl, -⟩ := buildBody_raised h
    exact {}
  · have hran := bodyOf_ran i s
    rw [h] at hran
    exact hran.tree hc hb

/-- Where ERR is set the frame has raised ERR_PHASE, or the body has run and raised its error. -/
theorem exec_raise_cases {i : Instr} {s t : State} (h : exec i s = .next t) (he : s.err = .ok)
    (ht : t.err ≠ .ok) : t = raise .phase s ∨
      ((admissionOf i).admits s.phase = true ∧ ∃ e u, bodyOf i s = .raised e u ∧ t = raise e u) := by
  by_cases hi : i = .reset
  · subst hi
    cases h
    exact absurd rfl ht
  have hran := bodyOf_ran i s
  rw [exec_eq_command hi] at h
  obtain ⟨hn, -⟩ | ⟨-, -, h⟩ | ⟨-, -, v, u, hu, rfl⟩ | ⟨-, ha, h⟩ := command_cases h
  · exact absurd he hn
  · exact .inl h
  · rw [hu] at hran
    exact absurd (hran.err.trans he) ht
  · exact .inr ⟨ha, h⟩

/-- An error other than ERR_PHASE was raised by the body. -/
theorem bodyOf_raised_of_err {i : Instr} {s t : State} {e : Err} (h : exec i s = .next t)
    (he : s.err = .ok) (ht : t.err = e) (h0 : e ≠ .ok) (hp : e ≠ .phase) :
    (admissionOf i).admits s.phase = true ∧ ∃ u, bodyOf i s = .raised e u := by
  subst ht
  obtain rfl | ⟨ha, e, u, hu, rfl⟩ := exec_raise_cases h he h0
  · exact absurd rfl hp
  · exact ⟨ha, u, hu⟩

/-- An error other than ERR_PHASE is one of those of the command's body. -/
theorem mem_errorsOf_of_err {i : Instr} {s t : State} {e : Err} (h : exec i s = .next t)
    (he : s.err = .ok) (ht : t.err = e) (h0 : e ≠ .ok) (hp : e ≠ .phase) : e ∈ errorsOf i := by
  obtain ⟨-, u, hu⟩ := bodyOf_raised_of_err h he ht h0 hp
  exact bodyOf_raised hu

/-! ### ERR_BAD_CODE -/

/-- The walk raises ERR_TRUNC alone (R216). -/
theorem decWalk_raised {n : Nat} {c : Idx} {s u : State} {e : Err} (h : decWalk n c s = .raised e u) :
    e = .trunc := by
  fun_induction decWalk n c s with
  | case1 | case2 => cases h
  | case3 | case4 => cases h; rfl
  | case5 c s l r f hc b u hg k ih => exact ih h

/-- `dec_sym()` raises ERR_BAD_CODE at a leaf that is the root alone (R216). -/
theorem root_isLeaf_of_decSym {s u : State} (h : decSym s = .raised .badCode u) :
    s.rootNode?.any Node.isLeaf = true := by
  rw [decSym] at h
  split at h
  · cases h
  · next y f hr => rw [State.rootNode?, hr]; rfl
  · exact absurd (decWalk_raised h) nofun

/-- Decoding leaves the tree, so the root that DEC_RUN's last pass finds is the first one's (R218). -/
theorem root_isLeaf_of_decLoop {n : Nat} {s u : State} (h : decLoop n s = .raised .badCode u) :
    s.rootNode?.any Node.isLeaf = true := by
  induction n generalizing s with
  | zero => cases h
  | succ n ih =>
    rw [decLoop] at h
    obtain ⟨y, v, e, b, k, o, p, r, -, rfl⟩ | ⟨v, e | e, -⟩ | e := decSym_ends s
    · rw [e, Res.bind_ret] at h
      have hroot := ih h
      exact hroot
    · rw [e] at h
      cases h
    · exact root_isLeaf_of_decSym e
    · rw [e] at h
      cases h

theorem root_isLeaf_of_badCode {i : Instr} {s u : State} (hi : i = .decSym ∨ i = .decRun)
    (h : bodyOf i s = .raised .badCode u) : s.rootNode?.any Node.isLeaf = true := by
  obtain rfl | rfl := hi
  · rw [bodyOf] at h
    cases hd : decSym s with
    | ret y v => rw [hd] at h; cases h
    | raised e v => rw [hd] at h; cases h; exact root_isLeaf_of_decSym hd
    | stuck f => rw [hd] at h; cases h
  · exact root_isLeaf_of_decLoop h

/-! ### The rows of R271 -/

/-- The commands in the row of each error but ERR_PHASE (R271). -/
theorem raiser_of_mem_errorsOf (i : Instr) :
    (.empty ∈ errorsOf i → i = .build) ∧
    (.trunc ∈ errorsOf i → i = .decSym ∨ i = .decRun) ∧
    (.illegal ∈ errorsOf i → i.wf = false) ∧
    (.noCode ∈ errorsOf i → (∃ y, i = .putSym y) ∨ i = .encRun) ∧
    (.countOvf ∈ errorsOf i → (∃ y, i = .ftCount y) ∨ i = .ftScan) ∧
    (.badCode ∈ errorsOf i → i = .decSym ∨ i = .decRun) ∧
    (.range ∈ errorsOf i → (∃ f n, i = .rdNode f n) ∨ ∃ n, i = .rdHeap n) := by
  cases i with
  | rdNode sel idx =>
    have hsome := nodeField?_isSome sel
    cases hf : nodeField? sel with
    | none => rw [hf] at hsome; simpa [errorsOf, hf, Instr.wf] using hsome.symm
    | some f => simp [errorsOf, hf]
  | _ => simp [errorsOf]

end Sys2Proof.Machine

open Sys2Proof Sys2Proof.Machine

/-- Settles O14: the frame raises with nothing changed, and at its raise point a body has kept the tree and
has not written RES or ARG. -/
theorem raiseKeepsResAndTree : Obligations.RaiseKeepsResAndTree := by
  intro i s t h he ht
  obtain rfl | ⟨-, e, u, hu, rfl⟩ := exec_raise_cases h he ht
  · exact ⟨rfl, rfl, rfl, rfl, rfl, rfl, rfl⟩
  · have hres := bodyOf_keeps_res i s
    have hran := bodyOf_ran i s
    have htree := bodyOf_raised_sameTree hu
    rw [hu] at hres hran
    exact ⟨hres, htree.phase, hran.arg, htree.nodes, htree.heap, htree.root, htree.code⟩

/-- Settles O15: an error other than ERR_PHASE comes from the body of a command in its row; for BUILD and
the decoders the raise point tells the rest. -/
theorem errorsComeFromTheirCommands : Obligations.ErrorsComeFromTheirCommands := by
  refine ⟨by decide, fun i s t h he => ?_⟩
  have hmem : ∀ {e}, t.err = e → e ≠ .ok → e ≠ .phase → e ∈ errorsOf i := mem_errorsOf_of_err h he
  obtain ⟨hempty, htrunc, hillegal, hnoCode, hcountOvf, hbadCode, hrange⟩ := raiser_of_mem_errorsOf i
  refine ⟨fun ht => ?empty, fun ht => htrunc (hmem ht nofun nofun),
    fun ht => hillegal (hmem ht nofun nofun), fun ht => hnoCode (hmem ht nofun nofun),
    fun ht => hcountOvf (hmem ht nofun nofun), fun ht => ?badCode,
    fun ht => hrange (hmem ht nofun nofun)⟩
  case empty =>
    obtain rfl := hempty (hmem ht nofun nofun)
    obtain ⟨-, u, hu⟩ := bodyOf_raised_of_err h he ht nofun nofun
    obtain ⟨-, h0⟩ := buildBody_raised hu
    exact ⟨rfl, h0⟩
  case badCode =>
    have hi := hbadCode (hmem ht nofun nofun)
    obtain ⟨ha, u, hu⟩ := bodyOf_raised_of_err h he ht nofun nofun
    have hp : s.phase = .tree := by obtain rfl | rfl := hi <;> exact of_decide_eq_true ha
    exact ⟨hi, by rw [State.degen, hp, root_isLeaf_of_badCode hi hu]; rfl⟩
end

section
/-! SUPPORT. Noninterference of SNK_COUNT and SRC_COUNT (R37, R38, R283): every body commutes with adding
to the two counters. -/

namespace Sys2Proof.Machine

/-- `s` with `c` added to SNK_COUNT and `d` to SRC_COUNT. -/
def addCounts (c d : Word) (s : State) : State :=
  { s with snkCount := c + s.snkCount, srcCount := d + s.srcCount }

variable (c d : Word)

/-- Counting one byte commutes with the addition. -/
theorem bystander_addCounts : Bystander (addCounts c d) where
  pull s rest := by simp only [addCounts, BitVec.add_assoc]
  emit s y := by simp only [addCounts, snkAppend, BitVec.add_assoc]

theorem snkAppend_addCounts (b : Byte) (s : State) :
    snkAppend b (addCounts c d s) = addCounts c d (snkAppend b s) := by
  simp only [addCounts, snkAppend, BitVec.add_assoc]

theorem putBit_addCounts (b : Bool) (s : State) :
    putBit b (addCounts c d s) = addCounts c d (putBit b s) := by
  by_cases h : s.wcnt = 7#3
  · rw [putBit_eighth h, putBit_eighth (s := addCounts c d s) h, snkAppend_addCounts]
    rfl
  · rw [putBit_before_eighth h, putBit_before_eighth (s := addCounts c d s) h]
    rfl

theorem flushWriter_addCounts (s : State) :
    flushWriter (addCounts c d s) = addCounts c d (flushWriter s) := by
  by_cases h : s.wcnt = 0
  · rw [flushWriter_empty h, flushWriter_empty (s := addCounts c d s) h]
  · rw [flushWriter_pending h, flushWriter_pending (s := addCounts c d s) h, snkAppend_addCounts]
    rfl

theorem getBit_addCounts (s : State) :
    getBit (addCounts c d s) = ((getBit s).1, addCounts c d (getBit s).2) := by
  by_cases h : s.rcnt = 0
  · cases he : s.reos with
    | true => rw [getBit_latched h he, getBit_latched (s := addCounts c d s) h he]
    | false =>
      cases hs : s.src with
      | nil => rw [getBit_eos h he hs, getBit_eos (s := addCounts c d s) h he hs]; rfl
      | cons v rest =>
        rw [getBit_pull h he hs, getBit_pull (s := addCounts c d s) h he hs,
          show (addCounts c d s).srcCount + 1 = d + (s.srcCount + 1) from BitVec.add_assoc ..]
        rfl
  · rw [getBit_buffered h, getBit_buffered (s := addCounts c d s) h]; rfl

theorem buildBody_addCounts (s : State) :
    buildBody (addCounts c d s) = (buildBody s).mapState (addCounts c d) := by
  rw [buildBody, buildBody, show (addCounts c d s).nuniq = s.nuniq from rfl,
    show (addCounts c d s).nodes = s.nodes from rfl, show (addCounts c d s).heap = s.heap from rfl,
    show (addCounts c d s).freq = s.freq from rfl]
  split_ifs
  · rfl
  · rfl
  · dsimp only
    cases (buildTree s.freq).heap.head? <;> rfl

/-- No body reads a counter but to count on from it (R283). -/
theorem bodyOf_addCounts (i : Instr) (s : State) :
    bodyOf i (addCounts c d s) = (bodyOf i s).mapState (addCounts c d) := by
  have hm := bystander_addCounts c d
  have hp := putBit_addCounts c d
  have hg := getBit_addCounts c d
  cases i with
  | nop | reset | ftRead | ftLoad | rdCodeLen | rdCodeBits | ftClear | wrInit | rdInit => rfl
  | ftCount y => exact Res.bind_mapState (countOne_mapState hm y s) fun _ _ => rfl
  | ftScan => exact scanLoop_mapState hm s.src s
  | build => exact buildBody_addCounts c d s
  | rdNode sel idx =>
    rw [bodyOf, bodyOf]
    cases nodeField? sel with
    | none => rfl
    | some f =>
      rw [Option.elim_some, Option.elim_some, rdNodeBody, rdNodeBody, hm.nodes]
      cases s.nodes[idx.toNat]? <;> rfl
  | rdHeap idx =>
    rw [bodyOf, bodyOf, show (addCounts c d s).heap = s.heap from rfl]
    cases s.heap[idx.toNat]? <;> rfl
  | putBit b => rw [bodyOf, bodyOf, hp, Res.mapState_ret]
  | putSym y => exact Res.bind_mapState (putSym_mapState hm hp y s) fun _ _ => rfl
  | flush => rw [bodyOf, bodyOf, flushWriter_addCounts, Res.mapState_ret]
  | encRun => exact encLoop_mapState hm hp s.src s
  | getBit => rw [bodyOf, bodyOf, hg, Res.mapState_ret]
  | decSym => exact Res.bind_mapState (decSym_mapState hm hg (fun _ => rfl) s) fun _ _ => rfl
  | decRun => exact decLoop_mapState hm hg (fun _ => rfl) s.remain.toNat s

end Sys2Proof.Machine

open Sys2Proof Sys2Proof.Machine

/-- Settles O39: the other values of the counters are the old ones with something added. -/
theorem countersAreReadByNoRule : Obligations.CountersAreReadByNoRule := by
  intro i s t a b hi h
  have hx := exec_mapState (bystander_addCounts (a - s.snkCount) (b - s.srcCount)) hi
    (bodyOf_addCounts _ _ i s) h
  have hshift : ∀ x y z : Word, x - y + z = x + (z - y) := fun x y z => by
    rw [BitVec.sub_eq_add_neg, BitVec.sub_eq_add_neg, BitVec.add_assoc, BitVec.add_comm (-y)]
  simpa only [addCounts, hshift, BitVec.sub_self, BitVec.add_zero] using hx
end
